-- ==== Sys2Proof/Word.lean ====
section
/-! DEFINITION. The word types of the NBC (00_scope.md R6, R9): bytes, nibbles, 64-bit registers and addresses, 32-bit
command words and the operand fields of a command word. -/

namespace Sys2Proof

/-- One byte of memory (R70). -/
abbrev Byte := BitVec 8

/-- Half a byte, the unit of the cursors and of a packed value (R16, R76). -/
abbrev Nibble := BitVec 4

/-- A 64-bit value, register-port datum or byte address (R6: `VALUE_BITS`, `REG_BITS`, `ADDR_BITS`). -/
abbrev Word := BitVec 64

/-- A 32-bit command word (R6: `CMD_BITS`; R100). -/
abbrev CommandWord := BitVec 32

/-- The number of a slot register, the `rd` and `rs` fields of a command word (R100, R106). -/
abbrev SlotIx := BitVec 3

/-- The `n` field of a command word, a count of nibbles (R100, R106). -/
abbrev NibCount := BitVec 5

end Sys2Proof
end

