-- ==== Sys2Proof/Config.lean ====
section
/-! DEFINITION. What is fixed for the unit (00_scope.md R6): the parameters the rules use by name, and the one byte the
model chooses for memory that nothing has written. No value of this spec is left free: every result is stated. -/

namespace Sys2Proof.Config

/-- `HAS_XOR` of the unit that leaves reset: "true by default" (R6, D41). State carries the parameter
(`State.hasXor`), so a statement about every state covers a unit without the XOR variant too. -/
def hasXor : Bool := true

/-- `MAX_NIBBLES`, the largest nibble count of a block and of an `n` field (R6). -/
def maxNibbles : Nat := 16

/-- `MAX_BUCKETS` (R6). -/
def maxBuckets : Nat := 65535

/-- `FRAME_HDR_BYTES` (R6, R120). -/
def frameHeaderBytes : Nat := 19

/-- `COUNT_BYTES`, the width of a stream's count header (R6, D3). -/
def countBytes : Nat := 4

/-- The largest number of values a stream can declare, `2^32 - 1` (R117). -/
def maxCount : Nat := 2 ^ 32 - 1

/-- One more than the largest byte address (R70). -/
def addressSpace : Nat := 2 ^ 64

/-- The largest `SRC_LEN` or `DST_CAP` the rules give a meaning to, `2^63 - 1` (R75 (b)). -/
def maxSliceBytes : Nat := 2 ^ 63 - 1

/-- What a memory byte reads as when the model's memory lists nothing for its address. DESIGN CHOICE, unsafe (log entry
3): the spec leaves memory unspecified at reset (R271, U7). -/
def unwrittenByte : Byte := 0

/-- The constant of register `CAP` (R47): `HAS_XOR` in bit 0, `COUNT_BYTES` = 4 in bits 7:4, `IF_VERSION` = 7 in bits
15:8. -/
def capConstant (hasXor : Bool) : BitVec 16 := if hasXor then 0x0741 else 0x0740

end Sys2Proof.Config
end

