-- ==== Sys2Proof/Machine/Arith.lean ====
section
/-! DEFINITION. The pure arithmetic of the NBC (00_scope.md R13, 40_byteutils.md R131, R133, R139; 44_histogram.md R209).
Sizes and offsets are unbounded naturals (R8); data are 64-bit patterns. -/

namespace Sys2Proof.Machine

/-- `ceil_div` (R13). -/
def ceilDiv (a b : Nat) : Nat := (a + b - 1) / b

/-- `popcount8` (R13): how many of the bits 7:0 are 1. -/
def popcount8 (m : Byte) : Nat := ((List.range 8).filter fun j => m.getLsbD j).length

/-- The least `n` in 0..16 for which `v` fits in `n` nibbles (R131). -/
def nibbleWidth (v : Word) : Nat :=
  ((List.range 17).find? fun n => decide (v.toNat < 16 ^ n)).getD Config.maxNibbles

/-- `bit_width`: the least `w` in 0, 4, .., 64 with `v < 2^w`, in bits (R131). -/
def bitWidth (v : Word) : Nat := 4 * nibbleWidth v

/-- `zigzag_encode` (R133, D36). -/
def zigzagEncode (s : Word) : Word := (s <<< 1) ^^^ (if s.msb then BitVec.allOnes 64 else 0)

/-- `zigzag_decode` (R133, D36). -/
def zigzagDecode (u : Word) : Word := (u >>> 1) ^^^ (if u.getLsbD 0 then BitVec.allOnes 64 else 0)

/-- The bit pattern of 1.0 (R209). -/
def patternOne : Word := 0x3FF0000000000000

/-- The bit pattern of +infinity (R209). -/
def patternInfinity : Word := 0x7FF0000000000000

/-- `f_gt_one`: the binary64 number of this pattern is `> 1.0`, decided on the unsigned pattern (R209, D30). -/
def greaterThanOne (b : Word) : Bool := patternOne.toNat < b.toNat && b.toNat ≤ patternInfinity.toNat

/-- `f_gt_zero`: the binary64 number of this pattern is `> 0.0`, decided on the unsigned pattern (R209, D30). -/
def greaterThanZero (b : Word) : Bool := 0 < b.toNat && b.toNat ≤ patternInfinity.toNat

end Sys2Proof.Machine
end

