-- ==== Sys2Proof/Machine/State.lean ====
section
/-! DEFINITION. What the machine holds: the registers of 10_state.md R20 and R23, the memory of 20_memory.md R70, and
the host's pending actions (00_scope.md R7); the reasons a step can stop; the state after reset (R55, R272). -/

namespace Sys2Proof.Machine

/-- The eight slot registers, or the eight slots of a block (R21, R111). -/
abbrev Slots := Vector Word 8

/-- Memory: the bytes that differ from `Config.unwrittenByte`, by strictly rising address (R70). -/
abbrev Memory := List Host.Cell

/-- One action of the host (R7, R70, R84, R270). A step of the machine performs one of them. -/
inductive HostAction where
  /-- Read register number `r` through the register port (R22). -/
  | readReg (r : BitVec 6)
  /-- Write `d` to register number `r` through the register port (R22); number 34 is the command port (R51). -/
  | writeReg (r : BitVec 6) (d : Word)
  /-- Read one byte of the shared memory (R70). -/
  | readMem (a : Word)
  /-- Write one byte of the shared memory (R70). -/
  | writeMem (a : Word) (b : Byte)
  /-- Assert the hardware reset input (R270). -/
  | reset
  deriving DecidableEq, Repr

/-- The slices of memory a command uses (R71); the value array's length is `VAL_COUNT` for `ENCODE` and `HNB` for
`HENC`, so it has two names. -/
inductive Slice where
  | source
  | destination
  | streamValues
  | frameValues
  | output
  deriving DecidableEq, Repr

/-- Reasons the machine stops with a fault: none. "there is no input on which the NBC hangs, halts or needs a reset"
(45_system.md R231), and every address of the space exists (R81). The spec's errors are results in `STATUS`, hence next
states. Nothing raises it; safe (log entry 11). -/
inductive Fault where
  deriving DecidableEq, Repr

/-- Reasons the machine gives a command no meaning. -/
inductive Refusal where
  /-- An instruction without a meaning in this model. Raised by no arm of `exec`; safe. -/
  | notModelled (mnemonic : String)
  /-- A slice the command uses wraps around the address space (R75 (a), U1: treatment "refuse"). Raised by
  `State.using`; safe. -/
  | sliceWraps (sl : Slice)
  /-- The source or destination slice is longer than `2^63 - 1` bytes (R75 (b), U2: treatment "refuse"). Raised by
  `State.using`; safe. -/
  | sliceTooLong (sl : Slice)
  /-- A byte the command would write lies in a slice it reads (R75 (c), U3: treatment "refuse"). Raised by `ENCODE`,
  `DECODE`, `HENC`, `HDEC`; safe. -/
  | slicesOverlap (written read : Slice)
  deriving DecidableEq, Repr

/-- The machine. Every field but the last four is a register of R23 under its own name; `hasXor` is the home of the
constant register `CAP` (`State.cap`). -/
structure State where
  /-- `x[0]` .. `x[7]` (R21). -/
  x : Slots
  /-- `SRC_BASE` (R24). -/
  srcBase : Word
  /-- `SRC_LEN`, in bytes (R25). -/
  srcLen : Word
  /-- `RNIB`, the read cursor, in nibbles (R26). -/
  rnib : Word
  /-- `DST_BASE` (R27). -/
  dstBase : Word
  /-- `DST_CAP`, in bytes (R28). -/
  dstCap : Word
  /-- `WNIB`, the write cursor, in nibbles (R29). -/
  wnib : Word
  /-- `VAL_BASE` (R31). -/
  valBase : Word
  /-- `VAL_COUNT`, in 8-byte elements (R32). -/
  valCount : Word
  /-- `OUT_BASE` (R33). -/
  outBase : Word
  /-- `OUT_CAP`, in 8-byte elements (R34). -/
  outCap : Word
  /-- `OUT_LEN`, in 8-byte elements (R35). -/
  outLen : Word
  /-- `ACC` (R36). -/
  acc : Word
  /-- `LIMIT` (R37). -/
  limit : Word
  /-- `MODE` (R38). -/
  mode : BitVec 2
  /-- `STATUS`, all of it the field `ERR` (R39). -/
  status : BitVec 3
  /-- `EINFO` (R40). -/
  einfo : Byte
  /-- `NVALS` (R41). -/
  nvals : Word
  /-- `NBYTES` (R42). -/
  nbytes : Word
  /-- `ZM` (R43). -/
  zm : Byte
  /-- `NW` (R44). -/
  nw : BitVec 5
  /-- `HFMT` (R45). -/
  hfmt : Byte
  /-- `HNB` (R46). -/
  hnb : BitVec 32
  /-- `HINIT` (R48). -/
  hinit : Word
  /-- `HMULT` (R49). -/
  hmult : Word
  /-- `HSTATE` (R50). -/
  hstate : BitVec 4
  /-- `CMD` (R51). -/
  cmd : CommandWord
  /-- The parameter `HAS_XOR`, bit 0 of `CAP` (R6, R47). No step changes it. -/
  hasXor : Bool
  /-- The memory shared with the host (R70). -/
  mem : Memory
  /-- The host's pending actions, oldest first; the model's own (log entry 1). -/
  host : List HostAction
  /-- What the host's last read returned; the model's own (log entry 2). -/
  hostData : Word
  deriving DecidableEq, Repr

/-- Register `CAP` (R47). -/
def State.cap (s : State) : BitVec 16 := Config.capConstant s.hasXor

/-- The machine right after reset (R55, R272): every register 0 but `LIMIT` and the constant `CAP`; memory lists nothing
(R271, log entry 3); the host has nothing pending (log entry 1) and has read nothing (log entry 2). -/
def State.reset : State where
  x := Vector.replicate 8 0
  srcBase := 0
  srcLen := 0
  rnib := 0
  dstBase := 0
  dstCap := 0
  wnib := 0
  valBase := 0
  valCount := 0
  outBase := 0
  outCap := 0
  outLen := 0
  acc := 0
  limit := 0xFFFFFFFFFFFFFFFF
  mode := 0
  status := 0
  einfo := 0
  nvals := 0
  nbytes := 0
  zm := 0
  nw := 0
  hfmt := 0
  hnb := 0
  hinit := 0
  hmult := 0
  hstate := 0
  cmd := 0
  hasXor := Config.hasXor
  mem := []
  host := []
  hostData := 0

end Sys2Proof.Machine
end

