-- ==== Sys2Proof/Machine/Flags.lean ====
section
/-! DEFINITION. Every value a flag or result register takes: the error kinds of `STATUS` (60_exceptions.md R241), the
sub-causes of `EINFO` (R242), the states of `HSTATE` (44_histogram.md R205), and the zero-mask and width of `ZM` and `NW`
(41_nibblepack_block.md R151, R152). -/

namespace Sys2Proof.Machine

/-- The error kinds (R241). -/
inductive ErrorKind where
  | ok
  | validationError
  | truncatedInput
  | inconsistentLength
  | unsupported
  | noSpace
  deriving DecidableEq, Repr

/-- The code of a kind in `STATUS.ERR` (R39, R241). -/
def ErrorKind.code : ErrorKind → BitVec 3
  | .ok => 0
  | .validationError => 1
  | .truncatedInput => 2
  | .inconsistentLength => 3
  | .unsupported => 4
  | .noSpace => 5

/-- The sub-causes of an error (R242). -/
inductive Subcause where
  | oddCursor
  | countOverflow
  | hnbOverflow
  | badMult
  | badInit
  | truncNib
  | truncCount
  | truncBlockHdr
  | truncPayload
  | truncFrameHdr
  | zeroCountTrailing
  | nonzeroCountEmpty
  | bucketCountMismatch
  | illegalCmd
  | badWidth
  | badMode
  | fmtUnimplemented
  | fmtUnknown
  | dstFull
  | outFull
  deriving DecidableEq, Repr

/-- The code of a sub-cause in `EINFO` (R242). -/
def Subcause.code : Subcause → Byte
  | .oddCursor => 0x10
  | .countOverflow => 0x11
  | .hnbOverflow => 0x12
  | .badMult => 0x13
  | .badInit => 0x14
  | .truncNib => 0x20
  | .truncCount => 0x21
  | .truncBlockHdr => 0x22
  | .truncPayload => 0x23
  | .truncFrameHdr => 0x24
  | .zeroCountTrailing => 0x30
  | .nonzeroCountEmpty => 0x31
  | .bucketCountMismatch => 0x32
  | .illegalCmd => 0x40
  | .badWidth => 0x41
  | .badMode => 0x42
  | .fmtUnimplemented => 0x43
  | .fmtUnknown => 0x44
  | .dstFull => 0x50
  | .outFull => 0x51

/-- The kind a sub-cause belongs to (R242). -/
def Subcause.kind : Subcause → ErrorKind
  | .oddCursor | .countOverflow | .hnbOverflow | .badMult | .badInit => .validationError
  | .truncNib | .truncCount | .truncBlockHdr | .truncPayload | .truncFrameHdr => .truncatedInput
  | .zeroCountTrailing | .nonzeroCountEmpty | .bucketCountMismatch => .inconsistentLength
  | .illegalCmd | .badWidth | .badMode | .fmtUnimplemented | .fmtUnknown => .unsupported
  | .dstFull | .outFull => .noSpace

/-- The states of the histogram-frame machine (R205). -/
inductive FrameState where
  | idle
  | fmt
  | nb
  | init
  | mult
  | stream
  | xform
  | done
  | validate
  deriving DecidableEq, Repr

/-- The code of a frame state in `HSTATE` (R50, R205). -/
def FrameState.code : FrameState → BitVec 4
  | .idle => 0
  | .fmt => 1
  | .nb => 2
  | .init => 3
  | .mult => 4
  | .stream => 5
  | .xform => 6
  | .done => 7
  | .validate => 8

/-- The zero-mask of a list of slot values as a number: bit `j` is 1 when value `j` is 0. -/
def maskBits : List Word → Nat
  | [] => 0
  | v :: rest => (if v = 0 then 1 else 0) + 2 * maskBits rest

/-- `zero_mask`: bit `j` is 1 exactly when slot `j` is zero (R151, R114, C1). -/
def zeroMask (x : Slots) : Byte := BitVec.ofNat 8 (maskBits x.toList)

/-- `block_w`: the largest `bit_width` of the eight slots, in bits (R152). -/
def blockWidth (x : Slots) : Nat := (x.toList.map bitWidth).foldr max 0

/-- `block_n`: the same width in nibbles (R152, C2). -/
def blockNibbles (x : Slots) : Nat := blockWidth x / 4

/-- `block_size`: the bytes of a block with width `n` and mask `m` (R113). -/
def blockSize (n : Nat) (m : Byte) : Nat := 2 + ceilDiv ((8 - popcount8 m) * n) 2

end Sys2Proof.Machine
end

