-- ==== Sys2Proof/Machine/Operands.lean ====
section
/-! DEFINITION. Where a command's operands are: the slot registers its fields name (30_encoding.md R106), the cursors and
what they leave to read or write (20_memory.md R80), the sink variant `MODE` selects (10_state.md R38), the slices
(R71) with the preconditions R75 puts on them. -/

namespace Sys2Proof.Machine

/-- `x[r]` (R10, R21). -/
def State.slot (s : State) (r : SlotIx) : Word := s.x[r.toNat]'r.isLt

/-- `x[r] <- v` (R10). -/
def State.setSlot (s : State) (r : SlotIx) (v : Word) : State := { s with x := s.x.set r.toNat v r.isLt }

/-- A cursor is byte-aligned when it is even (R80). -/
def isOdd (cursor : Word) : Bool := cursor.toNat % 2 = 1

/-- The byte offset of a byte-aligned cursor (R80). -/
def byteOffset (cursor : Word) : Nat := cursor.toNat / 2

/-- The cursor at byte offset `p`. -/
def cursorAt (p : Nat) : Word := BitVec.ofNat 64 (2 * p)

/-- The nibbles that can be read at `RNIB` (R80); subtraction of naturals stops at 0. -/
def State.nibblesToRead (s : State) : Nat := 2 * s.srcLen.toNat - s.rnib.toNat

/-- The nibbles that can be written at `WNIB` (R80). -/
def State.nibblesToWrite (s : State) : Nat := 2 * s.dstCap.toNat - s.wnib.toNat

/-- The sink variants (R38, R190). -/
inductive SinkMode where
  | raw
  | delta
  | xor
  deriving DecidableEq, Repr

/-- The variant `MODE` selects; none when `MODE = 3`, or `MODE = 2` without `HAS_XOR` (R38, R199). -/
def State.sinkMode (s : State) : Option SinkMode :=
  match s.mode.toNat with
  | 0 => some .raw
  | 1 => some .delta
  | 2 => if s.hasXor then some .xor else none
  | _ => none

/-- The base address and the length in bytes of a slice (R71, R75, U1). -/
def State.extent (s : State) : Slice → Nat × Nat
  | .source => (s.srcBase.toNat, s.srcLen.toNat)
  | .destination => (s.dstBase.toNat, s.dstCap.toNat)
  | .streamValues => (s.valBase.toNat, 8 * s.valCount.toNat)
  | .frameValues => (s.valBase.toNat, 8 * s.hnb.toNat)
  | .output => (s.outBase.toNat, 8 * s.outCap.toNat)

/-- The slices whose length R75 (b) bounds by `2^63 - 1`. -/
def Slice.isBounded : Slice → Bool
  | .source | .destination => true
  | .streamValues | .frameValues | .output => false

/-- Which precondition of R75 (a), (b) a slice violates, if any (U1, U2). -/
def State.sliceProblem (s : State) (sl : Slice) : Option Refusal :=
  if (s.extent sl).1 + (s.extent sl).2 > Config.addressSpace then some (.sliceWraps sl)
  else if sl.isBounded && (s.extent sl).2 > Config.maxSliceBytes then some (.sliceTooLong sl)
  else none

/-- The runs of `lenA` bytes at `a` and `lenB` bytes at `b` share a byte. -/
def overlap (a lenA b lenB : Nat) : Bool := a < b + lenB && b < a + lenA && 0 < lenA && 0 < lenB

/-- Some byte of the `len` bytes at `a` lies in slice `sl` (R75 (c), U3). -/
def State.writesInto (s : State) (a len : Nat) (sl : Slice) : Bool :=
  overlap a len (s.extent sl).1 (s.extent sl).2

end Sys2Proof.Machine
end

