-- ==== Sys2Proof/Machine/Ops.lean ====
section
/-! DEFINITION. The named operations: memory by bytes, little-endian integers, nibbles, bits and 8-byte elements
(20_memory.md R72, R73, R76 to R79); ending a command with an error or with success (60_exceptions.md R244, R245,
45_system.md R231); the sink and the forward transform (43_sink.md R191 to R193). -/

namespace Sys2Proof.Machine

/-- The three outcomes of a step of this machine. -/
abbrev Result := Host.Outcome State Fault Refusal

/-! ### Memory -/

/-- `Mem[a]` (R11). -/
def Memory.read : Memory → Nat → Byte
  | [], _ => Config.unwrittenByte
  | (k, b) :: rest, a => if a = k then b else Memory.read rest a

/-- `Mem[a] <- v` (R11), keeping the canonical form of `Memory.wf`. -/
def Memory.write : Memory → Nat → Byte → Memory
  | [], a, v => if v = Config.unwrittenByte then [] else [(a, v)]
  | (k, b) :: rest, a, v =>
    if a < k then if v = Config.unwrittenByte then (k, b) :: rest else (a, v) :: (k, b) :: rest
    else if a = k then if v = Config.unwrittenByte then rest else (a, v) :: rest
    else (k, b) :: Memory.write rest a v

/-- The canonical form: addresses strictly rise, and no entry holds what an unlisted address reads as. -/
abbrev Memory.wf (m : Memory) : Prop :=
  m.Pairwise (fun c d => c.1 < d.1) ∧ ∀ c ∈ m, c.2 ≠ Config.unwrittenByte

/-- Write bytes at rising addresses from `a` (R73). -/
def Memory.writeBytes : Memory → Nat → List Byte → Memory
  | m, _, [] => m
  | m, a, b :: rest => Memory.writeBytes (m.write a b) (a + 1) rest

/-- `MemRead(a, n)`: the unsigned little-endian integer of `n` bytes (R11, R72). -/
def Memory.readLE (m : Memory) (a : Nat) : Nat → Nat
  | 0 => 0
  | n + 1 => (m.read a).toNat + 256 * Memory.readLE m (a + 1) n

/-- The `n` little-endian bytes of `v` (R72). -/
def leBytes (v : Nat) : Nat → List Byte
  | 0 => []
  | n + 1 => BitVec.ofNat 8 v :: leBytes (v / 256) n

/-- `MemWrite(a, n, v)` (R11, R72). -/
def Memory.writeLE (m : Memory) (a n v : Nat) : Memory := m.writeBytes a (leBytes v n)

/-- The 8-byte element at `a` (R31, R33, R72). -/
def Memory.readElem (m : Memory) (a : Nat) : Word := BitVec.ofNat 64 (m.readLE a 8)

/-- Store an 8-byte element at `a` (R33, R72). -/
def Memory.writeElem (m : Memory) (a : Nat) (v : Word) : Memory := m.writeLE a 8 v.toNat

/-- The elements `0 .. k-1` of the array at `a`, in index order (R31). -/
def Memory.readElems (m : Memory) (a : Nat) : Nat → List Word
  | 0 => []
  | k + 1 => m.readElem a :: Memory.readElems m (a + 8) k

/-! ### Nibbles and bits -/

/-- Nibble `q` of the slice at `base`: the low half of its byte when `q` is even, else the high half (R76). -/
def Memory.nibble (m : Memory) (base q : Nat) : Nibble :=
  if q % 2 = 0 then (m.read (base + q / 2)).extractLsb' 0 4 else (m.read (base + q / 2)).extractLsb' 4 4

/-- `b` with its low (`high = false`) or high half replaced by `d` (R78). -/
def replaceNibble (b : Byte) (high : Bool) (d : Nibble) : Byte :=
  if high then d ++ b.extractLsb' 0 4 else b.extractLsb' 4 4 ++ d

/-- Set nibble `q` of the slice at `base`; the other half of its byte is kept (R78). -/
def Memory.setNibble (m : Memory) (base q : Nat) (d : Nibble) : Memory :=
  m.write (base + q / 2) (replaceNibble (m.read (base + q / 2)) (q % 2 = 1) d)

/-- `NibRead(base, q, n)` (R77). -/
def Memory.nibRead (m : Memory) (base q : Nat) : Nat → Nat
  | 0 => 0
  | n + 1 => (m.nibble base q).toNat + 16 * Memory.nibRead m base (q + 1) n

/-- `NibWrite(base, q, n, v)`: nibble `q+j` becomes `v[4j+3:4j]` (R78). One nibble at a time; the bytes it leaves are
those of R78's whole-byte writes (log entry 8). -/
def Memory.nibWrite (m : Memory) (base q : Nat) : Nat → Word → Memory
  | 0, _ => m
  | n + 1, v => Memory.nibWrite (m.setNibble base q (v.extractLsb' 0 4)) base (q + 1) n (v >>> 4)

/-- Bit `b` of the slice at `base` (R79). -/
def Memory.bit (m : Memory) (base b : Nat) : Bool := (m.read (base + b / 8)).getLsbD (b % 8)

/-- `BitRead(base, b, k)` (R79). No command reaches it at other offsets than `NibRead`'s. -/
def Memory.bitRead (m : Memory) (base b : Nat) : Nat → Nat
  | 0 => 0
  | k + 1 => (m.bit base b).toNat + 2 * Memory.bitRead m base (b + 1) k

/-- `y` with bit `i` set to `v`. -/
def setBit (y : Byte) (i : Nat) (v : Bool) : Byte :=
  if v then y ||| BitVec.twoPow 8 i else y &&& ~~~ BitVec.twoPow 8 i

/-- `BitWrite(base, b, k, v)` (R79). No command reaches it at other offsets than `NibWrite`'s. -/
def Memory.bitWrite (m : Memory) (base b : Nat) : Nat → Word → Memory
  | 0, _ => m
  | k + 1, v =>
    Memory.bitWrite (m.write (base + b / 8) (setBit (m.read (base + b / 8)) (b % 8) (v.getLsbD 0))) base (b + 1) k (v >>> 1)

/-! ### Ending a command -/

/-- `raise Kind(SUB)`, the one way a command takes an error: `STATUS.ERR` and `EINFO` take the codes and nothing else
changes (R12, R244, R245). Control goes nowhere: there is no vector, no mode and nothing to return from (R244, R247). -/
def State.raise (s : State) (c : Subcause) : State := { s with status := c.kind.code, einfo := c.code }

/-- `raise` of a frame command, which also shows the frame state of the raising check (R50, R244). -/
def State.raiseIn (s : State) (st : FrameState) (c : Subcause) : State := { s.raise c with hstate := st.code }

/-- A command that ends without `raise`: `STATUS.ERR <- 0`, `EINFO <- 0` (R12, R231). -/
def State.succeed (s : State) : State := { s with status := ErrorKind.ok.code, einfo := 0 }

/-- Go on only under the preconditions of R75 (a), (b) for the slices a command uses; refuse otherwise (U1, U2, log
entry 5). -/
def State.using (s : State) (slices : List Slice) (k : Result) : Result :=
  match slices.findSome? s.sliceProblem with
  | some r => .refused r
  | none => k

/-! ### Slot registers as the staging group of a block -/

/-- Eight slot values from a list, missing ones 0 (R118). -/
def slotsOfList (l : List Word) : Slots :=
  #v[l.getD 0 0, l.getD 1 0, l.getD 2 0, l.getD 3 0, l.getD 4 0, l.getD 5 0, l.getD 6 0, l.getD 7 0]

/-- Leave a processed block in `x[0..7]`, `ZM`, `NW` (R57). -/
def State.stage (s : State) (x : Slots) (m : Byte) (n : Nat) : State :=
  { s with x := x, zm := m, nw := BitVec.ofNat 5 n }

/-! ### The sink and the forward transform -/

/-- `out_append(o)` (R191). -/
def State.outAppend (s : State) (o : Word) : State :=
  { s with mem := s.mem.writeElem (s.outBase.toNat + 8 * s.outLen.toNat) o, outLen := s.outLen + 1 }

/-- `sink_push(mode, v)` (R192); additions wrap modulo `2^64` (R139 (c)). -/
def State.sinkPush (s : State) (md : SinkMode) (v : Word) : State :=
  match md with
  | .raw => s.outAppend v
  | .delta => { s with acc := s.acc + v }.outAppend (s.acc + v)
  | .xor => { s with acc := s.acc ^^^ v }.outAppend (s.acc ^^^ v)

/-- Push a list, in order (R175). -/
def State.pushAll (s : State) (md : SinkMode) : List Word → State
  | [] => s
  | v :: rest => State.pushAll (s.sinkPush md v) md rest

/-- The transformed list of `forward` (R193): each value against the one before it, the first against `a`. -/
def forwardList (md : SinkMode) (a : Word) : List Word → List Word
  | [] => []
  | v :: rest =>
    (match md with
      | .raw => v
      | .delta => v - a
      | .xor => v ^^^ a) :: forwardList md v rest

/-- The final accumulator `acc_end` of `forward` (R193). -/
def forwardAcc (md : SinkMode) (a : Word) (v : List Word) : Word :=
  match md with
  | .raw => a
  | .delta | .xor => v.getLastD a

end Sys2Proof.Machine
end

