-- ==== Sys2Proof/Machine/Format.lean ====
section
/-! DEFINITION. The data formats (30_encoding.md part B): building blocks, streams and frames (41_nibblepack_block.md R154,
42_nibblepack_stream.md R170, 44_histogram.md R211), and the walks that read them (R156, R173, R212). -/

namespace Sys2Proof.Machine

/-! ### Blocks -/

/-- The `n` low nibbles of `v`, least significant first (R154). -/
def nibblesOf (v : Word) (n : Nat) : List Nibble := (List.range n).map fun j => v.extractLsb' (4 * j) 4

/-- Nibbles to bytes, the first of each pair low; a last single nibble gets the pad nibble 0 (R115, R154). -/
def packNibbles : List Nibble → List Byte
  | [] => []
  | [a] => [0#4 ++ a]
  | a :: b :: rest => (b ++ a) :: packNibbles rest

/-- The payload nibbles of a block of width `n`: the nonzero slots, in slot order (R115). -/
def payloadNibbles (x : List Word) (n : Nat) : List Nibble := (x.filter (· ≠ 0)).flatMap fun v => nibblesOf v n

/-- `encode_block` (R154): control byte, zero-mask byte, payload. -/
def encodeBlock (x : Slots) : List Byte :=
  BitVec.ofNat 8 (blockNibbles x) :: zeroMask x :: packNibbles (payloadNibbles x.toList (blockNibbles x))

/-- The values of slots `j ..` of a block, `k` of them, whose payload goes on at nibble `q` of the slice (R156). -/
def decodeSlots (m : Memory) (base n : Nat) (mask : Byte) : Nat → Nat → Nat → List Word
  | 0, _, _ => []
  | k + 1, j, q =>
    if mask.getLsbD j then 0 :: decodeSlots m base n mask k (j + 1) q
    else BitVec.ofNat 64 (m.nibRead base q n) :: decodeSlots m base n mask k (j + 1) (q + n)

/-- What a decoder knows of a block before it reads the payload: its byte offset in the source slice, its width and its
mask (R173). -/
structure BlockHeader where
  start : Nat
  n : Nat
  mask : Byte
  deriving DecidableEq, Repr

/-- `decode_block` of the block with this header in the slice at `base` (R156); the payload starts at nibble
`2*(start+2)` (R115). -/
def decodeBlock (m : Memory) (base : Nat) (b : BlockHeader) : Slots :=
  slotsOfList (decodeSlots m base b.n b.mask 8 0 (2 * (b.start + 2)))

/-- Read and check the block at byte offset `e` of a slice of `len` bytes (R157, R173): its header, or the first failing
test. -/
def checkBlock (m : Memory) (base len e : Nat) : Except Subcause BlockHeader :=
  if e + 2 > len then .error .truncBlockHdr
  else if (m.read (base + e)).toNat > Config.maxNibbles then .error .badWidth
  else if e + blockSize (m.read (base + e)).toNat (m.read (base + e + 1)) > len then .error .truncPayload
  else .ok ⟨e, (m.read (base + e)).toNat, m.read (base + e + 1)⟩

/-- The byte offset just past a block. -/
def BlockHeader.stop (b : BlockHeader) : Nat := b.start + blockSize b.n b.mask

/-! ### Streams -/

/-- The values in groups of eight, `g` of them; the last is padded with zeros (R118, R170). -/
def groupsOf : Nat → List Word → List Slots
  | 0, _ => []
  | g + 1, t => slotsOfList (t.take 8) :: groupsOf g (t.drop 8)

/-- The groups of a list (R117: `G = ceil_div(N, 8)`). -/
def streamGroups (t : List Word) : List Slots := groupsOf (ceilDiv t.length 8) t

/-- `encode_stream` (R170): the count header, then the blocks. -/
def encodeStream (t : List Word) : List Byte :=
  leBytes t.length Config.countBytes ++ (streamGroups t).flatMap encodeBlock

/-- What `stream_check` returns (R173): the declared count, the number to deliver, the needed blocks, the byte offset
just past the last of them. -/
structure StreamInfo where
  count : Nat
  deliver : Nat
  blocks : List BlockHeader
  stop : Nat
  deriving DecidableEq, Repr

/-- The walk over `g` blocks from byte offset `e` (R173): the headers and the offset past the last, or the first failing
test. -/
def checkBlocks (m : Memory) (base len : Nat) : Nat → Nat → Except Subcause (List BlockHeader × Nat)
  | 0, e => .ok ([], e)
  | g + 1, e =>
    match checkBlock m base len e with
    | .error c => .error c
    | .ok b =>
      match checkBlocks m base len g b.stop with
      | .error c => .error c
      | .ok (bs, stop) => .ok (b :: bs, stop)

/-- `stream_check(p, lim)` over a slice of `len` bytes at `base` (R173, C4). -/
def streamCheck (m : Memory) (base len p lim : Nat) : Except Subcause StreamInfo :=
  if p + 4 > len then .error .truncCount
  else if m.readLE (base + p) 4 = 0 ∧ len - (p + 4) > 0 then .error .zeroCountTrailing
  else if m.readLE (base + p) 4 > 0 ∧ len - (p + 4) = 0 then .error .nonzeroCountEmpty
  else
    match checkBlocks m base len (ceilDiv (min (m.readLE (base + p) 4) lim) 8) (p + 4) with
    | .error c => .error c
    | .ok (bs, stop) => .ok ⟨m.readLE (base + p) 4, min (m.readLE (base + p) 4) lim, bs, stop⟩

/-- The raw values a checked stream delivers: all slots of the needed blocks, in order, cut to the number to deliver
(R175). -/
def streamValues (m : Memory) (base : Nat) (i : StreamInfo) : List Word :=
  (i.blocks.flatMap fun b => (decodeBlock m base b).toList).take i.deliver

/-! ### Histogram frames -/

/-- What the format code `f` means to the NBC (R121, R207): an implemented code, or the error it raises. -/
def formatProblem (f : Byte) : Option Subcause :=
  if f = 3 ∨ f = 4 then some .fmtUnimplemented
  else if f = 1 ∨ f = 2 then none
  else some .fmtUnknown

/-- The list in the order format `f` encodes it: reversed for code 2 (R208). -/
def formatOrder (f : Byte) (v : List Word) : List Word := if f = 2 then v.reverse else v

/-- The bytes of a frame for the transformed list `t` (R120, R211). -/
def encodeFrame (f : Byte) (nb : BitVec 32) (init mult : Word) (t : List Word) : List Byte :=
  f :: (leBytes nb.toNat 2 ++ leBytes init.toNat 8 ++ leBytes mult.toNat 8 ++ encodeStream t)

/-- What `frame_check` returns (R212). -/
structure FrameInfo where
  format : Byte
  buckets : Nat
  init : Word
  mult : Word
  stream : StreamInfo
  deriving DecidableEq, Repr

/-- The tests of the embedded stream (R212, state `H_STREAM`): the walk, the two counts, the room in the output. -/
def frameStreamCheck (m : Memory) (base len p outCap nb : Nat) : Except Subcause StreamInfo :=
  match streamCheck m base len p (2 ^ 64 - 1) with
  | .error c => .error c
  | .ok i =>
    if i.count ≠ nb then .error .bucketCountMismatch
    else if i.count > outCap then .error .outFull
    else .ok i

/-- `frame_check(p)` over a slice of `len` bytes at `base` (R212): the frame, or the failing test and its state. -/
def frameCheck (m : Memory) (base len p outCap : Nat) : Except (FrameState × Subcause) FrameInfo :=
  if p + 1 > len then .error (.fmt, .truncFrameHdr)
  else
    match formatProblem (m.read (base + p)) with
    | some c => .error (.fmt, c)
    | none =>
      if p + 3 > len then .error (.nb, .truncFrameHdr)
      else if p + 11 > len then .error (.init, .truncFrameHdr)
      else if p + Config.frameHeaderBytes > len then .error (.mult, .truncFrameHdr)
      else
        match frameStreamCheck m base len (p + Config.frameHeaderBytes) outCap (m.readLE (base + p + 1) 2) with
        | .error c => .error (.stream, c)
        | .ok i =>
          .ok ⟨m.read (base + p), m.readLE (base + p + 1) 2, m.readElem (base + p + 3), m.readElem (base + p + 11), i⟩

/-- Exchange the elements `i` and `j` of the array at `base` (R216). -/
def swapElems (m : Memory) (base i j : Nat) : Memory :=
  (m.writeElem (base + 8 * i) (m.readElem (base + 8 * j))).writeElem (base + 8 * j) (m.readElem (base + 8 * i))

/-- Exchange elements `i` and `n-1-i` for every `i < k` (R216). -/
def reverseElems (m : Memory) (base n : Nat) : Nat → Memory
  | 0 => m
  | k + 1 => swapElems (reverseElems m base n k) base k (n - 1 - k)

end Sys2Proof.Machine
end

