-- ==== Sys2Proof/Machine/Block.lean ====
section
/-! DEFINITION. The block commands (41_nibblepack_block.md): `SCAN`, `PACK`, `UNPACK`. -/

namespace Sys2Proof.Machine

/-- `SCAN` (R153). -/
def execScan (s : State) : Result := .next (s.stage s.x (zeroMask s.x) (blockNibbles s.x)).succeed

/-- The commit phase of `PACK` (R155): the bytes of `encode_block(x)` at the write cursor (log entry 13). -/
def State.packBlock (s : State) : State :=
  { s.stage s.x (zeroMask s.x) (blockNibbles s.x) with
    mem := s.mem.writeBytes (s.dstBase.toNat + byteOffset s.wnib) (encodeBlock s.x)
    wnib := cursorAt (byteOffset s.wnib + blockSize (blockNibbles s.x) (zeroMask s.x)) }

/-- `PACK` (R155, R158). -/
def execPack (s : State) : Result :=
  if isOdd s.wnib then .next (s.raise .oddCursor)
  else
    s.using [.destination]
      (if byteOffset s.wnib + blockSize (blockNibbles s.x) (zeroMask s.x) > s.dstCap.toNat then .next (s.raise .dstFull)
      else .next s.packBlock.succeed)

/-- The commit phase of `UNPACK` (R157). -/
def State.unpackBlock (s : State) (b : BlockHeader) : State :=
  { s.stage (decodeBlock s.mem s.srcBase.toNat b) b.mask b.n with rnib := cursorAt b.stop }

/-- `UNPACK` (R157, R158). -/
def execUnpack (s : State) : Result :=
  if isOdd s.rnib then .next (s.raise .oddCursor)
  else
    s.using [.source]
      (match checkBlock s.mem s.srcBase.toNat s.srcLen.toNat (byteOffset s.rnib) with
      | .error c => .next (s.raise c)
      | .ok b => .next (s.unpackBlock b).succeed)

end Sys2Proof.Machine
end

