-- ==== Sys2Proof/Machine/ByteUtils.lean ====
section
/-! DEFINITION. The ByteUtils commands (40_byteutils.md): `BITW`, `ZZENC`, `ZZDEC`, `RDNIB`, `WRNIB`. -/

namespace Sys2Proof.Machine

/-- `BITW rd, rs` (R132). -/
def execBitw (rd rs : SlotIx) (s : State) : Result :=
  .next (s.setSlot rd (BitVec.ofNat 64 (bitWidth (s.slot rs)))).succeed

/-- `ZZENC rd, rs` (R134). -/
def execZzenc (rd rs : SlotIx) (s : State) : Result := .next (s.setSlot rd (zigzagEncode (s.slot rs))).succeed

/-- `ZZDEC rd, rs` (R135). -/
def execZzdec (rd rs : SlotIx) (s : State) : Result := .next (s.setSlot rd (zigzagDecode (s.slot rs))).succeed

/-- The commit phase of `RDNIB` (R137). -/
def State.readField (s : State) (rd : SlotIx) (n : Nat) : State :=
  { s.setSlot rd (BitVec.ofNat 64 (s.mem.nibRead s.srcBase.toNat s.rnib.toNat n)) with
    rnib := s.rnib + BitVec.ofNat 64 n }

/-- `RDNIB rd, n` (R136, R137). With `n = 0` it uses no slice and always succeeds (log entry 5). -/
def execRdnib (rd : SlotIx) (n : NibCount) (s : State) : Result :=
  s.using (if n = 0 then [] else [.source])
    (if n.toNat > s.nibblesToRead then .next (s.raise .truncNib) else .next (s.readField rd n.toNat).succeed)

/-- The commit phase of `WRNIB` (R138). -/
def State.writeField (s : State) (rs : SlotIx) (n : Nat) : State :=
  { s with
    mem := s.mem.nibWrite s.dstBase.toNat s.wnib.toNat n (s.slot rs)
    wnib := s.wnib + BitVec.ofNat 64 n }

/-- `WRNIB rs, n` (R136, R138). With `n = 0` it uses no slice and always succeeds (log entry 5). -/
def execWrnib (rs : SlotIx) (n : NibCount) (s : State) : Result :=
  s.using (if n = 0 then [] else [.destination])
    (if n.toNat > s.nibblesToWrite then .next (s.raise .dstFull) else .next (s.writeField rs n.toNat).succeed)

end Sys2Proof.Machine
end

