-- ==== Sys2Proof/Machine/Sink.lean ====
section
/-! DEFINITION. The sink commands (43_sink.md): `SRESET`, `PUSH`. -/

namespace Sys2Proof.Machine

/-- The sink's `reset()` (R195). -/
def State.resetSink (s : State) : State := { s with outLen := 0, acc := 0 }

/-- `SRESET` (R195). -/
def execSreset (s : State) : Result := .next s.resetSink.succeed

/-- `PUSH rs` (R196, R199). -/
def execPush (rs : SlotIx) (s : State) : Result :=
  match s.sinkMode with
  | none => .next (s.raise .badMode)
  | some md =>
    s.using [.output]
      (if s.outLen.toNat ≥ s.outCap.toNat then .next (s.raise .outFull) else .next (s.sinkPush md (s.slot rs)).succeed)

end Sys2Proof.Machine
end

