-- ==== Sys2Proof/Machine/Stream.lean ====
section
/-! DEFINITION. The stream commands (42_nibblepack_stream.md): `ENCODE`, `DECODE`, and the commit phases they share with
the frame commands. -/

namespace Sys2Proof.Machine

/-- Leave the last group written, if any, in the slot registers (R57). -/
def State.stageWritten (s : State) (t : List Word) : State :=
  match (streamGroups t).getLast? with
  | some x => s.stage x (zeroMask x) (blockNibbles x)
  | none => s

/-- The commit phase of `ENCODE` and of `HENC` but for `HSTATE` (R172, R211): `bytes` at the write cursor, for the
transformed list `t` and the final accumulator `accEnd`. -/
def State.commitEncoded (s : State) (t : List Word) (bytes : List Byte) (accEnd : Word) : State :=
  { s.stageWritten t with
    mem := s.mem.writeBytes (s.dstBase.toNat + byteOffset s.wnib) bytes
    wnib := cursorAt (byteOffset s.wnib + bytes.length)
    acc := accEnd
    nvals := BitVec.ofNat 64 t.length
    nbytes := BitVec.ofNat 64 bytes.length }

/-- The last tests of a command that writes `bytes` at the write cursor and reads the value array `values`: room (R74),
then no overlap (R75 (c), U3), then its commit phase. `onFull` is the error of a full destination. -/
def State.emit (s : State) (values : Slice) (bytes : List Byte) (onFull commit : State) : Result :=
  if byteOffset s.wnib + bytes.length > s.dstCap.toNat then .next onFull
  else if s.writesInto (s.dstBase.toNat + byteOffset s.wnib) bytes.length values then
    .refused (.slicesOverlap .destination values)
  else .next commit

/-- The input values of `ENCODE` (R31, R172). -/
def State.streamInput (s : State) : List Word := s.mem.readElems s.valBase.toNat s.valCount.toNat

/-- `ENCODE` after its register tests, under sink variant `md` (R171, R172). -/
def encodeUnder (md : SinkMode) (s : State) : Result :=
  s.emit .streamValues (encodeStream (forwardList md s.acc s.streamInput)) (s.raise .dstFull)
    (s.commitEncoded (forwardList md s.acc s.streamInput) (encodeStream (forwardList md s.acc s.streamInput))
      (forwardAcc md s.acc s.streamInput)).succeed

/-- `ENCODE` (R172, R158, R199). -/
def execEncode (s : State) : Result :=
  if isOdd s.wnib then .next (s.raise .oddCursor)
  else if s.valCount.toNat > Config.maxCount then .next (s.raise .countOverflow)
  else
    match s.sinkMode with
    | none => .next (s.raise .badMode)
    | some md => s.using [.streamValues, .destination] (encodeUnder md s)

/-- Leave the last block read, if any, in the slot registers (R57). -/
def State.stageRead (s : State) (blocks : List BlockHeader) : State :=
  match blocks.getLast? with
  | some b => s.stage (decodeBlock s.mem s.srcBase.toNat b) b.mask b.n
  | none => s

/-- The commit phase of `DECODE` and the stream part of `HDEC`'s (R175, R214), for a stream or frame that starts at the
read cursor. The values are read before the first of them is pushed: the source slice and the elements written share no
byte, so no order of the accesses can be told from another (R83, log entry 7). -/
def State.commitDecoded (s : State) (md : SinkMode) (i : StreamInfo) : State :=
  { (s.stageRead i.blocks).pushAll md (streamValues s.mem s.srcBase.toNat i) with
    rnib := cursorAt i.stop
    nvals := BitVec.ofNat 64 i.deliver
    nbytes := BitVec.ofNat 64 (i.stop - byteOffset s.rnib) }

/-- `DECODE` after its register tests, under sink variant `md` (R175). -/
def decodeUnder (md : SinkMode) (s : State) : Result :=
  match streamCheck s.mem s.srcBase.toNat s.srcLen.toNat (byteOffset s.rnib) s.limit.toNat with
  | .error c => .next (s.raise c)
  | .ok i =>
    if s.outLen.toNat + i.deliver > s.outCap.toNat then .next (s.raise .outFull)
    else if s.writesInto (s.outBase.toNat + 8 * s.outLen.toNat) (8 * i.deliver) .source then
      .refused (.slicesOverlap .output .source)
    else .next (s.commitDecoded md i).succeed

/-- `DECODE` (R175, R158, R199). -/
def execDecode (s : State) : Result :=
  if isOdd s.rnib then .next (s.raise .oddCursor)
  else
    match s.sinkMode with
    | none => .next (s.raise .badMode)
    | some md => s.using [.source, .output] (decodeUnder md s)

end Sys2Proof.Machine
end

