-- ==== Sys2Proof/Machine/Histogram.lean ====
section
/-! DEFINITION. The histogram frame commands (44_histogram.md): `HENC`, `HDEC`. -/

namespace Sys2Proof.Machine

/-- The register tests of `HENC`, in order (R210, R211): the first that fails. -/
def State.frameProblem (s : State) : Option Subcause :=
  if isOdd s.wnib then some .oddCursor
  else if s.hnb.toNat > Config.maxBuckets then some .hnbOverflow
  else if !greaterThanOne s.hmult then some .badMult
  else if !greaterThanZero s.hinit then some .badInit
  else formatProblem s.hfmt

/-- The input values of `HENC` in the order its format encodes them (R208, R211, D27). -/
def State.frameInput (s : State) : List Word := formatOrder s.hfmt (s.mem.readElems s.valBase.toNat s.hnb.toNat)

/-- The bytes of the frame `HENC` writes (R211). -/
def State.frameBytes (s : State) : List Byte :=
  encodeFrame s.hfmt s.hnb s.hinit s.hmult (forwardList .delta 0 s.frameInput)

/-- The commit phase of `HENC` (R211). -/
def State.commitFrame (s : State) : State :=
  { s.commitEncoded (forwardList .delta 0 s.frameInput) s.frameBytes (forwardAcc .delta 0 s.frameInput) with
    hstate := FrameState.done.code }

/-- `HENC` (R211, R205, R206): every error is found in state `H_VALIDATE`. -/
def execHenc (s : State) : Result :=
  match s.frameProblem with
  | some c => .next (s.raiseIn .validate c)
  | none =>
    s.using [.frameValues, .destination]
      (s.emit .frameValues s.frameBytes (s.raiseIn .validate .dstFull) s.commitFrame.succeed)

/-- The output buffer after a frame of format `f` with `k` values: reversed in place for code 2 (R208, R216). -/
def State.undoOrder (s : State) (f : Byte) (k : Nat) : State :=
  if f = 2 then { s with mem := reverseElems s.mem s.outBase.toNat k (k / 2) } else s

/-- The commit phase of `HDEC` (R214): sink reset, values pushed through the `DELTA` variant (R213), the inverse of the
format's order, the result registers. -/
def State.commitFrameRead (s : State) (i : FrameInfo) : State :=
  { (s.resetSink.commitDecoded .delta i.stream).undoOrder i.format i.stream.deliver with
    hfmt := i.format
    hnb := BitVec.ofNat 32 i.buckets
    hinit := i.init
    hmult := i.mult
    hstate := FrameState.done.code }

/-- `HDEC` after its register test (R212, R214). -/
def decodeFrame (s : State) : Result :=
  match frameCheck s.mem s.srcBase.toNat s.srcLen.toNat (byteOffset s.rnib) s.outCap.toNat with
  | .error (st, c) => .next (s.raiseIn st c)
  | .ok i =>
    if s.writesInto s.outBase.toNat (8 * i.stream.deliver) .source then .refused (.slicesOverlap .output .source)
    else .next (s.commitFrameRead i).succeed

/-- `HDEC` (R214, R158). -/
def execHdec (s : State) : Result :=
  if isOdd s.rnib then .next (s.raiseIn .fmt .oddCursor) else s.using [.source, .output] (decodeFrame s)

end Sys2Proof.Machine
end

