-- ==== Sys2Proof/Machine/System.lean ====
section
/-! DEFINITION. The system commands (45_system.md): `NOP`, and what an illegal command word does. -/

namespace Sys2Proof.Machine

/-- `NOP` (R232): nothing but a cleared `STATUS` and `EINFO`. -/
def execNop (s : State) : Result := .next s.succeed

/-- An illegal command word raises `Unsupported(ILLEGAL_CMD)` and has no other effect (R107, R231, R233). -/
def State.illegalCommand (s : State) : State := s.raise .illegalCmd

end Sys2Proof.Machine
end

