-- ==== Sys2Proof/Syntax.lean ====
section
/-! DEFINITION. The commands of the NBC: one constructor per row of spec/opcode_table.json (30_encoding.md R105), with the
operand fields of its format (R101 to R104). -/

namespace Sys2Proof

/-- A command (R105). -/
inductive Instr where
  /-- `NOP` (R232). -/
  | nop
  /-- `BITW rd, rs` (R132). -/
  | bitw (rd rs : SlotIx)
  /-- `ZZENC rd, rs` (R134). -/
  | zzenc (rd rs : SlotIx)
  /-- `ZZDEC rd, rs` (R135). -/
  | zzdec (rd rs : SlotIx)
  /-- `RDNIB rd, n` (R137). -/
  | rdnib (rd : SlotIx) (n : NibCount)
  /-- `WRNIB rs, n` (R138). -/
  | wrnib (rs : SlotIx) (n : NibCount)
  /-- `SCAN` (R153). -/
  | scan
  /-- `PACK` (R155). -/
  | pack
  /-- `UNPACK` (R157). -/
  | unpack
  /-- `SRESET` (R195). -/
  | sreset
  /-- `PUSH rs` (R196). -/
  | push (rs : SlotIx)
  /-- `ENCODE` (R172). -/
  | encode
  /-- `DECODE` (R175). -/
  | decode
  /-- `HENC` (R211). -/
  | henc
  /-- `HDEC` (R214). -/
  | hdec
  deriving DecidableEq, Repr

end Sys2Proof
end

