-- ==== Sys2Proof/Machine/Dispatch.lean ====
section
/-! DEFINITION. The meaning of every command: one arm per row of spec/opcode_table.json. -/

namespace Sys2Proof.Machine

def exec (i : Instr) (s : State) : Host.Outcome State Fault Refusal :=
  match i with
  | .nop => Sys2Proof.Machine.execNop s
  | .bitw rd rs => Sys2Proof.Machine.execBitw rd rs s
  | .zzenc rd rs => Sys2Proof.Machine.execZzenc rd rs s
  | .zzdec rd rs => Sys2Proof.Machine.execZzdec rd rs s
  | .rdnib rd n => Sys2Proof.Machine.execRdnib rd n s
  | .wrnib rs n => Sys2Proof.Machine.execWrnib rs n s
  | .scan => Sys2Proof.Machine.execScan s
  | .pack => Sys2Proof.Machine.execPack s
  | .unpack => Sys2Proof.Machine.execUnpack s
  | .sreset => Sys2Proof.Machine.execSreset s
  | .push rs => Sys2Proof.Machine.execPush rs s
  | .encode => Sys2Proof.Machine.execEncode s
  | .decode => Sys2Proof.Machine.execDecode s
  | .henc => Sys2Proof.Machine.execHenc s
  | .hdec => Sys2Proof.Machine.execHdec s

end Sys2Proof.Machine
end

