-- ==== Sys2Proof/WellFormed.lean ====
section
/-! DEFINITION. Which operand values a command word can carry (30_encoding.md R104, R107): register fields are 3 bits
wide and every value is legal; an `n` field is 5 bits wide and only 0..16 is legal. -/

namespace Sys2Proof

/-- An `n` field is legal when it is at most 16 (R104). -/
def NibCount.legal (n : NibCount) : Bool := n.toNat ≤ Config.maxNibbles

/-- A command that some legal command word stands for (R107). -/
def Instr.wellFormed : Instr → Bool
  | .nop | .scan | .pack | .unpack | .sreset | .encode | .decode | .henc | .hdec => true
  | .bitw _ _ | .zzenc _ _ | .zzdec _ _ | .push _ => true
  | .rdnib _ n => NibCount.legal n
  | .wrnib _ n => NibCount.legal n

end Sys2Proof
end

