-- ==== Sys2Proof/Decode.lean ====
section
/-! DEFINITION. The command decoder and encoder (30_encoding.md R100 to R107). The decoder is total on 32-bit words and
names why a word is illegal; the machine reports every illegal word as `Unsupported(ILLEGAL_CMD)` (R107, R233), so the
reason is for the reader only. -/

namespace Sys2Proof

/-- Why a command word is illegal (R107). -/
inductive IllegalWord where
  /-- Its `op` is not in the opcode map. -/
  | unassignedOpcode (op : Byte)
  /-- A bit that its format requires to be 0 is 1. -/
  | nonzeroField
  /-- Its format has an `n` field and `n > 16`. -/
  | widthAbove16
  deriving DecidableEq, Repr

/-- Bits 7:0 (R100). -/
def CommandWord.op (w : CommandWord) : Byte := w.extractLsb' 0 8

/-- Bits 10:8 (R100). -/
def CommandWord.rd (w : CommandWord) : SlotIx := w.extractLsb' 8 3

/-- Bits 13:11 (R100). -/
def CommandWord.rs (w : CommandWord) : SlotIx := w.extractLsb' 11 3

/-- Bits 18:14 (R100). -/
def CommandWord.n (w : CommandWord) : NibCount := w.extractLsb' 14 5

/-- Bits 31:19, which every format requires to be 0 (R100). -/
def CommandWord.zero (w : CommandWord) : BitVec 13 := w.extractLsb' 19 13

/-- Accept `i` when the fields its format does not use are 0 and its `n` field, if any, is legal (R107). -/
def acceptWhen (unusedAreZero nLegal : Bool) (i : Instr) : Except IllegalWord Instr :=
  if unusedAreZero then if nLegal then .ok i else .error .widthAbove16 else .error .nonzeroField

/-- Format Z: `op` only (R101). -/
def decodeZ (w : CommandWord) (i : Instr) : Except IllegalWord Instr :=
  acceptWhen (CommandWord.rd w == 0 && CommandWord.rs w == 0 && CommandWord.n w == 0 && CommandWord.zero w == 0) true i

/-- Format RR: `rd`, `rs` (R102). -/
def decodeRR (w : CommandWord) (mk : SlotIx → SlotIx → Instr) : Except IllegalWord Instr :=
  acceptWhen (CommandWord.n w == 0 && CommandWord.zero w == 0) true (mk (CommandWord.rd w) (CommandWord.rs w))

/-- Format RS: `rs` only (R103). -/
def decodeRS (w : CommandWord) (mk : SlotIx → Instr) : Except IllegalWord Instr :=
  acceptWhen (CommandWord.rd w == 0 && CommandWord.n w == 0 && CommandWord.zero w == 0) true (mk (CommandWord.rs w))

/-- Format DN: `rd`, `n` (R104). -/
def decodeDN (w : CommandWord) (mk : SlotIx → NibCount → Instr) : Except IllegalWord Instr :=
  acceptWhen (CommandWord.rs w == 0 && CommandWord.zero w == 0) (NibCount.legal (CommandWord.n w))
    (mk (CommandWord.rd w) (CommandWord.n w))

/-- Format SN: `rs`, `n` (R104). -/
def decodeSN (w : CommandWord) (mk : SlotIx → NibCount → Instr) : Except IllegalWord Instr :=
  acceptWhen (CommandWord.rd w == 0 && CommandWord.zero w == 0) (NibCount.legal (CommandWord.n w))
    (mk (CommandWord.rs w) (CommandWord.n w))

/-- The command a word stands for, by the opcode map (R105), or why it is illegal (R107). -/
def decode (w : CommandWord) : Except IllegalWord Instr :=
  match (CommandWord.op w).toNat with
  | 0x00 => decodeZ w .nop
  | 0x01 => decodeRR w .bitw
  | 0x02 => decodeRR w .zzenc
  | 0x03 => decodeRR w .zzdec
  | 0x04 => decodeDN w .rdnib
  | 0x05 => decodeSN w .wrnib
  | 0x08 => decodeZ w .scan
  | 0x09 => decodeZ w .pack
  | 0x0A => decodeZ w .unpack
  | 0x10 => decodeZ w .sreset
  | 0x11 => decodeRS w .push
  | 0x12 => decodeZ w .encode
  | 0x13 => decodeZ w .decode
  | 0x18 => decodeZ w .henc
  | 0x19 => decodeZ w .hdec
  | _ => .error (.unassignedOpcode (CommandWord.op w))

/-- A command word from its fields: bits 31:19 zero, then `n`, `rs`, `rd`, `op` (R100). -/
def assemble (op : Byte) (rd rs : SlotIx) (n : NibCount) : CommandWord :=
  (0 : BitVec 13) ++ n ++ rs ++ rd ++ op

/-- The word of a command (R101 to R105); a field its format does not use is 0. -/
def encode : Instr → CommandWord
  | .nop => assemble 0x00 0 0 0
  | .bitw rd rs => assemble 0x01 rd rs 0
  | .zzenc rd rs => assemble 0x02 rd rs 0
  | .zzdec rd rs => assemble 0x03 rd rs 0
  | .rdnib rd n => assemble 0x04 rd 0 n
  | .wrnib rs n => assemble 0x05 0 rs n
  | .scan => assemble 0x08 0 0 0
  | .pack => assemble 0x09 0 0 0
  | .unpack => assemble 0x0A 0 0 0
  | .sreset => assemble 0x10 0 0 0
  | .push rs => assemble 0x11 0 rs 0
  | .encode => assemble 0x12 0 0 0
  | .decode => assemble 0x13 0 0 0
  | .henc => assemble 0x18 0 0 0
  | .hdec => assemble 0x19 0 0 0

/-- The instruction the decoder reads from the low `nbits` bits of `w`, the bits above them 0 (the form the host asks
for; a command is one 32-bit word, R100). -/
def decodeTableWord (nbits w : Nat) : Option Instr :=
  (decode (BitVec.ofNat 32 (w % 2 ^ nbits))).toOption

end Sys2Proof
end

