-- ==== Sys2Proof/Machine/Port.lean ====
section
/-! DEFINITION. The host's side (10_state.md R22, R23, R51; 20_memory.md R70, R84; 70_reset_and_hazards.md R270, R271): the
register port, accesses to the shared memory, the reset input, and how a command word reaches the NBC. -/

namespace Sys2Proof.Machine

/-- A register by name (R23). -/
inductive Reg where
  | slot (r : SlotIx)
  | srcBase
  | srcLen
  | rnib
  | dstBase
  | dstCap
  | wnib
  | valBase
  | valCount
  | outBase
  | outCap
  | outLen
  | acc
  | limit
  | mode
  | status
  | einfo
  | nvals
  | nbytes
  | zm
  | nw
  | hfmt
  | hnb
  | hinit
  | hmult
  | hstate
  | cap
  | cmd
  deriving DecidableEq, Repr

/-- The named registers in the order of their numbers, from number 8 (R23). -/
def namedRegs : List Reg :=
  [.srcBase, .srcLen, .rnib, .dstBase, .dstCap, .wnib, .valBase, .valCount, .outBase, .outCap, .outLen, .acc, .limit,
    .mode, .status, .einfo, .nvals, .nbytes, .zm, .nw, .hfmt, .hnb, .hinit, .hmult, .hstate, .cap, .cmd]

/-- The register with this number; none for 35..63 (R22, R23). -/
def Reg.ofNumber (r : BitVec 6) : Option Reg :=
  if r.toNat < 8 then some (.slot (r.extractLsb' 0 3)) else namedRegs[r.toNat - 8]?

/-- A register, zero-extended to 64 bits (R22). -/
def State.readReg (s : State) : Reg → Word
  | .slot r => s.slot r
  | .srcBase => s.srcBase
  | .srcLen => s.srcLen
  | .rnib => s.rnib
  | .dstBase => s.dstBase
  | .dstCap => s.dstCap
  | .wnib => s.wnib
  | .valBase => s.valBase
  | .valCount => s.valCount
  | .outBase => s.outBase
  | .outCap => s.outCap
  | .outLen => s.outLen
  | .acc => s.acc
  | .limit => s.limit
  | .mode => s.mode.setWidth 64
  | .status => s.status.setWidth 64
  | .einfo => s.einfo.setWidth 64
  | .nvals => s.nvals
  | .nbytes => s.nbytes
  | .zm => s.zm.setWidth 64
  | .nw => s.nw.setWidth 64
  | .hfmt => s.hfmt.setWidth 64
  | .hnb => s.hnb.setWidth 64
  | .hinit => s.hinit
  | .hmult => s.hmult
  | .hstate => s.hstate.setWidth 64
  | .cap => s.cap.setWidth 64
  | .cmd => s.cmd.setWidth 64

/-- Store the low bits of `d` that a register has; a read-only register ignores the write (R22, R23). -/
def State.writeReg (s : State) (d : Word) : Reg → State
  | .slot r => s.setSlot r d
  | .srcBase => { s with srcBase := d }
  | .srcLen => { s with srcLen := d }
  | .rnib => { s with rnib := d }
  | .dstBase => { s with dstBase := d }
  | .dstCap => { s with dstCap := d }
  | .wnib => { s with wnib := d }
  | .valBase => { s with valBase := d }
  | .valCount => { s with valCount := d }
  | .outBase => { s with outBase := d }
  | .outCap => { s with outCap := d }
  | .acc => { s with acc := d }
  | .limit => { s with limit := d }
  | .mode => { s with mode := d.setWidth 2 }
  | .hfmt => { s with hfmt := d.setWidth 8 }
  | .hnb => { s with hnb := d.setWidth 32 }
  | .hinit => { s with hinit := d }
  | .hmult => { s with hmult := d }
  | .cmd => { s with cmd := d.setWidth 32 }
  | .outLen | .status | .einfo | .nvals | .nbytes | .zm | .nw | .hstate | .cap => s

/-- A read through the register port: an undefined number reads 0 (R22). -/
def State.portRead (s : State) (r : BitVec 6) : Word :=
  match Reg.ofNumber r with
  | some g => s.readReg g
  | none => 0

/-- A write through the register port, less the execution that a write to `CMD` starts: an undefined number ignores it
(R22). -/
def State.portWrite (s : State) (r : BitVec 6) (d : Word) : State :=
  match Reg.ofNumber r with
  | some g => s.writeReg d g
  | none => s

/-- Hardware reset between commands (R270, R272): every register takes its reset value; memory keeps its bytes (R271);
the parameter, the host's later actions and what the host has read are no registers of the NBC and stay. -/
def State.hardwareReset (s : State) : State :=
  { State.reset with hasXor := s.hasXor, mem := s.mem, host := s.host, hostData := s.hostData }

/-- Perform one action of the host, less the execution that a write to `CMD` starts. -/
def State.perform (s : State) : HostAction → State
  | .readReg r => { s with hostData := s.portRead r }
  | .writeReg r d => s.portWrite r d
  | .readMem a => { s with hostData := (s.mem.read a.toNat).setWidth 64 }
  | .writeMem a b => { s with mem := s.mem.write a.toNat b }
  | .reset => s.hardwareReset

/-- The command an action starts: a write to register 34 (`CMD`) executes the low 32 bits of its data (R51, R231). -/
def HostAction.command : HostAction → Option CommandWord
  | .writeReg r d => if Reg.ofNumber r = some .cmd then some (d.setWidth 32) else none
  | .readReg _ | .readMem _ | .writeMem _ _ | .reset => none

/-- The state after the host's next action, less the execution of a command, and the command it starts, if any. With
nothing pending the NBC is idle and keeps everything (R255, log entry 1). -/
def State.nextAction (s : State) : State × Option CommandWord :=
  match s.host with
  | [] => (s, none)
  | a :: rest => (State.perform { s with host := rest } a, a.command)

/-- `s` with the host about to write the command word in the low `nbits` bits of `w` to `CMD`. -/
def State.presentCommand (s : State) (nbits w : Nat) : State :=
  { s with host := .writeReg 34 (BitVec.ofNat 64 (w % 2 ^ nbits % 2 ^ 32)) :: s.host }

end Sys2Proof.Machine
end

