-- ==== Sys2Proof/Machine/Step.lean ====
section
/-! DEFINITION. One step of the machine: one action of the host (00_scope.md R7); a write to `CMD` executes the command
word to completion (45_system.md R231). -/

namespace Sys2Proof.Machine

/-- Execute a command word that `CMD` has recorded (R231): the check and commit phases of the command it stands for, or
the error of an illegal word. -/
def State.execute (s : State) (w : CommandWord) : Host.Outcome State Fault Refusal :=
  match decode w with
  | .ok i => exec i s
  | .error _ => .next s.illegalCommand

/-- One step (R7, R231). -/
def step (s : State) : Host.Outcome State Fault Refusal :=
  match s.nextAction with
  | (t, none) => .next t
  | (t, some w) => t.execute w

/-- `s` with the instruction in the low `nbits` bits of `w` where the next step fetches it: the NBC fetches nothing (R30,
R87), so the host's next action is to write that word to `CMD`. -/
def State.withFetchWord (s : State) (nbits w : Nat) : State := s.presentCommand nbits w

end Sys2Proof.Machine
end

