-- ==== Sys2Proof/Safety.lean ====
section
/-! DEFINITION. The terms the claims are stated in: the preconditions of 20_memory.md R75, the shapes of a command's
ending, what a command may touch, and the invariant of the machine. -/

namespace Sys2Proof.Safety

open Sys2Proof.Machine

/-! ### Preconditions (R75, R277) -/

/-- R75 (a), (b) for the source slice. -/
abbrev SourceOk (s : State) : Prop :=
  s.srcBase.toNat + s.srcLen.toNat ≤ 2 ^ 64 ∧ s.srcLen.toNat ≤ 2 ^ 63 - 1

/-- R75 (a), (b) for the destination slice. -/
abbrev DestinationOk (s : State) : Prop :=
  s.dstBase.toNat + s.dstCap.toNat ≤ 2 ^ 64 ∧ s.dstCap.toNat ≤ 2 ^ 63 - 1

/-- R75 (a) for a value array of `count` elements (U1). -/
abbrev ValuesOk (s : State) (count : Nat) : Prop := s.valBase.toNat + 8 * count ≤ 2 ^ 64

/-- R75 (a) for the output buffer (U1). -/
abbrev OutputOk (s : State) : Prop := s.outBase.toNat + 8 * s.outCap.toNat ≤ 2 ^ 64

/-- Two runs of bytes share none. -/
abbrev Apart (a lenA b lenB : Nat) : Prop := lenA = 0 ∨ lenB = 0 ∨ a + lenA ≤ b ∨ b + lenB ≤ a

/-- The slices a command uses (R71). -/
def slicesUsed : Instr → List Slice
  | .nop | .bitw _ _ | .zzenc _ _ | .zzdec _ _ | .scan | .sreset => []
  | .rdnib _ _ | .unpack => [.source]
  | .wrnib _ _ | .pack => [.destination]
  | .push _ => [.output]
  | .encode => [.streamValues, .destination]
  | .henc => [.frameValues, .destination]
  | .decode | .hdec => [.source, .output]

/-- R75 (a), (b) for a slice by name. -/
abbrev SliceOk (s : State) : Slice → Prop
  | .source => SourceOk s
  | .destination => DestinationOk s
  | .streamValues => ValuesOk s s.valCount.toNat
  | .frameValues => ValuesOk s s.hnb.toNat
  | .output => OutputOk s

/-- The slices a command reads and the ones it writes share no byte (R277, which implies R75 (c)). -/
abbrev SlicesApart (s : State) : Instr → Prop
  | .encode => Apart s.dstBase.toNat s.dstCap.toNat s.valBase.toNat (8 * s.valCount.toNat)
  | .henc => Apart s.dstBase.toNat s.dstCap.toNat s.valBase.toNat (8 * s.hnb.toNat)
  | .decode | .hdec => Apart s.outBase.toNat (8 * s.outCap.toNat) s.srcBase.toNat s.srcLen.toNat
  | _ => True

/-- `MODE` selects no implemented sink variant (R38, R199). -/
abbrev BadMode (s : State) : Prop := s.mode = 3 ∨ (s.mode = 2 ∧ s.hasXor = false)

/-- The command passes the tests the rules make of registers alone, before it uses any slice (R246; log entry 5). -/
abbrev RegisterTestsPass (s : State) : Instr → Prop
  | .nop | .bitw _ _ | .zzenc _ _ | .zzdec _ _ | .scan | .sreset => True
  | .rdnib _ n | .wrnib _ n => n ≠ 0
  | .pack => s.wnib.toNat % 2 = 0
  | .unpack | .hdec => s.rnib.toNat % 2 = 0
  | .push _ => ¬BadMode s
  | .encode => s.wnib.toNat % 2 = 0 ∧ s.valCount.toNat ≤ 2 ^ 32 - 1 ∧ ¬BadMode s
  | .decode => s.rnib.toNat % 2 = 0 ∧ ¬BadMode s
  | .henc =>
    s.wnib.toNat % 2 = 0 ∧ s.hnb.toNat ≤ 65535 ∧
      (0x3FF0000000000000 < s.hmult.toNat ∧ s.hmult.toNat ≤ 0x7FF0000000000000) ∧
      (0 < s.hinit.toNat ∧ s.hinit.toNat ≤ 0x7FF0000000000000) ∧ (s.hfmt = 1 ∨ s.hfmt = 2)

/-! ### How a command ends -/

/-- The command raises the error with these codes and changes nothing else (R244, R245). -/
abbrev Raises (i : Instr) (s : State) (kind : BitVec 3) (sub : Byte) : Prop :=
  exec i s = .next { s with status := kind, einfo := sub }

/-- The frame command raises the error with these codes in the frame state with code `st` (R244, R245). -/
abbrev RaisesIn (i : Instr) (s : State) (kind : BitVec 3) (sub : Byte) (st : BitVec 4) : Prop :=
  exec i s = .next { s with status := kind, einfo := sub, hstate := st }

/-- The command completes without error in a state that meets `post` (R231). -/
abbrev Completes (i : Instr) (s : State) (post : State → Prop) : Prop :=
  ∃ t, exec i s = .next t ∧ t.status = 0 ∧ t.einfo = 0 ∧ post t

/-- `m'` reads as `m` outside the `len` bytes at `a`. -/
abbrev SameOutside (m m' : Memory) (a len : Nat) : Prop := ∀ b, b < a ∨ a + len ≤ b → m'.read b = m.read b

/-- `m'` holds the bytes `l` at `a`. -/
abbrev Holds (m : Memory) (a : Nat) (l : List Byte) : Prop := ∀ i, i < l.length → m.read (a + i) = l.getD i 0

/-- `MODE` holds the number of a variant (R38). -/
abbrev ModeIs (s : State) : SinkMode → Prop
  | .raw => s.mode = 0
  | .delta => s.mode = 1
  | .xor => s.mode = 2

/-! ### Values the rules describe -/

/-- The number the `n` bytes at `a` stand for: byte `i` has weight `256^i` (R72). -/
def leValue (m : Memory) (a n : Nat) : Nat := ((List.range n).map fun i => (m.read (a + i)).toNat * 256 ^ i).sum

/-- The `n` bytes of `v` in address order: byte `i` is `v div 256^i mod 256` (R72). -/
def leByteList (v n : Nat) : List Byte := (List.range n).map fun i => BitVec.ofNat 8 (v / 256 ^ i)

/-- `w` is the least multiple of 4 such that `v` fits in `w` bits (R131). -/
abbrev IsBitWidth (v : Word) (w : Nat) : Prop :=
  w % 4 = 0 ∧ w ≤ 64 ∧ v.toNat < 2 ^ w ∧ ∀ w', w' % 4 = 0 → v.toNat < 2 ^ w' → w ≤ w'

/-- `n` is the least number of nibbles that covers all eight slots (R152). -/
abbrev IsBlockNibbles (x : Slots) (n : Nat) : Prop :=
  n ≤ 16 ∧ (∀ j : Fin 8, x[j].toNat < 16 ^ n) ∧ ∀ k, (∀ j : Fin 8, x[j].toNat < 16 ^ k) → n ≤ k

/-- Bit `j` of `m` is 1 exactly when slot `j` is zero (R151). -/
abbrev IsZeroMask (x : Slots) (m : Byte) : Prop := ∀ j : Fin 8, m.getLsbD j = decide (x[j] = 0)

/-- How many slots below `j` a block with mask `m` stores (R115, R159). -/
def storedBelow (m : Byte) (j : Nat) : Nat := ((List.range j).filter fun i => !m.getLsbD i).length

/-- The accumulator after the sink has received `raw` (R192). -/
def accAfter (md : SinkMode) (a : Word) (raw : List Word) : Word :=
  match md with
  | .raw => a
  | .delta => raw.foldl (· + ·) a
  | .xor => raw.foldl (· ^^^ ·) a

/-- Element `k` of what the sink appends on receiving `raw` (R192). -/
def sinkOutput (md : SinkMode) (a : Word) (raw : List Word) (k : Nat) : Word :=
  match md with
  | .raw => raw.getD k 0
  | .delta | .xor => accAfter md a (raw.take (k + 1))

/-- The eight slot values of group `g` of a list, zeros beyond its end (R170). -/
def groupAt (t : List Word) (g : Nat) : Slots := Vector.ofFn fun j => t.getD (8 * g + j.val) 0

/-- `PACK`'s commit phase as R155 writes it: the two header bytes, one `NibWrite` per stored slot, the pad nibble. -/
def packByNibbles (m : Memory) (base p n : Nat) (mask : Byte) (x : Slots) : Memory :=
  let m0 := (m.write (base + p) (BitVec.ofNat 8 n)).write (base + p + 1) mask
  let go := (List.finRange 8).foldl (fun (acc : Memory × Nat) (j : Fin 8) =>
    if mask.getLsbD j then acc else (acc.1.nibWrite base acc.2 n x[j], acc.2 + n)) (m0, 2 * (p + 2))
  if go.2 % 2 = 1 then go.1.nibWrite base go.2 1 0 else go.1

/-- The value of a finite, non-negative binary64 pattern: exponent field 0 is subnormal, else the fraction has a leading
1 (R209, 93_implementation_defined.md G2). -/
def binary64Value (b : Word) : ℚ :=
  let e : Nat := (b.toNat / 2 ^ 52) % 2 ^ 11
  let f : Nat := b.toNat % 2 ^ 52
  if e = 0 then (f : ℚ) / 2 ^ 1074 else ((2 ^ 52 + f : ℕ) : ℚ) * 2 ^ e / 2 ^ 1075

/-- The pattern of a finite number with sign bit 0. -/
abbrev IsFiniteNonneg (b : Word) : Prop := b.msb = false ∧ (b.toNat / 2 ^ 52) % 2 ^ 11 ≠ 2047

/-! ### The opcode table and the register map -/

/-- The rows of spec/opcode_table.json: mask, match, and whether the row has an `n` field (R105, R107). -/
def commandRows : List (CommandWord × CommandWord × Bool) :=
  [(0xFFFFFFFF, 0x00, false), (0xFFFFC0FF, 0x01, false), (0xFFFFC0FF, 0x02, false), (0xFFFFC0FF, 0x03, false),
    (0xFFF838FF, 0x04, true), (0xFFF807FF, 0x05, true), (0xFFFFFFFF, 0x08, false), (0xFFFFFFFF, 0x09, false),
    (0xFFFFFFFF, 0x0A, false), (0xFFFFFFFF, 0x10, false), (0xFFFFC7FF, 0x11, false), (0xFFFFFFFF, 0x12, false),
    (0xFFFFFFFF, 0x13, false), (0xFFFFFFFF, 0x18, false), (0xFFFFFFFF, 0x19, false)]

/-- The width of a register by number; 0 for an undefined number (R22, R23). -/
def portWidth (r : Nat) : Nat :=
  if r = 21 then 2 else if r = 22 then 3 else if r = 23 then 8 else if r = 26 then 8 else if r = 27 then 5
  else if r = 28 then 8 else if r = 29 then 32 else if r = 32 then 4 else if r = 33 then 16 else if r = 34 then 32
  else if r < 34 then 64 else 0

/-- The registers the host may write (R23). -/
def portWritable (r : Nat) : Bool :=
  r ≤ 17 || (19 ≤ r && r ≤ 21) || (28 ≤ r && r ≤ 31) || r = 34

/-- The register with each number from 8 to 34, zero-extended, in the order of the register map (R23). -/
def registerMap (s : State) : List Word :=
  [s.srcBase, s.srcLen, s.rnib, s.dstBase, s.dstCap, s.wnib, s.valBase, s.valCount, s.outBase, s.outCap, s.outLen, s.acc,
    s.limit, s.mode.zeroExtend 64, s.status.zeroExtend 64, s.einfo.zeroExtend 64, s.nvals, s.nbytes,
    s.zm.zeroExtend 64, s.nw.zeroExtend 64, s.hfmt.zeroExtend 64, s.hnb.zeroExtend 64, s.hinit, s.hmult,
    s.hstate.zeroExtend 64, if s.hasXor then 0x0741 else 0x0740, s.cmd.zeroExtend 64]

/-- The sub-causes with the number of their kind and their own number (R241, R242). -/
def errorTable : List (Subcause × BitVec 3 × Byte) :=
  [(.oddCursor, 1, 0x10), (.countOverflow, 1, 0x11), (.hnbOverflow, 1, 0x12), (.badMult, 1, 0x13), (.badInit, 1, 0x14),
    (.truncNib, 2, 0x20), (.truncCount, 2, 0x21), (.truncBlockHdr, 2, 0x22), (.truncPayload, 2, 0x23),
    (.truncFrameHdr, 2, 0x24), (.zeroCountTrailing, 3, 0x30), (.nonzeroCountEmpty, 3, 0x31),
    (.bucketCountMismatch, 3, 0x32), (.illegalCmd, 4, 0x40), (.badWidth, 4, 0x41), (.badMode, 4, 0x42),
    (.fmtUnimplemented, 4, 0x43), (.fmtUnknown, 4, 0x44), (.dstFull, 5, 0x50), (.outFull, 5, 0x51)]

/-- The error kinds with their numbers (R241). -/
def kindTable : List (ErrorKind × BitVec 3) :=
  [(.ok, 0), (.validationError, 1), (.truncatedInput, 2), (.inconsistentLength, 3), (.unsupported, 4), (.noSpace, 5)]

/-- The frame states with their numbers (R205). -/
def frameStateTable : List (FrameState × BitVec 4) :=
  [(.idle, 0), (.validate, 8), (.fmt, 1), (.nb, 2), (.init, 3), (.mult, 4), (.stream, 5), (.xform, 6), (.done, 7)]

/-- The reset value of a register by number (R23, R55, R272). -/
def resetValue (hasXor : Bool) (r : Nat) : Word :=
  if r = 20 then BitVec.allOnes 64 else if r = 33 then (if hasXor then 0x0741 else 0x0740) else 0

/-- The kind and sub-cause each command reports right after reset (R273). -/
def afterReset : Instr → BitVec 3 × Byte
  | .nop | .bitw _ _ | .zzenc _ _ | .zzdec _ _ | .scan | .sreset => (0, 0)
  | .rdnib _ n => if n = 0 then (0, 0) else (2, 0x20)
  | .wrnib _ n => if n = 0 then (0, 0) else (5, 0x50)
  | .pack | .encode => (5, 0x50)
  | .unpack => (2, 0x22)
  | .push _ => (5, 0x51)
  | .decode => (2, 0x21)
  | .hdec => (2, 0x24)
  | .henc => (1, 0x13)

/-! ### What a command may touch (R56, R71) -/

/-- The registers a command may change beside `STATUS` and `EINFO` (R56, R57). -/
def mayWrite : Instr → Reg → Bool
  | .nop, _ => false
  | .bitw rd _, g | .zzenc rd _, g | .zzdec rd _, g => g = .slot rd
  | .rdnib rd _, g => g = .slot rd || g = .rnib
  | .wrnib _ _, g => g = .wnib
  | .scan, g => g = .zm || g = .nw
  | .pack, g => g = .wnib || g = .zm || g = .nw
  | .unpack, .slot _ => true
  | .unpack, g => g = .rnib || g = .zm || g = .nw
  | .sreset, g | .push _, g => g = .outLen || g = .acc
  | .encode, .slot _ | .decode, .slot _ | .henc, .slot _ | .hdec, .slot _ => true
  | .encode, g => g = .wnib || g = .acc || g = .zm || g = .nw || g = .nvals || g = .nbytes
  | .decode, g =>
    g = .outLen || g = .acc || g = .rnib || g = .zm || g = .nw || g = .nvals || g = .nbytes
  | .henc, g => g = .wnib || g = .acc || g = .zm || g = .nw || g = .nvals || g = .nbytes || g = .hstate
  | .hdec, g =>
    g = .outLen || g = .acc || g = .rnib || g = .hfmt || g = .hnb || g = .hinit || g = .hmult || g = .zm || g = .nw ||
      g = .nvals || g = .nbytes || g = .hstate

/-- A byte some command may write: it lies in the slice the row of R71 names, at or above the cursor (R281) for the
destination, at or above element `OUT_LEN` for `PUSH` and `DECODE` (R191). -/
def mayStore (s : State) (a : Nat) : Instr → Prop
  | .wrnib _ _ | .pack | .encode | .henc =>
    s.dstBase.toNat + s.wnib.toNat / 2 ≤ a ∧ a < s.dstBase.toNat + s.dstCap.toNat
  | .push _ | .decode => s.outBase.toNat + 8 * s.outLen.toNat ≤ a ∧ a < s.outBase.toNat + 8 * s.outCap.toNat
  | .hdec => s.outBase.toNat ≤ a ∧ a < s.outBase.toNat + 8 * s.outCap.toNat
  | _ => False

/-- `s` with other values in the registers no command reads (R52). -/
def withOutputs (s o : State) : State :=
  { s with
    status := o.status, einfo := o.einfo, zm := o.zm, nw := o.nw, nvals := o.nvals, nbytes := o.nbytes
    hstate := o.hstate }

/-! ### The invariant -/

/-- `STATUS` and `EINFO` show success or one listed error with its own kind (R39, R40, R242). -/
def LegalReport (s : State) : Prop :=
  (s.status = 0 ∧ s.einfo = 0) ∨ ∃ c : Subcause, s.status = c.kind.code ∧ s.einfo = c.code

/-- What holds at reset and after every step: memory is canonical, `NW` is at most 16 (R44), `HSTATE` is one of the nine
states (R50), `STATUS` and `EINFO` are legal (R39, R242). -/
structure Inv (s : State) : Prop where
  memory : s.mem.wf
  width : s.nw.toNat ≤ 16
  frameState : s.hstate.toNat ≤ 8
  report : LegalReport s

/-- Memory lists addresses of the address space only (R70). -/
abbrev InSpace (m : Memory) : Prop := ∀ c ∈ m, c.1 < 2 ^ 64

end Sys2Proof.Safety
end

