-- ==== Sys2Proof/Certificates/Slice0/Obligations.lean ====
section
/-! DEFINITION. The statements for the provers, in the order of the spec's files. `∀ s` ranges over every state, hence
over every content of memory and both values of `HAS_XOR` (log entries 3, 4); a premise `s.mem.wf` is the invariant of
`StepKeepsInvariant`. The slice premises are those of 20_memory.md R75. -/

open Sys2Proof Sys2Proof.Machine Sys2Proof.Safety

/-! ### Encoding (30_encoding.md part A) -/

/-- Decoding the word of a well-formed command gives the command, whatever its operands (R100 to R107). -/
def Obligations.DecodeInvertsEncode : Prop :=
  ∀ i : Instr, i.wellFormed = true → decode (encode i) = .ok i

/-- A legal word has one meaning, and is that command's encoding: no bit of it is dropped (R107). -/
def Obligations.LegalWordIsItsEncoding : Prop :=
  ∀ (w : CommandWord) (i : Instr), decode w = .ok i → i.wellFormed = true ∧ encode i = w

/-- The legal words are exactly those that match a row of the opcode table with `n <= 16` where the row has an `n` field
(R107). -/
def Obligations.LegalWordsAreTheTableRows : Prop :=
  ∀ w : CommandWord,
    (∃ i, decode w = .ok i) ↔
      ∃ row ∈ commandRows, w &&& row.1 = row.2.1 ∧ (row.2.2 = true → (w.extractLsb' 14 5).toNat ≤ 16)

/-- The words R110 writes out decode as it says. -/
def Obligations.SpecExampleWordsDecode : Prop :=
  decode 0x00000000 = .ok .nop ∧ decode 0x00001101 = .ok (.bitw 1 2) ∧ decode 0x00014304 = .ok (.rdnib 3 5) ∧
    decode 0x00041005 = .ok (.wrnib 2 16) ∧ decode 0x00003811 = .ok (.push 7) ∧ decode 0x00000009 = .ok .pack ∧
    decode 0x00000019 = .ok .hdec ∧ (∃ e, decode 0x00000007 = .error e) ∧ (∃ e, decode 0x00000109 = .error e) ∧
    ∃ e, decode 0x00044004 = .error e

/-! ### One step (45_system.md, 10_state.md) -/

/-- A write to `CMD` records the low 32 bits of the data and runs the command they stand for, from the state with the
host's action consumed (R51, R231; the list of host actions is the model's, log entry 1). -/
def Obligations.CommandWriteRunsDecodedCommand : Prop :=
  ∀ (s : State) (d : Word) (rest : List HostAction) (i : Instr),
    s.host = .writeReg 34 d :: rest → decode (d.setWidth 32) = .ok i →
      step s = exec i { s with host := rest, cmd := d.setWidth 32 }

/-- An illegal word sets `STATUS = 4`, `EINFO = 0x40` and changes nothing else but `CMD` (R233; the list of host
actions is the model's, log entry 1). -/
def Obligations.IllegalWordIsReported : Prop :=
  ∀ (s : State) (d : Word) (rest : List HostAction) (e : IllegalWord),
    s.host = .writeReg 34 d :: rest → decode (d.setWidth 32) = .error e →
      step s = .next { s with host := rest, cmd := d.setWidth 32, status := 4, einfo := 0x40 }

/-- With no host action pending a step changes nothing (R255; that the host's actions are a list is the model's, log
entry 1). -/
def Obligations.IdleUnitKeepsEverything : Prop :=
  ∀ s : State, s.host = [] → step s = .next s

/-- A host write to a register other than `CMD` stores the low bits the register has; a read-only or undefined number
ignores it; every other register, memory and what the host has read stay (R22, R23; the list of host actions and the
field `hostData` are the model's, log entries 1 and 2). -/
def Obligations.RegisterPortWrite : Prop :=
  ∀ (s : State) (r : BitVec 6) (d : Word) (rest : List HostAction), s.host = .writeReg r d :: rest → r ≠ 34 →
    ∃ t, step s = .next t ∧ t.host = rest ∧ t.mem = s.mem ∧ t.hasXor = s.hasXor ∧ t.hostData = s.hostData ∧
      ∀ q : BitVec 6, t.portRead q =
        if q = r ∧ portWritable r.toNat = true then BitVec.ofNat 64 (d.toNat % 2 ^ portWidth r.toNat) else s.portRead q

/-- A host read returns the register with that number, zero-extended, 0 for an undefined number, and changes nothing else
(R22, R23). Numbers 0 to 7 are the slot registers, 8 to 34 those of the register map, 35 to 63 undefined. (The list of
host actions and the field the value is returned in are the model's, log entries 1 and 2.) -/
def Obligations.RegisterPortRead : Prop :=
  ∀ s : State,
    (∀ (r : BitVec 6) (rest : List HostAction), s.host = .readReg r :: rest →
      step s = .next { s with host := rest, hostData := s.portRead r }) ∧
    (∀ r : BitVec 6, s.portRead r =
      if h : r.toNat < 8 then s.x[r.toNat] else if r.toNat ≤ 34 then (registerMap s).getD (r.toNat - 8) 0 else 0) ∧
    ∀ r : BitVec 6, (s.portRead r).toNat < 2 ^ portWidth r.toNat

/-- The host's own accesses to memory: a read returns the byte, a write changes that byte and no other (R70, R84; the
list of host actions and the field the byte is returned in are the model's, log entries 1 and 2). -/
def Obligations.HostMemoryAccess : Prop :=
  ∀ (s : State) (a : Word) (b : Byte) (rest : List HostAction), s.mem.wf →
    (s.host = .readMem a :: rest →
      step s = .next { s with host := rest, hostData := (s.mem.read a.toNat).setWidth 64 }) ∧
    (s.host = .writeMem a b :: rest →
      ∃ t, step s = .next t ∧ t = { s with host := rest, mem := t.mem } ∧ t.mem.read a.toNat = b ∧
        SameOutside s.mem t.mem a.toNat 1)

/-- Right after reset every register reads the value of R272; numbers without a register read 0. -/
def Obligations.ResetRegisterValues : Prop :=
  ∀ r : BitVec 6, State.reset.portRead r = resetValue State.reset.hasXor r.toNat

/-- Hardware reset gives every register its reset value and leaves memory as it is (R271, R272; that the host's actions
are a list whose rest stays pending is the model's, log entries 1 and 9). -/
def Obligations.HardwareResetKeepsMemory : Prop :=
  ∀ (s : State) (rest : List HostAction), s.host = .reset :: rest →
    ∃ t, step s = .next t ∧ t.mem = s.mem ∧ t.host = rest ∧ t.hasXor = s.hasXor ∧
      ∀ r : BitVec 6, t.portRead r = resetValue s.hasXor r.toNat

/-- What each command reports right after reset; none touches memory or leaves a slot register nonzero (R273). -/
def Obligations.OutcomesRightAfterReset : Prop :=
  ∀ i : Instr, ∃ t, exec i State.reset = .next t ∧ (t.status, t.einfo) = afterReset i ∧ t.mem = State.reset.mem ∧
    t.x = State.reset.x

/-- `NOP` changes nothing but `STATUS` and `EINFO`, which it clears (R232). -/
def Obligations.NopClearsTheReport : Prop :=
  ∀ s : State, decode (assemble 0x00 0 0 0) = .ok .nop ∧ exec .nop s = .next { s with status := 0, einfo := 0 }

/-! ### ByteUtils (40_byteutils.md) -/

/-- `bit_width` is the least multiple of 4 that covers the value, and four times the nibbles up to its highest 1 bit
(R131). -/
def Obligations.BitWidthIsLeastMultipleOfFour : Prop :=
  ∀ v : Word, IsBitWidth v (bitWidth v) ∧
    bitWidth v = 4 * (((if v = 0 then 0 else Nat.log2 v.toNat + 1) + 3) / 4)

/-- `BITW` writes the bit width of `x[rs]` to `x[rd]` and nothing else (R132). -/
def Obligations.BitwWritesBitWidth : Prop :=
  ∀ (s : State) (rd rs : SlotIx), decode (assemble 0x01 rd rs 0) = .ok (.bitw rd rs) ∧
    Completes (.bitw rd rs) s fun t =>
      t = { s with x := t.x, status := 0, einfo := 0 } ∧ (∀ r, r ≠ rd → t.slot r = s.slot r) ∧
        IsBitWidth (s.slot rs) (t.slot rd).toNat

/-- The two zig-zag functions undo each other on every pattern (40_byteutils.md section 2; the spec marks the formula as
taken from general knowledge, 93_implementation_defined.md G1, log entry 12). -/
def Obligations.ZigzagFunctionsAreInverse : Prop :=
  ∀ v : Word, zigzagDecode (zigzagEncode v) = v ∧ zigzagEncode (zigzagDecode v) = v

/-- `ZZENC` writes `2s` for a signed operand `s >= 0` and `-2s - 1` for `s < 0`, and nothing else
(40_byteutils.md section 2; the formula is the spec's general knowledge, G1, log entry 12). -/
def Obligations.ZzencMapsSignedToUnsigned : Prop :=
  ∀ (s : State) (rd rs : SlotIx), decode (assemble 0x02 rd rs 0) = .ok (.zzenc rd rs) ∧
    Completes (.zzenc rd rs) s fun t =>
      t = { s with x := t.x, status := 0, einfo := 0 } ∧ (∀ r, r ≠ rd → t.slot r = s.slot r) ∧
        ((t.slot rd).toNat : Int) =
          if 0 ≤ (s.slot rs).toInt then 2 * (s.slot rs).toInt else -2 * (s.slot rs).toInt - 1

/-- `ZZDEC` writes the signed number that `ZZENC` maps to its operand, and nothing else (40_byteutils.md section 2; the
formula is the spec's general knowledge, G1, log entry 12). -/
def Obligations.ZzdecMapsUnsignedToSigned : Prop :=
  ∀ (s : State) (rd rs : SlotIx), decode (assemble 0x03 rd rs 0) = .ok (.zzdec rd rs) ∧
    Completes (.zzdec rd rs) s fun t =>
      t = { s with x := t.x, status := 0, einfo := 0 } ∧ (∀ r, r ≠ rd → t.slot r = s.slot r) ∧
        ((s.slot rs).toNat : Int) =
          if 0 ≤ (t.slot rd).toInt then 2 * (t.slot rd).toInt else -2 * (t.slot rd).toInt - 1

/-- `RDNIB` moves `n` nibbles from the read cursor into `x[rd]`, zero-extended, and advances the cursor; with too few
nibbles left it raises `TRUNC_NIB`. With `n = 0` it always succeeds (R137). -/
def Obligations.RdnibReadsField : Prop :=
  ∀ (s : State) (rd : SlotIx) (n : NibCount), n.toNat ≤ 16 → (n ≠ 0 → SourceOk s) →
    decode (assemble 0x04 rd 0 n) = .ok (.rdnib rd n) ∧
      if n.toNat ≤ 2 * s.srcLen.toNat - s.rnib.toNat then
        Completes (.rdnib rd n) s fun t =>
          t = { s with x := t.x, rnib := t.rnib, status := 0, einfo := 0 } ∧ (∀ r, r ≠ rd → t.slot r = s.slot r) ∧
            t.rnib.toNat = s.rnib.toNat + n.toNat ∧ (t.slot rd).toNat < 16 ^ n.toNat ∧
            ∀ j, j < n.toNat → (t.slot rd).extractLsb' (4 * j) 4 = s.mem.nibble s.srcBase.toNat (s.rnib.toNat + j)
      else Raises (.rdnib rd n) s 2 0x20

/-- `WRNIB` stores the `n` low nibbles of `x[rs]` at the write cursor, keeps every other nibble of memory and advances the
cursor; with too little room it raises `DST_FULL`. With `n = 0` it always succeeds (R78, R138). -/
def Obligations.WrnibWritesField : Prop :=
  ∀ (s : State) (rs : SlotIx) (n : NibCount), s.mem.wf → n.toNat ≤ 16 → (n ≠ 0 → DestinationOk s) →
    decode (assemble 0x05 0 rs n) = .ok (.wrnib rs n) ∧
      if n.toNat ≤ 2 * s.dstCap.toNat - s.wnib.toNat then
        Completes (.wrnib rs n) s fun t =>
          t = { s with mem := t.mem, wnib := t.wnib, status := 0, einfo := 0 } ∧
            t.wnib.toNat = s.wnib.toNat + n.toNat ∧
            (∀ q, t.mem.nibble s.dstBase.toNat q =
              if s.wnib.toNat ≤ q ∧ q < s.wnib.toNat + n.toNat then (s.slot rs).extractLsb' (4 * (q - s.wnib.toNat)) 4
              else s.mem.nibble s.dstBase.toNat q) ∧
            ∀ a, a < s.dstBase.toNat → t.mem.read a = s.mem.read a
      else Raises (.wrnib rs n) s 5 0x50

/-- The nibble primitives are the bit primitives at multiples of 4 (R79). -/
def Obligations.NibbleAccessIsBitAccess : Prop :=
  ∀ (m : Memory) (base q n : Nat) (v : Word), m.wf → n ≤ 16 →
    m.nibRead base q n = m.bitRead base (4 * q) (4 * n) ∧
      m.nibWrite base q n v = m.bitWrite base (4 * q) (4 * n) v

/-! ### Blocks (30_encoding.md part B.1, 41_nibblepack_block.md) -/

/-- `SCAN` leaves the zero-mask and the nibble width of the slot registers in `ZM` and `NW`, and changes nothing else
(R151, R152, R153). -/
def Obligations.ScanReportsMaskAndWidth : Prop :=
  ∀ s : State, decode (assemble 0x08 0 0 0) = .ok .scan ∧
    Completes .scan s fun t =>
      t = { s with zm := t.zm, nw := t.nw, status := 0, einfo := 0 } ∧ IsZeroMask s.x t.zm ∧
        IsBlockNibbles s.x t.nw.toNat

/-- An encoded block has the size of R113, which counts its nonzero slots, and is 2 to 66 bytes long. -/
def Obligations.EncodedBlockSize : Prop :=
  ∀ x : Slots,
    (encodeBlock x).length = blockSize (blockNibbles x) (zeroMask x) ∧
      (encodeBlock x).length = 2 + ((8 - x.toList.count 0) * blockNibbles x + 1) / 2 ∧
      2 ≤ (encodeBlock x).length ∧ (encodeBlock x).length ≤ 66

/-- Decoding an encoded block gives its slots: wherever the bytes of `encode_block(x)` stand, the walk accepts them as one
block and `decode_block` returns `x` (R156, R160 (c)). -/
def Obligations.DecodeBlockInvertsEncodeBlock : Prop :=
  ∀ (m : Memory) (base p len : Nat) (x : Slots), m.wf → p + (encodeBlock x).length ≤ len →
    ∃ b, checkBlock (m.writeBytes (base + p) (encodeBlock x)) base len p = .ok b ∧
      decodeBlock (m.writeBytes (base + p) (encodeBlock x)) base b = x ∧ b.stop = p + (encodeBlock x).length

/-- A byte string is one that the encoder writes exactly when it is canonical: minimal width, no stored zero, `n = 0`
exactly with mask `0xFF`, zero pad nibble (R116). The payload values are those `decode_block` reads. -/
def Obligations.EncoderWritesExactlyCanonicalBlocks : Prop :=
  ∀ (n : Nat) (mask : Byte) (payload : List Byte), payload.length + 2 = blockSize n mask → n < 256 →
    let v := decodeBlock (Memory.writeBytes [] 0 (BitVec.ofNat 8 n :: mask :: payload)) 0 ⟨0, n, mask⟩
    (∃ x, encodeBlock x = BitVec.ofNat 8 n :: mask :: payload) ↔
      n ≤ 16 ∧ (∀ j : Fin 8, mask.getLsbD j = false → v[j] ≠ 0) ∧
        (0 < n → ∃ j : Fin 8, mask.getLsbD j = false ∧ 16 ^ (n - 1) ≤ v[j].toNat) ∧ (n = 0 ↔ mask = 0xFF) ∧
        ((8 - popcount8 mask) * n % 2 = 1 → (payload.getLastD 0).extractLsb' 4 4 = 0)

/-- `PACK` writes the block of the slot registers at the write cursor and nothing else, or raises `ODD_CURSOR` or
`DST_FULL`, in that order (R155, R158; that `ODD_CURSOR` does not ask for a good slice is the model's choice, log entry
5). -/
def Obligations.PackWritesBlock : Prop :=
  ∀ s : State, s.mem.wf → decode (assemble 0x09 0 0 0) = .ok .pack ∧
    if s.wnib.toNat % 2 = 1 then Raises .pack s 1 0x10
    else DestinationOk s →
      if s.wnib.toNat / 2 + (encodeBlock s.x).length > s.dstCap.toNat then Raises .pack s 5 0x50
      else
        Completes .pack s fun t =>
          t = { s with mem := t.mem, wnib := t.wnib, zm := t.zm, nw := t.nw, status := 0, einfo := 0 } ∧
            t.wnib.toNat = 2 * (s.wnib.toNat / 2 + (encodeBlock s.x).length) ∧ IsZeroMask s.x t.zm ∧
            IsBlockNibbles s.x t.nw.toNat ∧
            Holds t.mem (s.dstBase.toNat + s.wnib.toNat / 2) (encodeBlock s.x) ∧
            SameOutside s.mem t.mem (s.dstBase.toNat + s.wnib.toNat / 2) (encodeBlock s.x).length

/-- `PACK`'s commit phase as R155 writes it, nibble by nibble, leaves the memory that writing the bytes of
`encode_block(x)` leaves (R155; the model's `PACK` is the latter, log entry 13). -/
def Obligations.PackIsTheNibbleLoop : Prop :=
  ∀ (m : Memory) (base p : Nat) (x : Slots), m.wf →
    packByNibbles m base p (blockNibbles x) (zeroMask x) x = m.writeBytes (base + p) (encodeBlock x)

/-- `UNPACK` reads one block at the read cursor into the slot registers and nothing else, or raises the first failing
test of R157. Slot `j` is 0 or the nibbles after those of the stored slots below it (R156, R159). (That
`ODD_CURSOR` does not ask for a good slice is the model's choice, log entry 5.) -/
def Obligations.UnpackReadsBlock : Prop :=
  ∀ s : State, decode (assemble 0x0A 0 0 0) = .ok .unpack ∧
    let p := s.rnib.toNat / 2
    let n := (s.mem.read (s.srcBase.toNat + p)).toNat
    let mask := s.mem.read (s.srcBase.toNat + p + 1)
    if s.rnib.toNat % 2 = 1 then Raises .unpack s 1 0x10
    else SourceOk s →
      if p + 2 > s.srcLen.toNat then Raises .unpack s 2 0x22
      else if n > 16 then Raises .unpack s 4 0x41
      else if p + blockSize n mask > s.srcLen.toNat then Raises .unpack s 2 0x23
      else
        Completes .unpack s fun t =>
          t = { s with x := t.x, rnib := t.rnib, zm := mask, nw := t.nw, status := 0, einfo := 0 } ∧ t.nw.toNat = n ∧
            t.rnib.toNat = 2 * (p + blockSize n mask) ∧
            ∀ j : Fin 8, t.x[j].toNat =
              if mask.getLsbD j then 0
              else s.mem.nibRead s.srcBase.toNat (2 * (p + 2) + storedBelow mask j * n) n

/-! ### Streams (30_encoding.md part B.2, 42_nibblepack_stream.md) -/

/-- A stream is its count, little-endian in 4 bytes, then the blocks of the groups of eight, the last padded with zeros
(R117, R118, R170). Byte `i` of the count is `N div 256^i mod 256` (R72). -/
def Obligations.StreamIsCountThenBlocks : Prop :=
  ∀ t : List Word,
    encodeStream t =
      leByteList t.length 4 ++ (List.range ((t.length + 7) / 8)).flatMap fun g => encodeBlock (groupAt t g)

/-- A stream of `G` blocks has 4 bytes and its blocks' sizes, at least `4 + 2*G` and at most `4 + 66*G` (R119). -/
def Obligations.StreamSizeBounds : Prop :=
  ∀ t : List Word,
    (encodeStream t).length =
        4 + ((List.range ((t.length + 7) / 8)).map fun g =>
          blockSize (blockNibbles (groupAt t g)) (zeroMask (groupAt t g))).sum ∧
      4 + 2 * ((t.length + 7) / 8) ≤ (encodeStream t).length ∧
      (encodeStream t).length ≤ 4 + 66 * ((t.length + 7) / 8)

/-- `ENCODE` writes the stream of the transformed value array at the write cursor and updates its result registers, or
raises the first failing test of R172 (R171, R172). (That the register tests do not ask for good slices, and that the
overlap premise is about the bytes written only, are the model's choices, log entries 5 and 6.) -/
def Obligations.EncodeWritesStream : Prop :=
  ∀ s : State, s.mem.wf → decode (assemble 0x12 0 0 0) = .ok .encode ∧
    let count := s.valCount.toNat
    let p := s.wnib.toNat / 2
    let v := s.mem.readElems s.valBase.toNat count
    if s.wnib.toNat % 2 = 1 then Raises .encode s 1 0x10
    else if count > 2 ^ 32 - 1 then Raises .encode s 1 0x11
    else if BadMode s then Raises .encode s 4 0x42
    else ∀ md, ModeIs s md → ValuesOk s count → DestinationOk s →
      let list := forwardList md s.acc v
      let bytes := encodeStream list
      if p + bytes.length > s.dstCap.toNat then Raises .encode s 5 0x50
      else Apart (s.dstBase.toNat + p) bytes.length s.valBase.toNat (8 * count) →
        Completes .encode s fun t =>
          t = { s with
                mem := t.mem, wnib := t.wnib, acc := forwardAcc md s.acc v, x := t.x, zm := t.zm, nw := t.nw
                nvals := s.valCount, nbytes := t.nbytes, status := 0, einfo := 0 } ∧
            t.wnib.toNat = 2 * (p + bytes.length) ∧ t.nbytes.toNat = bytes.length ∧
            Holds t.mem (s.dstBase.toNat + p) bytes ∧ SameOutside s.mem t.mem (s.dstBase.toNat + p) bytes.length ∧
            if count = 0 then t.x = s.x ∧ t.zm = s.zm ∧ t.nw = s.nw
            else t.x = groupAt list ((count - 1) / 8) ∧ IsZeroMask t.x t.zm ∧ IsBlockNibbles t.x t.nw.toNat

/-- The forward transform: each value less (or XOR) the one before it, the first against the accumulator; the final
accumulator is the last value (R193). -/
def Obligations.ForwardTakesDifferences : Prop :=
  ∀ (md : SinkMode) (a : Word) (v : List Word),
    (forwardList md a v).length = v.length ∧
      (∀ i, i < v.length → (forwardList md a v).getD i 0 =
        match md with
        | .raw => v.getD i 0
        | .delta => v.getD i 0 - (a :: v).getD i 0
        | .xor => v.getD i 0 ^^^ (a :: v).getD i 0) ∧
      forwardAcc md a v = if md = .raw then a else (a :: v).getD v.length 0

/-- `stream_check` accepts exactly the streams whose header, counts and needed blocks pass the tests of R173, and returns
what R173 says: block after block, each inside the slice. The count is read little-endian (R72). -/
def Obligations.StreamCheckAcceptsExactly : Prop :=
  ∀ (m : Memory) (base len p lim : Nat) (i : StreamInfo),
    let n := leValue m (base + p) 4
    let sizes := i.blocks.map fun b => blockSize b.n b.mask
    streamCheck m base len p lim = .ok i ↔
      p + 4 ≤ len ∧ (n = 0 → len = p + 4) ∧ (0 < n → p + 4 < len) ∧ i.count = n ∧ i.deliver = min n lim ∧
        i.blocks.length = (min n lim + 7) / 8 ∧ i.stop = p + 4 + sizes.sum ∧
        ∀ (g : Nat) (hg : g < i.blocks.length),
          i.blocks[g].start = p + 4 + (sizes.take g).sum ∧
            i.blocks[g].n = (m.read (base + i.blocks[g].start)).toNat ∧
            i.blocks[g].mask = m.read (base + i.blocks[g].start + 1) ∧ i.blocks[g].n ≤ 16 ∧
            i.blocks[g].start + 2 ≤ len ∧ i.blocks[g].start + blockSize i.blocks[g].n i.blocks[g].mask ≤ len

/-- `stream_check` raises the first failing test of R173: one of the three header tests, or one of the three tests of the
first needed block that fails one, at the offset `e g` the blocks before it lead to. -/
def Obligations.StreamCheckReportsFirstFailure : Prop :=
  ∀ (m : Memory) (base len p lim : Nat) (c : Subcause),
    let n := leValue m (base + p) 4
    let width := fun e => (m.read (base + e)).toNat
    let size := fun e => blockSize (width e) (m.read (base + e + 1))
    streamCheck m base len p lim = .error c ↔
      if p + 4 > len then c = .truncCount
      else if n = 0 ∧ p + 4 < len then c = .zeroCountTrailing
      else if 0 < n ∧ p + 4 = len then c = .nonzeroCountEmpty
      else
        ∃ (e : Nat → Nat) (g : Nat), g < (min n lim + 7) / 8 ∧ e 0 = p + 4 ∧
          (∀ h, h < g →
            e h + 2 ≤ len ∧ width (e h) ≤ 16 ∧ e h + size (e h) ≤ len ∧ e (h + 1) = e h + size (e h)) ∧
          if e g + 2 > len then c = .truncBlockHdr
          else if width (e g) > 16 then c = .badWidth
          else e g + size (e g) > len ∧ c = .truncPayload

/-- `DECODE` pushes the values of the stream at the read cursor to the sink, in order, and updates its result registers,
or raises the first failing test of R175; `stream_check` is R173's (R175, R192), the numbers of its errors are those of
`ErrorAndStateNumbers`. (That the register tests do not ask for good slices, and that the overlap premise is about the
elements written only, are the model's choices, log entries 5 and 6.) -/
def Obligations.DecodeDeliversStream : Prop :=
  ∀ s : State, s.mem.wf → decode (assemble 0x13 0 0 0) = .ok .decode ∧
    let p := s.rnib.toNat / 2
    if s.rnib.toNat % 2 = 1 then Raises .decode s 1 0x10
    else if BadMode s then Raises .decode s 4 0x42
    else ∀ md, ModeIs s md → SourceOk s → OutputOk s →
      match streamCheck s.mem s.srcBase.toNat s.srcLen.toNat p s.limit.toNat with
      | .error c => Raises .decode s c.kind.code c.code
      | .ok i =>
        let raw := (i.blocks.flatMap fun b => (decodeBlock s.mem s.srcBase.toNat b).toList).take i.deliver
        let out := s.outBase.toNat + 8 * s.outLen.toNat
        if s.outLen.toNat + i.deliver > s.outCap.toNat then Raises .decode s 5 0x51
        else Apart out (8 * i.deliver) s.srcBase.toNat s.srcLen.toNat →
          Completes .decode s fun t =>
            t = { s with
                  mem := t.mem, outLen := t.outLen, acc := accAfter md s.acc raw, rnib := t.rnib, x := t.x, zm := t.zm
                  nw := t.nw, nvals := t.nvals, nbytes := t.nbytes, status := 0, einfo := 0 } ∧
              raw.length = i.deliver ∧ t.outLen.toNat = s.outLen.toNat + i.deliver ∧ t.rnib.toNat = 2 * i.stop ∧
              t.nvals.toNat = i.deliver ∧ t.nbytes.toNat = i.stop - p ∧
              (∀ k, k < i.deliver → t.mem.readElem (out + 8 * k) = sinkOutput md s.acc raw k) ∧
              SameOutside s.mem t.mem out (8 * i.deliver) ∧
              match i.blocks.getLast? with
              | none => t.x = s.x ∧ t.zm = s.zm ∧ t.nw = s.nw
              | some b => t.x = decodeBlock s.mem s.srcBase.toNat b ∧ t.zm = b.mask ∧ t.nw.toNat = b.n

/-- Round trip of a whole stream: `DECODE` on exactly the bytes a successful `ENCODE` produced, under the same mode and
accumulator, appends exactly the values encoded (R177; the overlap premise is the model's choice, log entry 6). -/
def Obligations.DecodeInvertsEncodeStream : Prop :=
  ∀ (s t : State) (outBase outCap limit : Word), s.mem.wf → exec .encode s = .next t → t.status = 0 →
    let src := s.dstBase.toNat + s.wnib.toNat / 2
    let u := { t with
               srcBase := BitVec.ofNat 64 src, srcLen := t.nbytes, rnib := 0, acc := s.acc, outLen := 0
               outBase := outBase, outCap := outCap, limit := limit }
    s.valCount.toNat ≤ outCap.toNat → s.valCount.toNat ≤ limit.toNat → OutputOk u →
    Apart outBase.toNat (8 * s.valCount.toNat) src t.nbytes.toNat →
      ∃ w, exec .decode u = .next w ∧ w.status = 0 ∧ w.outLen = s.valCount ∧ w.acc = t.acc ∧
        ∀ k, k < s.valCount.toNat →
          w.mem.readElem (outBase.toNat + 8 * k) = s.mem.readElem (s.valBase.toNat + 8 * k)

/-- Truncation safety: where `DECODE` of a whole stream succeeds, every shorter slice makes it raise `TruncatedInput`, but
for exactly the 4 header bytes of a nonzero count, which raise `NONZERO_COUNT_EMPTY`; nothing is pushed (R178). -/
def Obligations.TruncatedStreamIsReported : Prop :=
  ∀ (s t : State) (len : Word), exec .decode s = .next t → t.status = 0 →
    s.mem.readLE (s.srcBase.toNat + s.rnib.toNat / 2) 4 ≤ s.limit.toNat →
    len.toNat < s.rnib.toNat / 2 + t.nbytes.toNat →
      ∃ sub : Byte, Raises .decode { s with srcLen := len }
        (if len.toNat = s.rnib.toNat / 2 + 4 then 3 else 2) sub ∧
        (len.toNat = s.rnib.toNat / 2 + 4 → sub = 0x31)

/-! ### The sink (43_sink.md) -/

/-- `SRESET` clears `OUT_LEN` and `ACC` and changes nothing else but the report (R195). -/
def Obligations.SresetClearsSink : Prop :=
  ∀ s : State, decode (assemble 0x10 0 0 0) = .ok .sreset ∧
    exec .sreset s = .next { s with outLen := 0, acc := 0, status := 0, einfo := 0 }

/-- `PUSH` appends one element and updates the accumulator by its mode, or raises `BAD_MODE` or `OUT_FULL`, in that order
(R191, R192, R196, R199). The element is stored little-endian (R72). (That `BAD_MODE` does not ask for a good output
buffer is the model's choice, log entry 5.) -/
def Obligations.PushAppendsOneElement : Prop :=
  ∀ (s : State) (rs : SlotIx), s.mem.wf → decode (assemble 0x11 0 rs 0) = .ok (.push rs) ∧
    if BadMode s then Raises (.push rs) s 4 0x42
    else ∀ md, ModeIs s md → OutputOk s →
      if s.outLen.toNat ≥ s.outCap.toNat then Raises (.push rs) s 5 0x51
      else
        Completes (.push rs) s fun t =>
          t = { s with mem := t.mem, outLen := t.outLen, acc := t.acc, status := 0, einfo := 0 } ∧
            t.outLen.toNat = s.outLen.toNat + 1 ∧
            t.acc = (match md with
              | .raw => s.acc
              | .delta => s.acc + s.slot rs
              | .xor => s.acc ^^^ s.slot rs) ∧
            t.mem.readElem (s.outBase.toNat + 8 * s.outLen.toNat) = (if md = .raw then s.slot rs else t.acc) ∧
            Holds t.mem (s.outBase.toNat + 8 * s.outLen.toNat)
              (leByteList (if md = .raw then s.slot rs else t.acc).toNat 8) ∧
            SameOutside s.mem t.mem (s.outBase.toNat + 8 * s.outLen.toNat) 8

/-- The sink undoes the forward transform: pushing the transformed list, from the same accumulator, appends exactly the
values and ends with the final accumulator (R194). -/
def Obligations.SinkInvertsForward : Prop :=
  ∀ (s : State) (md : SinkMode) (v : List Word), s.mem.wf → s.outLen.toNat + v.length < 2 ^ 64 →
    let t := s.pushAll md (forwardList md s.acc v)
    t.acc = forwardAcc md s.acc v ∧ t.outLen.toNat = s.outLen.toNat + v.length ∧
      t.mem.readElems (s.outBase.toNat + 8 * s.outLen.toNat) v.length = v

/-! ### Histogram frames (44_histogram.md) -/

/-- The two pattern tests are the ordered comparisons with 1.0 and 0.0: by value on finite patterns with sign 0, true of
+infinity, false of every NaN and of every pattern with sign 1 (44_histogram.md section 2; that pattern order is value
order is the spec's general knowledge, G2, log entry 12). -/
def Obligations.FloatTestsAreOrderedComparisons : Prop :=
  ∀ b : Word,
    (IsFiniteNonneg b →
      (greaterThanOne b = true ↔ 1 < binary64Value b) ∧ (greaterThanZero b = true ↔ 0 < binary64Value b)) ∧
      (b = patternInfinity → greaterThanOne b = true ∧ greaterThanZero b = true) ∧
      (b.msb = true ∨ (¬IsFiniteNonneg b ∧ b ≠ patternInfinity) →
        greaterThanOne b = false ∧ greaterThanZero b = false)

/-- `HENC` writes the frame of its parameters and the transformed value array at the write cursor and updates its result
registers, or raises the first failing test of R211 in state 8 (R208, R210, R211). The header fields are little-endian
(R72). (That the register tests do not ask for good slices, and that the overlap premise is about the bytes written
only, are the model's choices, log entries 5 and 6.) -/
def Obligations.HencWritesFrame : Prop :=
  ∀ s : State, s.mem.wf → decode (assemble 0x18 0 0 0) = .ok .henc ∧
    let count := s.hnb.toNat
    let p := s.wnib.toNat / 2
    let v := s.mem.readElems s.valBase.toNat count
    let u := if s.hfmt = 2 then v.reverse else v
    let list := forwardList .delta 0 u
    let bytes :=
      [s.hfmt] ++ leByteList count 2 ++ leByteList s.hinit.toNat 8 ++ leByteList s.hmult.toNat 8 ++ encodeStream list
    if s.wnib.toNat % 2 = 1 then RaisesIn .henc s 1 0x10 8
    else if count > 65535 then RaisesIn .henc s 1 0x12 8
    else if ¬(0x3FF0000000000000 < s.hmult.toNat ∧ s.hmult.toNat ≤ 0x7FF0000000000000) then RaisesIn .henc s 1 0x13 8
    else if ¬(0 < s.hinit.toNat ∧ s.hinit.toNat ≤ 0x7FF0000000000000) then RaisesIn .henc s 1 0x14 8
    else if s.hfmt = 3 ∨ s.hfmt = 4 then RaisesIn .henc s 4 0x43 8
    else if s.hfmt ≠ 1 ∧ s.hfmt ≠ 2 then RaisesIn .henc s 4 0x44 8
    else ValuesOk s count → DestinationOk s →
      if p + bytes.length > s.dstCap.toNat then RaisesIn .henc s 5 0x50 8
      else Apart (s.dstBase.toNat + p) bytes.length s.valBase.toNat (8 * count) →
        Completes .henc s fun t =>
          t = { s with
                mem := t.mem, wnib := t.wnib, acc := u.getLastD 0, x := t.x, zm := t.zm, nw := t.nw, nvals := t.nvals
                nbytes := t.nbytes, hstate := 7, status := 0, einfo := 0 } ∧
            t.wnib.toNat = 2 * (p + bytes.length) ∧ t.nvals.toNat = count ∧ t.nbytes.toNat = bytes.length ∧
            bytes.length = 19 + (encodeStream list).length ∧ Holds t.mem (s.dstBase.toNat + p) bytes ∧
            SameOutside s.mem t.mem (s.dstBase.toNat + p) bytes.length ∧
            if count = 0 then t.x = s.x ∧ t.zm = s.zm ∧ t.nw = s.nw
            else t.x = groupAt list ((count - 1) / 8) ∧ IsZeroMask t.x t.zm ∧ IsBlockNibbles t.x t.nw.toNat

/-- `frame_check` reports the first failing test of R212 with the frame state it stands in, up to the embedded stream;
from there on it is `stream_check`, the two counts and the output room, all in state 5 (R207, R212, R215). The header
fields are little-endian (R72). -/
def Obligations.FrameCheckReportsFirstFailure : Prop :=
  ∀ (m : Memory) (base len p outCap : Nat),
    let f := m.read (base + p)
    let nb := leValue m (base + p + 1) 2
    frameCheck m base len p outCap =
      if p + 1 > len then .error (.fmt, .truncFrameHdr)
      else if f = 3 ∨ f = 4 then .error (.fmt, .fmtUnimplemented)
      else if f ≠ 1 ∧ f ≠ 2 then .error (.fmt, .fmtUnknown)
      else if p + 3 > len then .error (.nb, .truncFrameHdr)
      else if p + 11 > len then .error (.init, .truncFrameHdr)
      else if p + 19 > len then .error (.mult, .truncFrameHdr)
      else
        match streamCheck m base len (p + 19) (2 ^ 64 - 1) with
        | .error c => .error (.stream, c)
        | .ok i =>
          if i.count ≠ nb then .error (.stream, .bucketCountMismatch)
          else if i.count > outCap then .error (.stream, .outFull)
          else
            .ok ⟨f, nb, BitVec.ofNat 64 (leValue m (base + p + 3) 8), BitVec.ofNat 64 (leValue m (base + p + 11) 8), i⟩

/-- `HDEC` decodes the frame at the read cursor into the reset sink, in the original order, and updates its result
registers, or raises the first failing test of R214 in its frame state; `frame_check` is R212's (R208, R213, R214), the numbers
of its errors and states are those of `ErrorAndStateNumbers`. (That `ODD_CURSOR` does not ask for good slices, and that
the overlap premise is about the elements written only, are the model's choices, log entries 5 and 6.) -/
def Obligations.HdecReadsFrame : Prop :=
  ∀ s : State, s.mem.wf → decode (assemble 0x19 0 0 0) = .ok .hdec ∧
    let p := s.rnib.toNat / 2
    if s.rnib.toNat % 2 = 1 then RaisesIn .hdec s 1 0x10 1
    else SourceOk s → OutputOk s →
      match frameCheck s.mem s.srcBase.toNat s.srcLen.toNat p s.outCap.toNat with
      | .error (st, c) => RaisesIn .hdec s c.kind.code c.code st.code
      | .ok i =>
        let n := i.stream.count
        let raw := (i.stream.blocks.flatMap fun b => (decodeBlock s.mem s.srcBase.toNat b).toList).take n
        let u := (List.range n).map fun k => accAfter .delta 0 (raw.take (k + 1))
        Apart s.outBase.toNat (8 * n) s.srcBase.toNat s.srcLen.toNat →
          Completes .hdec s fun t =>
            t = { s with
                  mem := t.mem, outLen := t.outLen, acc := u.getLastD 0, rnib := t.rnib, hfmt := i.format, hnb := t.hnb
                  hinit := i.init, hmult := i.mult, x := t.x, zm := t.zm, nw := t.nw, nvals := t.nvals
                  nbytes := t.nbytes, hstate := 7, status := 0, einfo := 0 } ∧
              t.outLen.toNat = n ∧ t.hnb.toNat = i.buckets ∧ i.buckets = n ∧ t.rnib.toNat = 2 * i.stream.stop ∧
              t.nvals.toNat = n ∧ t.nbytes.toNat = i.stream.stop - p ∧
              t.mem.readElems s.outBase.toNat n = (if i.format = 2 then u.reverse else u) ∧
              SameOutside s.mem t.mem s.outBase.toNat (8 * n) ∧
              match i.stream.blocks.getLast? with
              | none => t.x = s.x ∧ t.zm = s.zm ∧ t.nw = s.nw
              | some b => t.x = decodeBlock s.mem s.srcBase.toNat b ∧ t.zm = b.mask ∧ t.nw.toNat = b.n

/-- Exchanging elements `i` and `n-1-i` for every `i < n div 2` reverses the array in place and touches nothing else
(R216). -/
def Obligations.ReversalInPlaceReversesElements : Prop :=
  ∀ (m : Memory) (base n : Nat), m.wf →
    (reverseElems m base n (n / 2)).readElems base n = (m.readElems base n).reverse ∧
      SameOutside m (reverseElems m base n (n / 2)) base (8 * n)

/-- Round trip of a histogram frame: `HDEC` on exactly the bytes a successful `HENC` produced returns the counts and
restores the four parameters bit for bit (R217; the overlap premise is the model's choice, log entry 6). -/
def Obligations.HdecInvertsHenc : Prop :=
  ∀ (s t : State) (outBase outCap : Word), s.mem.wf → exec .henc s = .next t → t.status = 0 →
    let src := s.dstBase.toNat + s.wnib.toNat / 2
    ∀ u : State, u.mem = t.mem → u.srcBase = BitVec.ofNat 64 src → u.srcLen = t.nbytes → u.rnib = 0 →
      u.outBase = outBase → u.outCap = outCap → s.hnb.toNat ≤ outCap.toNat → OutputOk u →
      Apart outBase.toNat (8 * s.hnb.toNat) src t.nbytes.toNat →
        ∃ w, exec .hdec u = .next w ∧ w.status = 0 ∧ w.outLen.toNat = s.hnb.toNat ∧ w.hfmt = s.hfmt ∧ w.hnb = s.hnb ∧
          w.hinit = s.hinit ∧ w.hmult = s.hmult ∧
          w.mem.readElems outBase.toNat s.hnb.toNat = s.mem.readElems s.valBase.toNat s.hnb.toNat

/-! ### The whole machine (10_state.md, 20_memory.md, 60_exceptions.md) -/

/-- The numbers of the error kinds, of every sub-cause with its kind, and of the frame states are those of the tables of
R241, R242 and R205, and the tables name every kind, sub-cause and state. -/
def Obligations.ErrorAndStateNumbers : Prop :=
  (∀ row ∈ kindTable, row.1.code = row.2) ∧ (∀ k : ErrorKind, k ∈ kindTable.map (·.1)) ∧
    (∀ row ∈ errorTable, row.1.kind.code = row.2.1 ∧ row.1.code = row.2.2) ∧
    (∀ c : Subcause, c ∈ errorTable.map (·.1)) ∧
    (∀ row ∈ frameStateTable, row.1.code = row.2) ∧ ∀ f : FrameState, f ∈ frameStateTable.map (·.1)

/-- A command that raises changes `STATUS`, `EINFO` and, if it is `HENC` or `HDEC`, `HSTATE`, and nothing else; one that
does not raise leaves `EINFO = 0` (R244, R245). -/
def Obligations.ErrorsAreAllOrNothing : Prop :=
  ∀ (i : Instr) (s t : State), exec i s = .next t →
    (t.status ≠ 0 → t = { s with status := t.status, einfo := t.einfo, hstate := t.hstate } ∧
      (i ≠ .henc → i ≠ .hdec → t.hstate = s.hstate)) ∧
    (t.status = 0 → t.einfo = 0)

/-- A command changes no register outside its row of R56. -/
def Obligations.CommandsWriteOnlyTheirRegisters : Prop :=
  ∀ (i : Instr) (s t : State), exec i s = .next t →
    (∀ g : Reg, g ≠ .status → g ≠ .einfo → mayWrite i g = false → t.readReg g = s.readReg g) ∧
    t.host = s.host ∧ t.hostData = s.hostData ∧ t.hasXor = s.hasXor

/-- A command stores only into the slice its row of R71 names, and never below its cursor (R71, R74, R281). -/
def Obligations.CommandsStoreOnlyIntoTheirSlice : Prop :=
  ∀ (i : Instr) (s t : State) (a : Nat), s.mem.wf → exec i s = .next t → t.mem.read a ≠ s.mem.read a → mayStore s a i

/-- What a decoding command leaves depends on no byte outside the source slice: with other bytes elsewhere it ends the same
way, with the same registers, and on success with the same bytes in every output element it wrote (R25, R71, R74;
`HDEC` writes from element 0, `DECODE` from element `OUT_LEN`, the other two none, R191, R214). -/
def Obligations.DecoderResultsDependOnSourceBytesOnly : Prop :=
  ∀ (i : Instr) (s : State) (m : Memory), s.mem.wf → m.wf →
    (∀ a, s.srcBase.toNat ≤ a → a < s.srcBase.toNat + s.srcLen.toNat → m.read a = s.mem.read a) →
    ((∃ rd n, i = .rdnib rd n) ∨ i = .unpack ∨ i = .decode ∨ i = .hdec) →
      match exec i s, exec i { s with mem := m } with
      | .next t, .next t' =>
        t' = { t with mem := t'.mem } ∧
          (t.status = 0 →
            ∀ a, s.outBase.toNat + 8 * (if i = .hdec then 0 else s.outLen.toNat) ≤ a →
              a < s.outBase.toNat + 8 * t.outLen.toNat → t'.mem.read a = t.mem.read a)
      | .refused r, .refused r' => r = r'
      | _, _ => False

/-- No command's behaviour depends on `STATUS`, `EINFO`, `ZM`, `NW`, `NVALS`, `NBYTES` or `HSTATE` (R52). -/
def Obligations.OutputRegistersDoNotSteerCommands : Prop :=
  ∀ (i : Instr) (s o : State),
    match exec i s, exec i (withOutputs s o) with
    | .next t, .next t' => t' = withOutputs t t' ∧ t'.status = t.status ∧ t'.einfo = t.einfo
    | .refused r, .refused r' => r = r'
    | _, _ => False

/-- Under the preconditions of R75 and R277 every command ends, with success or with an error: a next state (R231). -/
def Obligations.EveryCommandEnds : Prop :=
  ∀ (i : Instr) (s : State), (∀ sl ∈ slicesUsed i, SliceOk s sl) → SlicesApart s i → ∃ t, exec i s = .next t

/-- A command is refused only for a slice it uses that breaks R75 (a) or (b), or for slices that are not apart (R75, U1 to
U3; when the model refuses is its choice, log entries 5 and 6). -/
def Obligations.RefusalsNameABrokenPrecondition : Prop :=
  ∀ (i : Instr) (s : State) (r : Refusal), exec i s = .refused r →
    (∃ sl ∈ slicesUsed i, (r = .sliceWraps sl ∨ r = .sliceTooLong sl) ∧ ¬SliceOk s sl) ∨
      ((∃ a b, r = .slicesOverlap a b) ∧ ¬SlicesApart s i)

/-- A command that passes its register tests is refused when a slice it uses breaks R75 (a) or (b) (U1, U2: "refuse";
that the register tests come first is the model's choice, log entry 5). -/
def Obligations.BrokenSliceIsRefused : Prop :=
  ∀ (i : Instr) (s : State) (sl : Slice), sl ∈ slicesUsed i → ¬SliceOk s sl → RegisterTestsPass s i →
    ∃ r, exec i s = .refused r

/-- A command that passes all its tests is refused when a byte it would write lies in a slice it reads (R75 (c), U3:
"refuse"; that exactly the bytes written are tested, after every error, is the model's choice, log entry 6). -/
def Obligations.OverlapIsRefused : Prop :=
  ∀ s : State,
    (∀ md, ModeIs s md → RegisterTestsPass s .encode → ValuesOk s s.valCount.toNat → DestinationOk s →
      let p := s.wnib.toNat / 2
      let bytes := encodeStream (forwardList md s.acc (s.mem.readElems s.valBase.toNat s.valCount.toNat))
      p + bytes.length ≤ s.dstCap.toNat →
      ¬Apart (s.dstBase.toNat + p) bytes.length s.valBase.toNat (8 * s.valCount.toNat) →
        exec .encode s = .refused (.slicesOverlap .destination .streamValues)) ∧
    (RegisterTestsPass s .henc → ValuesOk s s.hnb.toNat → DestinationOk s →
      let p := s.wnib.toNat / 2
      let v := s.mem.readElems s.valBase.toNat s.hnb.toNat
      let size := 19 + (encodeStream (forwardList .delta 0 (if s.hfmt = 2 then v.reverse else v))).length
      p + size ≤ s.dstCap.toNat → ¬Apart (s.dstBase.toNat + p) size s.valBase.toNat (8 * s.hnb.toNat) →
        exec .henc s = .refused (.slicesOverlap .destination .frameValues)) ∧
    (RegisterTestsPass s .decode → SourceOk s → OutputOk s →
      ∀ i, streamCheck s.mem s.srcBase.toNat s.srcLen.toNat (s.rnib.toNat / 2) s.limit.toNat = .ok i →
        s.outLen.toNat + i.deliver ≤ s.outCap.toNat →
        ¬Apart (s.outBase.toNat + 8 * s.outLen.toNat) (8 * i.deliver) s.srcBase.toNat s.srcLen.toNat →
          exec .decode s = .refused (.slicesOverlap .output .source)) ∧
    (RegisterTestsPass s .hdec → SourceOk s → OutputOk s →
      ∀ i, frameCheck s.mem s.srcBase.toNat s.srcLen.toNat (s.rnib.toNat / 2) s.outCap.toNat = .ok i →
        ¬Apart s.outBase.toNat (8 * i.stream.count) s.srcBase.toNat s.srcLen.toNat →
          exec .hdec s = .refused (.slicesOverlap .output .source))

/-- The machine's invariant holds at reset. -/
def Obligations.ResetMeetsInvariant : Prop := Inv State.reset

/-- Every step keeps the invariant: memory stays canonical, `NW` at most 16, `HSTATE` one of the nine states, `STATUS` and
`EINFO` a listed pair (R39, R44, R50, R242). -/
def Obligations.StepKeepsInvariant : Prop :=
  ∀ s t : State, Inv s → step s = .next t → Inv t

/-- Every step keeps memory inside the address space: no command stores beyond byte `2^64 - 1` (R70, R75). -/
def Obligations.StepKeepsMemoryInAddressSpace : Prop :=
  ∀ s t : State, InSpace s.mem → step s = .next t → InSpace t.mem
end

