-- ==== Sys2Proof/Laws/Memory.lean ====
section
/-! SUPPORT. Laws of memory: reading after writing, and that every memory operation keeps the canonical form. -/

namespace Sys2Proof.Machine

/-- The head of a canonical memory lies below its tail, and both parts are canonical. -/
theorem Memory.wf_cons {c : Host.Cell} {m : Memory} :
    Memory.wf (c :: m) ↔ c.2 ≠ Config.unwrittenByte ∧ (∀ d ∈ m, c.1 < d.1) ∧ Memory.wf m := by
  simp only [Memory.wf, List.pairwise_cons, List.mem_cons, forall_eq_or_imp]
  tauto

theorem Memory.wf_nil : Memory.wf [] := by simp [Memory.wf]

/-- An address below every listed one reads as an unlisted address. -/
theorem Memory.read_of_lt {m : Memory} {a : Nat} (h : ∀ d ∈ m, a < d.1) : m.read a = Config.unwrittenByte := by
  induction m with
  | nil => rfl
  | cons c rest ih =>
    obtain ⟨k, b⟩ := c
    have hk : a < k := h (k, b) (by simp)
    simp only [Memory.read, if_neg hk.ne]
    exact ih fun d hd => h d (by simp [hd])

/-- Every address a write lists was listed before or is the one written. -/
theorem Memory.mem_write {m : Memory} {a : Nat} {v : Byte} {d : Host.Cell} (h : d ∈ m.write a v) :
    d ∈ m ∨ d = (a, v) := by
  induction m with
  | nil => simp only [Memory.write] at h; split at h <;> simp_all
  | cons c rest ih =>
    obtain ⟨k, b⟩ := c
    simp only [Memory.write] at h
    split at h
    · split at h <;> simp_all
      tauto
    · split at h
      · split at h <;> simp_all
        tauto
      · rcases List.mem_cons.1 h with h | h
        · simp [h]
        · rcases ih h with h | h <;> simp [h]

/-- A write keeps the canonical form. -/
theorem Memory.write_wf {m : Memory} (h : m.wf) (a : Nat) (v : Byte) : (m.write a v).wf := by
  induction m with
  | nil =>
    simp only [Memory.write]
    split
    · exact Memory.wf_nil
    · exact Memory.wf_cons.2 ⟨‹_›, by simp, Memory.wf_nil⟩
  | cons c rest ih =>
    obtain ⟨k, b⟩ := c
    obtain ⟨hb, hlt, hr⟩ := Memory.wf_cons.1 h
    simp only [Memory.write]
    split
    · split
      · exact h
      · refine Memory.wf_cons.2 ⟨‹_›, ?_, h⟩
        intro d hd
        rcases List.mem_cons.1 hd with rfl | hd
        · assumption
        · have := hlt d hd; simp only at this ⊢; omega
    · split
      · split
        · exact hr
        · subst a; exact Memory.wf_cons.2 ⟨‹_›, hlt, hr⟩
      · refine Memory.wf_cons.2 ⟨hb, ?_, ih hr⟩
        intro d hd
        rcases Memory.mem_write hd with hd | rfl
        · exact hlt d hd
        · simp only; omega

/-- What a byte reads as after a write: the byte written at its address, else as before. -/
theorem Memory.read_write {m : Memory} (h : m.wf) (a b : Nat) (v : Byte) :
    (m.write a v).read b = if b = a then v else m.read b := by
  induction m with
  | nil =>
    simp only [Memory.write]
    split
    · simp only [Memory.read]; split <;> simp_all
    · simp [Memory.read]
  | cons c rest ih =>
    obtain ⟨k, w⟩ := c
    obtain ⟨hw, hlt, hr⟩ := Memory.wf_cons.1 h
    simp only [Memory.write]
    split
    · rename_i hak
      split
      · rename_i hv
        split
        · subst b
          rw [hv]
          exact Memory.read_of_lt fun d hd => by
            rcases List.mem_cons.1 hd with rfl | hd
            · exact hak
            · exact hak.trans (hlt d hd)
        · rfl
      · simp [Memory.read]
    · split
      · rename_i hak hk
        subst hk
        split
        · rename_i hv
          split
          · subst b; rw [hv]; exact Memory.read_of_lt hlt
          · simp [Memory.read, *]
        · simp only [Memory.read]; split <;> simp_all
      · rename_i hak hk
        simp only [Memory.read]
        rw [ih hr]
        split
        · subst b; simp [Ne.symm hk]
        · rfl

theorem Memory.read_write_same {m : Memory} (h : m.wf) (a : Nat) (v : Byte) : (m.write a v).read a = v := by
  simp [Memory.read_write h]

theorem Memory.read_write_other {m : Memory} (h : m.wf) {a b : Nat} (v : Byte) (hab : b ≠ a) :
    (m.write a v).read b = m.read b := by
  simp [Memory.read_write h, hab]

/-- A canonical memory is what its bytes read as: two that read alike are equal. -/
theorem Memory.ext {m m' : Memory} (h : m.wf) (h' : m'.wf) (hr : ∀ a, m.read a = m'.read a) : m = m' := by
  induction m generalizing m' with
  | nil =>
    cases m' with
    | nil => rfl
    | cons c rest =>
      obtain ⟨hb, -, -⟩ := Memory.wf_cons.1 h'
      have := hr c.1
      simp only [Memory.read, if_true] at this
      exact absurd this.symm hb
  | cons c rest ih =>
    obtain ⟨k, b⟩ := c
    obtain ⟨hb, hlt, hw⟩ := Memory.wf_cons.1 h
    cases m' with
    | nil =>
      have := hr k
      simp only [Memory.read, if_true] at this
      exact absurd this hb
    | cons c' rest' =>
      obtain ⟨k', b'⟩ := c'
      obtain ⟨hb', hlt', hw'⟩ := Memory.wf_cons.1 h'
      have hkk : k = k' := by
        rcases Nat.lt_trichotomy k k' with hk | hk | hk
        · have := hr k
          rw [Memory.read_of_lt (m := (k', b') :: rest') fun d hd => by
            rcases List.mem_cons.1 hd with rfl | hd
            · exact hk
            · exact hk.trans (hlt' d hd)] at this
          simp only [Memory.read, if_true] at this
          exact absurd this hb
        · exact hk
        · have := hr k'
          rw [Memory.read_of_lt (m := (k, b) :: rest) fun d hd => by
            rcases List.mem_cons.1 hd with rfl | hd
            · exact hk
            · exact hk.trans (hlt d hd)] at this
          simp only [Memory.read, if_true] at this
          exact absurd this.symm hb'
      subst hkk
      have hbb : b = b' := by simpa [Memory.read] using hr k
      subst hbb
      congr 1
      refine ih hw hw' fun a => ?_
      by_cases ha : a = k
      · subst ha; rw [Memory.read_of_lt hlt, Memory.read_of_lt hlt']
      · simpa [Memory.read, ha] using hr a

/-! ### Runs of bytes -/

theorem Memory.writeBytes_wf {m : Memory} (h : m.wf) (a : Nat) (l : List Byte) : (m.writeBytes a l).wf := by
  induction l generalizing m a with
  | nil => exact h
  | cons b rest ih => exact ih (Memory.write_wf h a b) (a + 1)

/-- What a byte reads as after a run of bytes is written: its byte of the run, else as before. -/
theorem Memory.read_writeBytes {m : Memory} (h : m.wf) (a b : Nat) (l : List Byte) :
    (m.writeBytes a l).read b = if a ≤ b ∧ b < a + l.length then l.getD (b - a) 0 else m.read b := by
  induction l generalizing m a with
  | nil => simp only [Memory.writeBytes, List.length_nil]; rw [if_neg (by omega)]
  | cons v rest ih =>
    simp only [Memory.writeBytes, ih (Memory.write_wf h a v), Memory.read_write h, List.length_cons]
    by_cases hba : b = a
    · subst hba; simp
    · by_cases hin : a + 1 ≤ b ∧ b < a + 1 + rest.length
      · rw [if_pos hin, if_pos (by omega), show b - a = (b - (a + 1)) + 1 by omega, List.getD_cons_succ]
      · rw [if_neg hin, if_neg hba, if_neg (by omega)]

/-- A run of bytes leaves every byte outside it alone. -/
theorem Memory.read_writeBytes_outside {m : Memory} (h : m.wf) {a b : Nat} {l : List Byte}
    (hb : b < a ∨ a + l.length ≤ b) : (m.writeBytes a l).read b = m.read b := by
  rw [Memory.read_writeBytes h, if_neg (by omega)]

@[simp] theorem leBytes_length (v n : Nat) : (leBytes v n).length = n := by
  induction n generalizing v with
  | zero => rfl
  | succ n ih => simp [leBytes, ih]

theorem Memory.writeLE_wf {m : Memory} (h : m.wf) (a n v : Nat) : (m.writeLE a n v).wf :=
  Memory.writeBytes_wf h a _

theorem Memory.writeElem_wf {m : Memory} (h : m.wf) (a : Nat) (v : Word) : (m.writeElem a v).wf :=
  Memory.writeLE_wf h a 8 _

/-- An 8-byte element leaves every byte outside it alone. -/
theorem Memory.read_writeElem_outside {m : Memory} (h : m.wf) {a b : Nat} {v : Word} (hb : b < a ∨ a + 8 ≤ b) :
    (m.writeElem a v).read b = m.read b :=
  Memory.read_writeBytes_outside h (by simpa using hb)

/-- A little-endian read depends on its bytes only. -/
theorem Memory.readLE_congr {m m' : Memory} {a n : Nat} (h : ∀ b, a ≤ b → b < a + n → m.read b = m'.read b) :
    m.readLE a n = m'.readLE a n := by
  induction n generalizing a with
  | zero => rfl
  | succ n ih =>
    simp only [Memory.readLE]
    rw [h a (by omega) (by omega), ih fun b hb hb' => h b (by omega) (by omega)]

/-- A little-endian read of `n` bytes is below `256^n`. -/
theorem Memory.readLE_lt (m : Memory) (a n : Nat) : m.readLE a n < 256 ^ n := by
  induction n generalizing a with
  | zero => simp [Memory.readLE]
  | succ n ih =>
    have h1 := ih (a + 1)
    have h2 := (m.read a).isLt
    simp only [Memory.readLE, Nat.pow_succ]
    omega

/-- Reading back the little-endian bytes of a number gives the number, cut to their width. -/
theorem Memory.readLE_writeLE {m : Memory} (h : m.wf) (a n v : Nat) : (m.writeLE a n v).readLE a n = v % 256 ^ n := by
  induction n generalizing m a v with
  | zero => simp [Memory.readLE, Nat.mod_one]
  | succ n ih =>
    have hw := Memory.write_wf h a (BitVec.ofNat 8 v)
    have hhead : ((m.write a (BitVec.ofNat 8 v)).writeBytes (a + 1) (leBytes (v / 256) n)).read a = BitVec.ofNat 8 v := by
      rw [Memory.read_writeBytes_outside hw (by omega), Memory.read_write_same h]
    have htail := ih hw (a + 1) (v / 256)
    simp only [Memory.writeLE] at htail
    simp only [Memory.writeLE, leBytes, Memory.writeBytes, Memory.readLE, hhead, htail, BitVec.toNat_ofNat]
    rw [show 256 ^ (n + 1) = 256 * 256 ^ n from Nat.pow_succ', Nat.mod_mul]

/-- Reading back an element gives the element. -/
theorem Memory.readElem_writeElem {m : Memory} (h : m.wf) (a : Nat) (v : Word) : (m.writeElem a v).readElem a = v := by
  have hv := v.isLt
  simp only [Memory.readElem, Memory.writeElem, Memory.readLE_writeLE h]
  apply BitVec.eq_of_toNat_eq
  rw [BitVec.toNat_ofNat]
  omega

/-! ### Nibbles and bits -/

theorem Memory.setNibble_wf {m : Memory} (h : m.wf) (base q : Nat) (d : Nibble) : (m.setNibble base q d).wf :=
  Memory.write_wf h _ _

theorem Memory.nibWrite_wf {m : Memory} (h : m.wf) (base q n : Nat) (v : Word) : (m.nibWrite base q n v).wf := by
  induction n generalizing m q v with
  | zero => exact h
  | succ n ih => exact ih (Memory.setNibble_wf h base q _) (q + 1) _

theorem Memory.bitWrite_wf {m : Memory} (h : m.wf) (base b k : Nat) (v : Word) : (m.bitWrite base b k v).wf := by
  induction k generalizing m b v with
  | zero => exact h
  | succ k ih => exact ih (Memory.write_wf h _ _) (b + 1) _

theorem extract_low_append (x y : Nibble) : (x ++ y : Byte).extractLsb' 0 4 = y := by
  rw [BitVec.extractLsb'_append_eq_right]

theorem extract_high_append (x y : Nibble) : (x ++ y : Byte).extractLsb' 4 4 = x := by
  rw [BitVec.extractLsb'_append_eq_left]

/-- Setting a nibble changes that nibble and no other of the slice. -/
theorem Memory.nibble_setNibble {m : Memory} (h : m.wf) (base q q' : Nat) (d : Nibble) :
    (m.setNibble base q d).nibble base q' = if q' = q then d else m.nibble base q' := by
  simp only [Memory.nibble, Memory.setNibble, Memory.read_write h]
  by_cases hq : q' = q
  · subst hq
    by_cases hp : q' % 2 = 0
    · simp [hp, replaceNibble, extract_low_append]
    · have hp1 : q' % 2 = 1 := by omega
      simp [hp1, replaceNibble, extract_high_append]
  · rw [if_neg hq]
    by_cases hb : q' / 2 = q / 2
    · rw [hb]
      simp only [if_true]
      by_cases hp : q' % 2 = 0
      · have hp1 : q % 2 = 1 := by omega
        simp [hp, hp1, replaceNibble, extract_low_append]
      · have hp0 : q % 2 = 0 := by omega
        simp [hp, hp0, replaceNibble, extract_high_append]
    · simp [hb]

/-- Setting a nibble leaves every other byte alone. -/
theorem Memory.read_setNibble_outside {m : Memory} (h : m.wf) {base q b : Nat} {d : Nibble} (hb : b ≠ base + q / 2) :
    (m.setNibble base q d).read b = m.read b :=
  Memory.read_write_other h _ hb

/-! ### Reversal -/

theorem swapElems_wf {m : Memory} (h : m.wf) (base i j : Nat) : (swapElems m base i j).wf :=
  Memory.writeElem_wf (Memory.writeElem_wf h _ _) _ _

theorem reverseElems_wf {m : Memory} (h : m.wf) (base n k : Nat) : (reverseElems m base n k).wf := by
  induction k with
  | zero => exact h
  | succ k ih => exact swapElems_wf ih base _ _

/-- Exchanging two elements of an array of `n` leaves every byte outside the array alone. -/
theorem read_swapElems_outside {m : Memory} (h : m.wf) {base n i j b : Nat} (hi : i < n) (hj : j < n)
    (hb : b < base ∨ base + 8 * n ≤ b) : (swapElems m base i j).read b = m.read b := by
  simp only [swapElems]
  rw [Memory.read_writeElem_outside (Memory.writeElem_wf h _ _) (by omega), Memory.read_writeElem_outside h (by omega)]

/-- The reversal of an array of `n` elements leaves every byte outside it alone. -/
theorem read_reverseElems_outside {m : Memory} (h : m.wf) {base n k b : Nat} (hk : k ≤ n)
    (hb : b < base ∨ base + 8 * n ≤ b) : (reverseElems m base n k).read b = m.read b := by
  induction k with
  | zero => rfl
  | succ k ih =>
    simp only [reverseElems]
    rw [read_swapElems_outside (reverseElems_wf h base n k) (n := n) (by omega) (by omega) hb, ih (by omega)]

end Sys2Proof.Machine
end

