-- ==== Sys2Proof/Laws/ByteOrder.lean ====
section
/-! SUPPORT. The model's little-endian readers and writers, byte by byte (20_memory.md R72). -/

namespace Sys2Proof.Machine

open Sys2Proof.Safety

/-- What `readLE` is: the sum of the bytes, byte `i` with weight `256^i`. -/
theorem Memory.readLE_eq_leValue (m : Memory) (a n : Nat) : m.readLE a n = leValue m a n := by
  induction n generalizing a with
  | zero => rfl
  | succ n ih =>
    rw [Memory.readLE, ih]
    simp only [leValue, List.range_succ_eq_map, List.map_cons, List.map_map, List.sum_cons, Nat.add_zero, Nat.pow_zero,
      Nat.mul_one, ← List.sum_map_mul_left]
    congr 2
    refine List.map_congr_left fun i _ => ?_
    simp only [Function.comp_apply, Nat.pow_succ, Nat.succ_eq_add_one, Nat.add_assoc, Nat.add_comm 1 i]
    ring

/-- What `leBytes` is: byte `i` is `v div 256^i`, cut to 8 bits. -/
theorem leBytes_eq_leByteList (v n : Nat) : leBytes v n = leByteList v n := by
  induction n generalizing v with
  | zero => rfl
  | succ n ih =>
    rw [leBytes, ih]
    simp only [leByteList, List.range_succ_eq_map, List.map_cons, List.map_map, Nat.pow_zero, Nat.div_one]
    congr 1
    refine List.map_congr_left fun i _ => ?_
    simp only [Function.comp_apply, Nat.pow_succ, Nat.succ_eq_add_one, Nat.div_div_eq_div_mul, Nat.mul_comm]

end Sys2Proof.Machine
end

