-- ==== Sys2Proof/Laws/State.lean ====
section
/-! SUPPORT. One lemma per field per update of State: what each named update leaves in each field. -/

namespace Sys2Proof.Machine

/-! ### `State.raise` -/

@[simp] theorem State.raise_x (s : State) (c : Subcause) : (s.raise c).x = s.x := rfl
@[simp] theorem State.raise_srcBase (s : State) (c : Subcause) : (s.raise c).srcBase = s.srcBase := rfl
@[simp] theorem State.raise_srcLen (s : State) (c : Subcause) : (s.raise c).srcLen = s.srcLen := rfl
@[simp] theorem State.raise_rnib (s : State) (c : Subcause) : (s.raise c).rnib = s.rnib := rfl
@[simp] theorem State.raise_dstBase (s : State) (c : Subcause) : (s.raise c).dstBase = s.dstBase := rfl
@[simp] theorem State.raise_dstCap (s : State) (c : Subcause) : (s.raise c).dstCap = s.dstCap := rfl
@[simp] theorem State.raise_wnib (s : State) (c : Subcause) : (s.raise c).wnib = s.wnib := rfl
@[simp] theorem State.raise_valBase (s : State) (c : Subcause) : (s.raise c).valBase = s.valBase := rfl
@[simp] theorem State.raise_valCount (s : State) (c : Subcause) : (s.raise c).valCount = s.valCount := rfl
@[simp] theorem State.raise_outBase (s : State) (c : Subcause) : (s.raise c).outBase = s.outBase := rfl
@[simp] theorem State.raise_outCap (s : State) (c : Subcause) : (s.raise c).outCap = s.outCap := rfl
@[simp] theorem State.raise_outLen (s : State) (c : Subcause) : (s.raise c).outLen = s.outLen := rfl
@[simp] theorem State.raise_acc (s : State) (c : Subcause) : (s.raise c).acc = s.acc := rfl
@[simp] theorem State.raise_limit (s : State) (c : Subcause) : (s.raise c).limit = s.limit := rfl
@[simp] theorem State.raise_mode (s : State) (c : Subcause) : (s.raise c).mode = s.mode := rfl
@[simp] theorem State.raise_status (s : State) (c : Subcause) : (s.raise c).status = c.kind.code := rfl
@[simp] theorem State.raise_einfo (s : State) (c : Subcause) : (s.raise c).einfo = c.code := rfl
@[simp] theorem State.raise_nvals (s : State) (c : Subcause) : (s.raise c).nvals = s.nvals := rfl
@[simp] theorem State.raise_nbytes (s : State) (c : Subcause) : (s.raise c).nbytes = s.nbytes := rfl
@[simp] theorem State.raise_zm (s : State) (c : Subcause) : (s.raise c).zm = s.zm := rfl
@[simp] theorem State.raise_nw (s : State) (c : Subcause) : (s.raise c).nw = s.nw := rfl
@[simp] theorem State.raise_hfmt (s : State) (c : Subcause) : (s.raise c).hfmt = s.hfmt := rfl
@[simp] theorem State.raise_hnb (s : State) (c : Subcause) : (s.raise c).hnb = s.hnb := rfl
@[simp] theorem State.raise_hinit (s : State) (c : Subcause) : (s.raise c).hinit = s.hinit := rfl
@[simp] theorem State.raise_hmult (s : State) (c : Subcause) : (s.raise c).hmult = s.hmult := rfl
@[simp] theorem State.raise_hstate (s : State) (c : Subcause) : (s.raise c).hstate = s.hstate := rfl
@[simp] theorem State.raise_cmd (s : State) (c : Subcause) : (s.raise c).cmd = s.cmd := rfl
@[simp] theorem State.raise_hasXor (s : State) (c : Subcause) : (s.raise c).hasXor = s.hasXor := rfl
@[simp] theorem State.raise_mem (s : State) (c : Subcause) : (s.raise c).mem = s.mem := rfl
@[simp] theorem State.raise_host (s : State) (c : Subcause) : (s.raise c).host = s.host := rfl
@[simp] theorem State.raise_hostData (s : State) (c : Subcause) : (s.raise c).hostData = s.hostData := rfl

/-! ### `State.raiseIn` -/

@[simp] theorem State.raiseIn_x (s : State) (st : FrameState) (c : Subcause) : (s.raiseIn st c).x = s.x := rfl
@[simp] theorem State.raiseIn_srcBase (s : State) (st : FrameState) (c : Subcause) : (s.raiseIn st c).srcBase = s.srcBase :=
  rfl
@[simp] theorem State.raiseIn_srcLen (s : State) (st : FrameState) (c : Subcause) : (s.raiseIn st c).srcLen = s.srcLen :=
  rfl
@[simp] theorem State.raiseIn_rnib (s : State) (st : FrameState) (c : Subcause) : (s.raiseIn st c).rnib = s.rnib := rfl
@[simp] theorem State.raiseIn_dstBase (s : State) (st : FrameState) (c : Subcause) : (s.raiseIn st c).dstBase = s.dstBase :=
  rfl
@[simp] theorem State.raiseIn_dstCap (s : State) (st : FrameState) (c : Subcause) : (s.raiseIn st c).dstCap = s.dstCap :=
  rfl
@[simp] theorem State.raiseIn_wnib (s : State) (st : FrameState) (c : Subcause) : (s.raiseIn st c).wnib = s.wnib := rfl
@[simp] theorem State.raiseIn_valBase (s : State) (st : FrameState) (c : Subcause) : (s.raiseIn st c).valBase = s.valBase :=
  rfl
@[simp] theorem State.raiseIn_valCount (s : State) (st : FrameState) (c : Subcause) : (s.raiseIn st c).valCount = s.valCount :=
  rfl
@[simp] theorem State.raiseIn_outBase (s : State) (st : FrameState) (c : Subcause) : (s.raiseIn st c).outBase = s.outBase :=
  rfl
@[simp] theorem State.raiseIn_outCap (s : State) (st : FrameState) (c : Subcause) : (s.raiseIn st c).outCap = s.outCap :=
  rfl
@[simp] theorem State.raiseIn_outLen (s : State) (st : FrameState) (c : Subcause) : (s.raiseIn st c).outLen = s.outLen :=
  rfl
@[simp] theorem State.raiseIn_acc (s : State) (st : FrameState) (c : Subcause) : (s.raiseIn st c).acc = s.acc := rfl
@[simp] theorem State.raiseIn_limit (s : State) (st : FrameState) (c : Subcause) : (s.raiseIn st c).limit = s.limit :=
  rfl
@[simp] theorem State.raiseIn_mode (s : State) (st : FrameState) (c : Subcause) : (s.raiseIn st c).mode = s.mode := rfl
@[simp] theorem State.raiseIn_status (s : State) (st : FrameState) (c : Subcause) : (s.raiseIn st c).status = c.kind.code :=
  rfl
@[simp] theorem State.raiseIn_einfo (s : State) (st : FrameState) (c : Subcause) : (s.raiseIn st c).einfo = c.code :=
  rfl
@[simp] theorem State.raiseIn_nvals (s : State) (st : FrameState) (c : Subcause) : (s.raiseIn st c).nvals = s.nvals :=
  rfl
@[simp] theorem State.raiseIn_nbytes (s : State) (st : FrameState) (c : Subcause) : (s.raiseIn st c).nbytes = s.nbytes :=
  rfl
@[simp] theorem State.raiseIn_zm (s : State) (st : FrameState) (c : Subcause) : (s.raiseIn st c).zm = s.zm := rfl
@[simp] theorem State.raiseIn_nw (s : State) (st : FrameState) (c : Subcause) : (s.raiseIn st c).nw = s.nw := rfl
@[simp] theorem State.raiseIn_hfmt (s : State) (st : FrameState) (c : Subcause) : (s.raiseIn st c).hfmt = s.hfmt := rfl
@[simp] theorem State.raiseIn_hnb (s : State) (st : FrameState) (c : Subcause) : (s.raiseIn st c).hnb = s.hnb := rfl
@[simp] theorem State.raiseIn_hinit (s : State) (st : FrameState) (c : Subcause) : (s.raiseIn st c).hinit = s.hinit :=
  rfl
@[simp] theorem State.raiseIn_hmult (s : State) (st : FrameState) (c : Subcause) : (s.raiseIn st c).hmult = s.hmult :=
  rfl
@[simp] theorem State.raiseIn_hstate (s : State) (st : FrameState) (c : Subcause) : (s.raiseIn st c).hstate = st.code :=
  rfl
@[simp] theorem State.raiseIn_cmd (s : State) (st : FrameState) (c : Subcause) : (s.raiseIn st c).cmd = s.cmd := rfl
@[simp] theorem State.raiseIn_hasXor (s : State) (st : FrameState) (c : Subcause) : (s.raiseIn st c).hasXor = s.hasXor :=
  rfl
@[simp] theorem State.raiseIn_mem (s : State) (st : FrameState) (c : Subcause) : (s.raiseIn st c).mem = s.mem := rfl
@[simp] theorem State.raiseIn_host (s : State) (st : FrameState) (c : Subcause) : (s.raiseIn st c).host = s.host := rfl
@[simp] theorem State.raiseIn_hostData (s : State) (st : FrameState) (c : Subcause) : (s.raiseIn st c).hostData = s.hostData :=
  rfl

/-! ### `State.illegalCommand` -/

@[simp] theorem State.illegalCommand_x (s : State) : (s.illegalCommand).x = s.x := rfl
@[simp] theorem State.illegalCommand_srcBase (s : State) : (s.illegalCommand).srcBase = s.srcBase := rfl
@[simp] theorem State.illegalCommand_srcLen (s : State) : (s.illegalCommand).srcLen = s.srcLen := rfl
@[simp] theorem State.illegalCommand_rnib (s : State) : (s.illegalCommand).rnib = s.rnib := rfl
@[simp] theorem State.illegalCommand_dstBase (s : State) : (s.illegalCommand).dstBase = s.dstBase := rfl
@[simp] theorem State.illegalCommand_dstCap (s : State) : (s.illegalCommand).dstCap = s.dstCap := rfl
@[simp] theorem State.illegalCommand_wnib (s : State) : (s.illegalCommand).wnib = s.wnib := rfl
@[simp] theorem State.illegalCommand_valBase (s : State) : (s.illegalCommand).valBase = s.valBase := rfl
@[simp] theorem State.illegalCommand_valCount (s : State) : (s.illegalCommand).valCount = s.valCount := rfl
@[simp] theorem State.illegalCommand_outBase (s : State) : (s.illegalCommand).outBase = s.outBase := rfl
@[simp] theorem State.illegalCommand_outCap (s : State) : (s.illegalCommand).outCap = s.outCap := rfl
@[simp] theorem State.illegalCommand_outLen (s : State) : (s.illegalCommand).outLen = s.outLen := rfl
@[simp] theorem State.illegalCommand_acc (s : State) : (s.illegalCommand).acc = s.acc := rfl
@[simp] theorem State.illegalCommand_limit (s : State) : (s.illegalCommand).limit = s.limit := rfl
@[simp] theorem State.illegalCommand_mode (s : State) : (s.illegalCommand).mode = s.mode := rfl
@[simp] theorem State.illegalCommand_status (s : State) : (s.illegalCommand).status = ErrorKind.unsupported.code := rfl
@[simp] theorem State.illegalCommand_einfo (s : State) : (s.illegalCommand).einfo = Subcause.illegalCmd.code := rfl
@[simp] theorem State.illegalCommand_nvals (s : State) : (s.illegalCommand).nvals = s.nvals := rfl
@[simp] theorem State.illegalCommand_nbytes (s : State) : (s.illegalCommand).nbytes = s.nbytes := rfl
@[simp] theorem State.illegalCommand_zm (s : State) : (s.illegalCommand).zm = s.zm := rfl
@[simp] theorem State.illegalCommand_nw (s : State) : (s.illegalCommand).nw = s.nw := rfl
@[simp] theorem State.illegalCommand_hfmt (s : State) : (s.illegalCommand).hfmt = s.hfmt := rfl
@[simp] theorem State.illegalCommand_hnb (s : State) : (s.illegalCommand).hnb = s.hnb := rfl
@[simp] theorem State.illegalCommand_hinit (s : State) : (s.illegalCommand).hinit = s.hinit := rfl
@[simp] theorem State.illegalCommand_hmult (s : State) : (s.illegalCommand).hmult = s.hmult := rfl
@[simp] theorem State.illegalCommand_hstate (s : State) : (s.illegalCommand).hstate = s.hstate := rfl
@[simp] theorem State.illegalCommand_cmd (s : State) : (s.illegalCommand).cmd = s.cmd := rfl
@[simp] theorem State.illegalCommand_hasXor (s : State) : (s.illegalCommand).hasXor = s.hasXor := rfl
@[simp] theorem State.illegalCommand_mem (s : State) : (s.illegalCommand).mem = s.mem := rfl
@[simp] theorem State.illegalCommand_host (s : State) : (s.illegalCommand).host = s.host := rfl
@[simp] theorem State.illegalCommand_hostData (s : State) : (s.illegalCommand).hostData = s.hostData := rfl

/-! ### `State.succeed` -/

@[simp] theorem State.succeed_x (s : State) : (s.succeed).x = s.x := rfl
@[simp] theorem State.succeed_srcBase (s : State) : (s.succeed).srcBase = s.srcBase := rfl
@[simp] theorem State.succeed_srcLen (s : State) : (s.succeed).srcLen = s.srcLen := rfl
@[simp] theorem State.succeed_rnib (s : State) : (s.succeed).rnib = s.rnib := rfl
@[simp] theorem State.succeed_dstBase (s : State) : (s.succeed).dstBase = s.dstBase := rfl
@[simp] theorem State.succeed_dstCap (s : State) : (s.succeed).dstCap = s.dstCap := rfl
@[simp] theorem State.succeed_wnib (s : State) : (s.succeed).wnib = s.wnib := rfl
@[simp] theorem State.succeed_valBase (s : State) : (s.succeed).valBase = s.valBase := rfl
@[simp] theorem State.succeed_valCount (s : State) : (s.succeed).valCount = s.valCount := rfl
@[simp] theorem State.succeed_outBase (s : State) : (s.succeed).outBase = s.outBase := rfl
@[simp] theorem State.succeed_outCap (s : State) : (s.succeed).outCap = s.outCap := rfl
@[simp] theorem State.succeed_outLen (s : State) : (s.succeed).outLen = s.outLen := rfl
@[simp] theorem State.succeed_acc (s : State) : (s.succeed).acc = s.acc := rfl
@[simp] theorem State.succeed_limit (s : State) : (s.succeed).limit = s.limit := rfl
@[simp] theorem State.succeed_mode (s : State) : (s.succeed).mode = s.mode := rfl
@[simp] theorem State.succeed_status (s : State) : (s.succeed).status = 0 := rfl
@[simp] theorem State.succeed_einfo (s : State) : (s.succeed).einfo = 0 := rfl
@[simp] theorem State.succeed_nvals (s : State) : (s.succeed).nvals = s.nvals := rfl
@[simp] theorem State.succeed_nbytes (s : State) : (s.succeed).nbytes = s.nbytes := rfl
@[simp] theorem State.succeed_zm (s : State) : (s.succeed).zm = s.zm := rfl
@[simp] theorem State.succeed_nw (s : State) : (s.succeed).nw = s.nw := rfl
@[simp] theorem State.succeed_hfmt (s : State) : (s.succeed).hfmt = s.hfmt := rfl
@[simp] theorem State.succeed_hnb (s : State) : (s.succeed).hnb = s.hnb := rfl
@[simp] theorem State.succeed_hinit (s : State) : (s.succeed).hinit = s.hinit := rfl
@[simp] theorem State.succeed_hmult (s : State) : (s.succeed).hmult = s.hmult := rfl
@[simp] theorem State.succeed_hstate (s : State) : (s.succeed).hstate = s.hstate := rfl
@[simp] theorem State.succeed_cmd (s : State) : (s.succeed).cmd = s.cmd := rfl
@[simp] theorem State.succeed_hasXor (s : State) : (s.succeed).hasXor = s.hasXor := rfl
@[simp] theorem State.succeed_mem (s : State) : (s.succeed).mem = s.mem := rfl
@[simp] theorem State.succeed_host (s : State) : (s.succeed).host = s.host := rfl
@[simp] theorem State.succeed_hostData (s : State) : (s.succeed).hostData = s.hostData := rfl

/-! ### `State.setSlot` -/

@[simp] theorem State.setSlot_x (s : State) (r : SlotIx) (v : Word) : (s.setSlot r v).x = s.x.set r.toNat v r.isLt :=
  rfl
@[simp] theorem State.setSlot_srcBase (s : State) (r : SlotIx) (v : Word) : (s.setSlot r v).srcBase = s.srcBase := rfl
@[simp] theorem State.setSlot_srcLen (s : State) (r : SlotIx) (v : Word) : (s.setSlot r v).srcLen = s.srcLen := rfl
@[simp] theorem State.setSlot_rnib (s : State) (r : SlotIx) (v : Word) : (s.setSlot r v).rnib = s.rnib := rfl
@[simp] theorem State.setSlot_dstBase (s : State) (r : SlotIx) (v : Word) : (s.setSlot r v).dstBase = s.dstBase := rfl
@[simp] theorem State.setSlot_dstCap (s : State) (r : SlotIx) (v : Word) : (s.setSlot r v).dstCap = s.dstCap := rfl
@[simp] theorem State.setSlot_wnib (s : State) (r : SlotIx) (v : Word) : (s.setSlot r v).wnib = s.wnib := rfl
@[simp] theorem State.setSlot_valBase (s : State) (r : SlotIx) (v : Word) : (s.setSlot r v).valBase = s.valBase := rfl
@[simp] theorem State.setSlot_valCount (s : State) (r : SlotIx) (v : Word) : (s.setSlot r v).valCount = s.valCount :=
  rfl
@[simp] theorem State.setSlot_outBase (s : State) (r : SlotIx) (v : Word) : (s.setSlot r v).outBase = s.outBase := rfl
@[simp] theorem State.setSlot_outCap (s : State) (r : SlotIx) (v : Word) : (s.setSlot r v).outCap = s.outCap := rfl
@[simp] theorem State.setSlot_outLen (s : State) (r : SlotIx) (v : Word) : (s.setSlot r v).outLen = s.outLen := rfl
@[simp] theorem State.setSlot_acc (s : State) (r : SlotIx) (v : Word) : (s.setSlot r v).acc = s.acc := rfl
@[simp] theorem State.setSlot_limit (s : State) (r : SlotIx) (v : Word) : (s.setSlot r v).limit = s.limit := rfl
@[simp] theorem State.setSlot_mode (s : State) (r : SlotIx) (v : Word) : (s.setSlot r v).mode = s.mode := rfl
@[simp] theorem State.setSlot_status (s : State) (r : SlotIx) (v : Word) : (s.setSlot r v).status = s.status := rfl
@[simp] theorem State.setSlot_einfo (s : State) (r : SlotIx) (v : Word) : (s.setSlot r v).einfo = s.einfo := rfl
@[simp] theorem State.setSlot_nvals (s : State) (r : SlotIx) (v : Word) : (s.setSlot r v).nvals = s.nvals := rfl
@[simp] theorem State.setSlot_nbytes (s : State) (r : SlotIx) (v : Word) : (s.setSlot r v).nbytes = s.nbytes := rfl
@[simp] theorem State.setSlot_zm (s : State) (r : SlotIx) (v : Word) : (s.setSlot r v).zm = s.zm := rfl
@[simp] theorem State.setSlot_nw (s : State) (r : SlotIx) (v : Word) : (s.setSlot r v).nw = s.nw := rfl
@[simp] theorem State.setSlot_hfmt (s : State) (r : SlotIx) (v : Word) : (s.setSlot r v).hfmt = s.hfmt := rfl
@[simp] theorem State.setSlot_hnb (s : State) (r : SlotIx) (v : Word) : (s.setSlot r v).hnb = s.hnb := rfl
@[simp] theorem State.setSlot_hinit (s : State) (r : SlotIx) (v : Word) : (s.setSlot r v).hinit = s.hinit := rfl
@[simp] theorem State.setSlot_hmult (s : State) (r : SlotIx) (v : Word) : (s.setSlot r v).hmult = s.hmult := rfl
@[simp] theorem State.setSlot_hstate (s : State) (r : SlotIx) (v : Word) : (s.setSlot r v).hstate = s.hstate := rfl
@[simp] theorem State.setSlot_cmd (s : State) (r : SlotIx) (v : Word) : (s.setSlot r v).cmd = s.cmd := rfl
@[simp] theorem State.setSlot_hasXor (s : State) (r : SlotIx) (v : Word) : (s.setSlot r v).hasXor = s.hasXor := rfl
@[simp] theorem State.setSlot_mem (s : State) (r : SlotIx) (v : Word) : (s.setSlot r v).mem = s.mem := rfl
@[simp] theorem State.setSlot_host (s : State) (r : SlotIx) (v : Word) : (s.setSlot r v).host = s.host := rfl
@[simp] theorem State.setSlot_hostData (s : State) (r : SlotIx) (v : Word) : (s.setSlot r v).hostData = s.hostData :=
  rfl

/-! ### `State.stage` -/

@[simp] theorem State.stage_x (s : State) (x : Slots) (m : Byte) (n : Nat) : (s.stage x m n).x = x := rfl
@[simp] theorem State.stage_srcBase (s : State) (x : Slots) (m : Byte) (n : Nat) : (s.stage x m n).srcBase = s.srcBase :=
  rfl
@[simp] theorem State.stage_srcLen (s : State) (x : Slots) (m : Byte) (n : Nat) : (s.stage x m n).srcLen = s.srcLen :=
  rfl
@[simp] theorem State.stage_rnib (s : State) (x : Slots) (m : Byte) (n : Nat) : (s.stage x m n).rnib = s.rnib := rfl
@[simp] theorem State.stage_dstBase (s : State) (x : Slots) (m : Byte) (n : Nat) : (s.stage x m n).dstBase = s.dstBase :=
  rfl
@[simp] theorem State.stage_dstCap (s : State) (x : Slots) (m : Byte) (n : Nat) : (s.stage x m n).dstCap = s.dstCap :=
  rfl
@[simp] theorem State.stage_wnib (s : State) (x : Slots) (m : Byte) (n : Nat) : (s.stage x m n).wnib = s.wnib := rfl
@[simp] theorem State.stage_valBase (s : State) (x : Slots) (m : Byte) (n : Nat) : (s.stage x m n).valBase = s.valBase :=
  rfl
@[simp] theorem State.stage_valCount (s : State) (x : Slots) (m : Byte) (n : Nat) : (s.stage x m n).valCount = s.valCount :=
  rfl
@[simp] theorem State.stage_outBase (s : State) (x : Slots) (m : Byte) (n : Nat) : (s.stage x m n).outBase = s.outBase :=
  rfl
@[simp] theorem State.stage_outCap (s : State) (x : Slots) (m : Byte) (n : Nat) : (s.stage x m n).outCap = s.outCap :=
  rfl
@[simp] theorem State.stage_outLen (s : State) (x : Slots) (m : Byte) (n : Nat) : (s.stage x m n).outLen = s.outLen :=
  rfl
@[simp] theorem State.stage_acc (s : State) (x : Slots) (m : Byte) (n : Nat) : (s.stage x m n).acc = s.acc := rfl
@[simp] theorem State.stage_limit (s : State) (x : Slots) (m : Byte) (n : Nat) : (s.stage x m n).limit = s.limit := rfl
@[simp] theorem State.stage_mode (s : State) (x : Slots) (m : Byte) (n : Nat) : (s.stage x m n).mode = s.mode := rfl
@[simp] theorem State.stage_status (s : State) (x : Slots) (m : Byte) (n : Nat) : (s.stage x m n).status = s.status :=
  rfl
@[simp] theorem State.stage_einfo (s : State) (x : Slots) (m : Byte) (n : Nat) : (s.stage x m n).einfo = s.einfo := rfl
@[simp] theorem State.stage_nvals (s : State) (x : Slots) (m : Byte) (n : Nat) : (s.stage x m n).nvals = s.nvals := rfl
@[simp] theorem State.stage_nbytes (s : State) (x : Slots) (m : Byte) (n : Nat) : (s.stage x m n).nbytes = s.nbytes :=
  rfl
@[simp] theorem State.stage_zm (s : State) (x : Slots) (m : Byte) (n : Nat) : (s.stage x m n).zm = m := rfl
@[simp] theorem State.stage_nw (s : State) (x : Slots) (m : Byte) (n : Nat) : (s.stage x m n).nw = BitVec.ofNat 5 n :=
  rfl
@[simp] theorem State.stage_hfmt (s : State) (x : Slots) (m : Byte) (n : Nat) : (s.stage x m n).hfmt = s.hfmt := rfl
@[simp] theorem State.stage_hnb (s : State) (x : Slots) (m : Byte) (n : Nat) : (s.stage x m n).hnb = s.hnb := rfl
@[simp] theorem State.stage_hinit (s : State) (x : Slots) (m : Byte) (n : Nat) : (s.stage x m n).hinit = s.hinit := rfl
@[simp] theorem State.stage_hmult (s : State) (x : Slots) (m : Byte) (n : Nat) : (s.stage x m n).hmult = s.hmult := rfl
@[simp] theorem State.stage_hstate (s : State) (x : Slots) (m : Byte) (n : Nat) : (s.stage x m n).hstate = s.hstate :=
  rfl
@[simp] theorem State.stage_cmd (s : State) (x : Slots) (m : Byte) (n : Nat) : (s.stage x m n).cmd = s.cmd := rfl
@[simp] theorem State.stage_hasXor (s : State) (x : Slots) (m : Byte) (n : Nat) : (s.stage x m n).hasXor = s.hasXor :=
  rfl
@[simp] theorem State.stage_mem (s : State) (x : Slots) (m : Byte) (n : Nat) : (s.stage x m n).mem = s.mem := rfl
@[simp] theorem State.stage_host (s : State) (x : Slots) (m : Byte) (n : Nat) : (s.stage x m n).host = s.host := rfl
@[simp] theorem State.stage_hostData (s : State) (x : Slots) (m : Byte) (n : Nat) : (s.stage x m n).hostData = s.hostData :=
  rfl

/-! ### `State.outAppend` -/

@[simp] theorem State.outAppend_x (s : State) (o : Word) : (s.outAppend o).x = s.x := rfl
@[simp] theorem State.outAppend_srcBase (s : State) (o : Word) : (s.outAppend o).srcBase = s.srcBase := rfl
@[simp] theorem State.outAppend_srcLen (s : State) (o : Word) : (s.outAppend o).srcLen = s.srcLen := rfl
@[simp] theorem State.outAppend_rnib (s : State) (o : Word) : (s.outAppend o).rnib = s.rnib := rfl
@[simp] theorem State.outAppend_dstBase (s : State) (o : Word) : (s.outAppend o).dstBase = s.dstBase := rfl
@[simp] theorem State.outAppend_dstCap (s : State) (o : Word) : (s.outAppend o).dstCap = s.dstCap := rfl
@[simp] theorem State.outAppend_wnib (s : State) (o : Word) : (s.outAppend o).wnib = s.wnib := rfl
@[simp] theorem State.outAppend_valBase (s : State) (o : Word) : (s.outAppend o).valBase = s.valBase := rfl
@[simp] theorem State.outAppend_valCount (s : State) (o : Word) : (s.outAppend o).valCount = s.valCount := rfl
@[simp] theorem State.outAppend_outBase (s : State) (o : Word) : (s.outAppend o).outBase = s.outBase := rfl
@[simp] theorem State.outAppend_outCap (s : State) (o : Word) : (s.outAppend o).outCap = s.outCap := rfl
@[simp] theorem State.outAppend_outLen (s : State) (o : Word) : (s.outAppend o).outLen = s.outLen + 1 := rfl
@[simp] theorem State.outAppend_acc (s : State) (o : Word) : (s.outAppend o).acc = s.acc := rfl
@[simp] theorem State.outAppend_limit (s : State) (o : Word) : (s.outAppend o).limit = s.limit := rfl
@[simp] theorem State.outAppend_mode (s : State) (o : Word) : (s.outAppend o).mode = s.mode := rfl
@[simp] theorem State.outAppend_status (s : State) (o : Word) : (s.outAppend o).status = s.status := rfl
@[simp] theorem State.outAppend_einfo (s : State) (o : Word) : (s.outAppend o).einfo = s.einfo := rfl
@[simp] theorem State.outAppend_nvals (s : State) (o : Word) : (s.outAppend o).nvals = s.nvals := rfl
@[simp] theorem State.outAppend_nbytes (s : State) (o : Word) : (s.outAppend o).nbytes = s.nbytes := rfl
@[simp] theorem State.outAppend_zm (s : State) (o : Word) : (s.outAppend o).zm = s.zm := rfl
@[simp] theorem State.outAppend_nw (s : State) (o : Word) : (s.outAppend o).nw = s.nw := rfl
@[simp] theorem State.outAppend_hfmt (s : State) (o : Word) : (s.outAppend o).hfmt = s.hfmt := rfl
@[simp] theorem State.outAppend_hnb (s : State) (o : Word) : (s.outAppend o).hnb = s.hnb := rfl
@[simp] theorem State.outAppend_hinit (s : State) (o : Word) : (s.outAppend o).hinit = s.hinit := rfl
@[simp] theorem State.outAppend_hmult (s : State) (o : Word) : (s.outAppend o).hmult = s.hmult := rfl
@[simp] theorem State.outAppend_hstate (s : State) (o : Word) : (s.outAppend o).hstate = s.hstate := rfl
@[simp] theorem State.outAppend_cmd (s : State) (o : Word) : (s.outAppend o).cmd = s.cmd := rfl
@[simp] theorem State.outAppend_hasXor (s : State) (o : Word) : (s.outAppend o).hasXor = s.hasXor := rfl
@[simp] theorem State.outAppend_mem (s : State) (o : Word) : (s.outAppend o).mem = s.mem.writeElem (s.outBase.toNat + 8 * s.outLen.toNat) o :=
  rfl
@[simp] theorem State.outAppend_host (s : State) (o : Word) : (s.outAppend o).host = s.host := rfl
@[simp] theorem State.outAppend_hostData (s : State) (o : Word) : (s.outAppend o).hostData = s.hostData := rfl

/-! ### `State.resetSink` -/

@[simp] theorem State.resetSink_x (s : State) : (s.resetSink).x = s.x := rfl
@[simp] theorem State.resetSink_srcBase (s : State) : (s.resetSink).srcBase = s.srcBase := rfl
@[simp] theorem State.resetSink_srcLen (s : State) : (s.resetSink).srcLen = s.srcLen := rfl
@[simp] theorem State.resetSink_rnib (s : State) : (s.resetSink).rnib = s.rnib := rfl
@[simp] theorem State.resetSink_dstBase (s : State) : (s.resetSink).dstBase = s.dstBase := rfl
@[simp] theorem State.resetSink_dstCap (s : State) : (s.resetSink).dstCap = s.dstCap := rfl
@[simp] theorem State.resetSink_wnib (s : State) : (s.resetSink).wnib = s.wnib := rfl
@[simp] theorem State.resetSink_valBase (s : State) : (s.resetSink).valBase = s.valBase := rfl
@[simp] theorem State.resetSink_valCount (s : State) : (s.resetSink).valCount = s.valCount := rfl
@[simp] theorem State.resetSink_outBase (s : State) : (s.resetSink).outBase = s.outBase := rfl
@[simp] theorem State.resetSink_outCap (s : State) : (s.resetSink).outCap = s.outCap := rfl
@[simp] theorem State.resetSink_outLen (s : State) : (s.resetSink).outLen = 0 := rfl
@[simp] theorem State.resetSink_acc (s : State) : (s.resetSink).acc = 0 := rfl
@[simp] theorem State.resetSink_limit (s : State) : (s.resetSink).limit = s.limit := rfl
@[simp] theorem State.resetSink_mode (s : State) : (s.resetSink).mode = s.mode := rfl
@[simp] theorem State.resetSink_status (s : State) : (s.resetSink).status = s.status := rfl
@[simp] theorem State.resetSink_einfo (s : State) : (s.resetSink).einfo = s.einfo := rfl
@[simp] theorem State.resetSink_nvals (s : State) : (s.resetSink).nvals = s.nvals := rfl
@[simp] theorem State.resetSink_nbytes (s : State) : (s.resetSink).nbytes = s.nbytes := rfl
@[simp] theorem State.resetSink_zm (s : State) : (s.resetSink).zm = s.zm := rfl
@[simp] theorem State.resetSink_nw (s : State) : (s.resetSink).nw = s.nw := rfl
@[simp] theorem State.resetSink_hfmt (s : State) : (s.resetSink).hfmt = s.hfmt := rfl
@[simp] theorem State.resetSink_hnb (s : State) : (s.resetSink).hnb = s.hnb := rfl
@[simp] theorem State.resetSink_hinit (s : State) : (s.resetSink).hinit = s.hinit := rfl
@[simp] theorem State.resetSink_hmult (s : State) : (s.resetSink).hmult = s.hmult := rfl
@[simp] theorem State.resetSink_hstate (s : State) : (s.resetSink).hstate = s.hstate := rfl
@[simp] theorem State.resetSink_cmd (s : State) : (s.resetSink).cmd = s.cmd := rfl
@[simp] theorem State.resetSink_hasXor (s : State) : (s.resetSink).hasXor = s.hasXor := rfl
@[simp] theorem State.resetSink_mem (s : State) : (s.resetSink).mem = s.mem := rfl
@[simp] theorem State.resetSink_host (s : State) : (s.resetSink).host = s.host := rfl
@[simp] theorem State.resetSink_hostData (s : State) : (s.resetSink).hostData = s.hostData := rfl

/-! ### `State.readField` -/

@[simp] theorem State.readField_x (s : State) (rd : SlotIx) (n : Nat) : (s.readField rd n).x = s.x.set rd.toNat (BitVec.ofNat 64 (s.mem.nibRead s.srcBase.toNat s.rnib.toNat n)) rd.isLt :=
  rfl
@[simp] theorem State.readField_srcBase (s : State) (rd : SlotIx) (n : Nat) : (s.readField rd n).srcBase = s.srcBase :=
  rfl
@[simp] theorem State.readField_srcLen (s : State) (rd : SlotIx) (n : Nat) : (s.readField rd n).srcLen = s.srcLen :=
  rfl
@[simp] theorem State.readField_rnib (s : State) (rd : SlotIx) (n : Nat) : (s.readField rd n).rnib = s.rnib + BitVec.ofNat 64 n :=
  rfl
@[simp] theorem State.readField_dstBase (s : State) (rd : SlotIx) (n : Nat) : (s.readField rd n).dstBase = s.dstBase :=
  rfl
@[simp] theorem State.readField_dstCap (s : State) (rd : SlotIx) (n : Nat) : (s.readField rd n).dstCap = s.dstCap :=
  rfl
@[simp] theorem State.readField_wnib (s : State) (rd : SlotIx) (n : Nat) : (s.readField rd n).wnib = s.wnib := rfl
@[simp] theorem State.readField_valBase (s : State) (rd : SlotIx) (n : Nat) : (s.readField rd n).valBase = s.valBase :=
  rfl
@[simp] theorem State.readField_valCount (s : State) (rd : SlotIx) (n : Nat) : (s.readField rd n).valCount = s.valCount :=
  rfl
@[simp] theorem State.readField_outBase (s : State) (rd : SlotIx) (n : Nat) : (s.readField rd n).outBase = s.outBase :=
  rfl
@[simp] theorem State.readField_outCap (s : State) (rd : SlotIx) (n : Nat) : (s.readField rd n).outCap = s.outCap :=
  rfl
@[simp] theorem State.readField_outLen (s : State) (rd : SlotIx) (n : Nat) : (s.readField rd n).outLen = s.outLen :=
  rfl
@[simp] theorem State.readField_acc (s : State) (rd : SlotIx) (n : Nat) : (s.readField rd n).acc = s.acc := rfl
@[simp] theorem State.readField_limit (s : State) (rd : SlotIx) (n : Nat) : (s.readField rd n).limit = s.limit := rfl
@[simp] theorem State.readField_mode (s : State) (rd : SlotIx) (n : Nat) : (s.readField rd n).mode = s.mode := rfl
@[simp] theorem State.readField_status (s : State) (rd : SlotIx) (n : Nat) : (s.readField rd n).status = s.status :=
  rfl
@[simp] theorem State.readField_einfo (s : State) (rd : SlotIx) (n : Nat) : (s.readField rd n).einfo = s.einfo := rfl
@[simp] theorem State.readField_nvals (s : State) (rd : SlotIx) (n : Nat) : (s.readField rd n).nvals = s.nvals := rfl
@[simp] theorem State.readField_nbytes (s : State) (rd : SlotIx) (n : Nat) : (s.readField rd n).nbytes = s.nbytes :=
  rfl
@[simp] theorem State.readField_zm (s : State) (rd : SlotIx) (n : Nat) : (s.readField rd n).zm = s.zm := rfl
@[simp] theorem State.readField_nw (s : State) (rd : SlotIx) (n : Nat) : (s.readField rd n).nw = s.nw := rfl
@[simp] theorem State.readField_hfmt (s : State) (rd : SlotIx) (n : Nat) : (s.readField rd n).hfmt = s.hfmt := rfl
@[simp] theorem State.readField_hnb (s : State) (rd : SlotIx) (n : Nat) : (s.readField rd n).hnb = s.hnb := rfl
@[simp] theorem State.readField_hinit (s : State) (rd : SlotIx) (n : Nat) : (s.readField rd n).hinit = s.hinit := rfl
@[simp] theorem State.readField_hmult (s : State) (rd : SlotIx) (n : Nat) : (s.readField rd n).hmult = s.hmult := rfl
@[simp] theorem State.readField_hstate (s : State) (rd : SlotIx) (n : Nat) : (s.readField rd n).hstate = s.hstate :=
  rfl
@[simp] theorem State.readField_cmd (s : State) (rd : SlotIx) (n : Nat) : (s.readField rd n).cmd = s.cmd := rfl
@[simp] theorem State.readField_hasXor (s : State) (rd : SlotIx) (n : Nat) : (s.readField rd n).hasXor = s.hasXor :=
  rfl
@[simp] theorem State.readField_mem (s : State) (rd : SlotIx) (n : Nat) : (s.readField rd n).mem = s.mem := rfl
@[simp] theorem State.readField_host (s : State) (rd : SlotIx) (n : Nat) : (s.readField rd n).host = s.host := rfl
@[simp] theorem State.readField_hostData (s : State) (rd : SlotIx) (n : Nat) : (s.readField rd n).hostData = s.hostData :=
  rfl

/-! ### `State.writeField` -/

@[simp] theorem State.writeField_x (s : State) (rs : SlotIx) (n : Nat) : (s.writeField rs n).x = s.x := rfl
@[simp] theorem State.writeField_srcBase (s : State) (rs : SlotIx) (n : Nat) : (s.writeField rs n).srcBase = s.srcBase :=
  rfl
@[simp] theorem State.writeField_srcLen (s : State) (rs : SlotIx) (n : Nat) : (s.writeField rs n).srcLen = s.srcLen :=
  rfl
@[simp] theorem State.writeField_rnib (s : State) (rs : SlotIx) (n : Nat) : (s.writeField rs n).rnib = s.rnib := rfl
@[simp] theorem State.writeField_dstBase (s : State) (rs : SlotIx) (n : Nat) : (s.writeField rs n).dstBase = s.dstBase :=
  rfl
@[simp] theorem State.writeField_dstCap (s : State) (rs : SlotIx) (n : Nat) : (s.writeField rs n).dstCap = s.dstCap :=
  rfl
@[simp] theorem State.writeField_wnib (s : State) (rs : SlotIx) (n : Nat) : (s.writeField rs n).wnib = s.wnib + BitVec.ofNat 64 n :=
  rfl
@[simp] theorem State.writeField_valBase (s : State) (rs : SlotIx) (n : Nat) : (s.writeField rs n).valBase = s.valBase :=
  rfl
@[simp] theorem State.writeField_valCount (s : State) (rs : SlotIx) (n : Nat) : (s.writeField rs n).valCount = s.valCount :=
  rfl
@[simp] theorem State.writeField_outBase (s : State) (rs : SlotIx) (n : Nat) : (s.writeField rs n).outBase = s.outBase :=
  rfl
@[simp] theorem State.writeField_outCap (s : State) (rs : SlotIx) (n : Nat) : (s.writeField rs n).outCap = s.outCap :=
  rfl
@[simp] theorem State.writeField_outLen (s : State) (rs : SlotIx) (n : Nat) : (s.writeField rs n).outLen = s.outLen :=
  rfl
@[simp] theorem State.writeField_acc (s : State) (rs : SlotIx) (n : Nat) : (s.writeField rs n).acc = s.acc := rfl
@[simp] theorem State.writeField_limit (s : State) (rs : SlotIx) (n : Nat) : (s.writeField rs n).limit = s.limit := rfl
@[simp] theorem State.writeField_mode (s : State) (rs : SlotIx) (n : Nat) : (s.writeField rs n).mode = s.mode := rfl
@[simp] theorem State.writeField_status (s : State) (rs : SlotIx) (n : Nat) : (s.writeField rs n).status = s.status :=
  rfl
@[simp] theorem State.writeField_einfo (s : State) (rs : SlotIx) (n : Nat) : (s.writeField rs n).einfo = s.einfo := rfl
@[simp] theorem State.writeField_nvals (s : State) (rs : SlotIx) (n : Nat) : (s.writeField rs n).nvals = s.nvals := rfl
@[simp] theorem State.writeField_nbytes (s : State) (rs : SlotIx) (n : Nat) : (s.writeField rs n).nbytes = s.nbytes :=
  rfl
@[simp] theorem State.writeField_zm (s : State) (rs : SlotIx) (n : Nat) : (s.writeField rs n).zm = s.zm := rfl
@[simp] theorem State.writeField_nw (s : State) (rs : SlotIx) (n : Nat) : (s.writeField rs n).nw = s.nw := rfl
@[simp] theorem State.writeField_hfmt (s : State) (rs : SlotIx) (n : Nat) : (s.writeField rs n).hfmt = s.hfmt := rfl
@[simp] theorem State.writeField_hnb (s : State) (rs : SlotIx) (n : Nat) : (s.writeField rs n).hnb = s.hnb := rfl
@[simp] theorem State.writeField_hinit (s : State) (rs : SlotIx) (n : Nat) : (s.writeField rs n).hinit = s.hinit := rfl
@[simp] theorem State.writeField_hmult (s : State) (rs : SlotIx) (n : Nat) : (s.writeField rs n).hmult = s.hmult := rfl
@[simp] theorem State.writeField_hstate (s : State) (rs : SlotIx) (n : Nat) : (s.writeField rs n).hstate = s.hstate :=
  rfl
@[simp] theorem State.writeField_cmd (s : State) (rs : SlotIx) (n : Nat) : (s.writeField rs n).cmd = s.cmd := rfl
@[simp] theorem State.writeField_hasXor (s : State) (rs : SlotIx) (n : Nat) : (s.writeField rs n).hasXor = s.hasXor :=
  rfl
@[simp] theorem State.writeField_mem (s : State) (rs : SlotIx) (n : Nat) : (s.writeField rs n).mem = s.mem.nibWrite s.dstBase.toNat s.wnib.toNat n (s.slot rs) :=
  rfl
@[simp] theorem State.writeField_host (s : State) (rs : SlotIx) (n : Nat) : (s.writeField rs n).host = s.host := rfl
@[simp] theorem State.writeField_hostData (s : State) (rs : SlotIx) (n : Nat) : (s.writeField rs n).hostData = s.hostData :=
  rfl

/-! ### `State.packBlock` -/

@[simp] theorem State.packBlock_x (s : State) : (s.packBlock).x = s.x := rfl
@[simp] theorem State.packBlock_srcBase (s : State) : (s.packBlock).srcBase = s.srcBase := rfl
@[simp] theorem State.packBlock_srcLen (s : State) : (s.packBlock).srcLen = s.srcLen := rfl
@[simp] theorem State.packBlock_rnib (s : State) : (s.packBlock).rnib = s.rnib := rfl
@[simp] theorem State.packBlock_dstBase (s : State) : (s.packBlock).dstBase = s.dstBase := rfl
@[simp] theorem State.packBlock_dstCap (s : State) : (s.packBlock).dstCap = s.dstCap := rfl
@[simp] theorem State.packBlock_wnib (s : State) : (s.packBlock).wnib = cursorAt (byteOffset s.wnib + blockSize (blockNibbles s.x) (zeroMask s.x)) :=
  rfl
@[simp] theorem State.packBlock_valBase (s : State) : (s.packBlock).valBase = s.valBase := rfl
@[simp] theorem State.packBlock_valCount (s : State) : (s.packBlock).valCount = s.valCount := rfl
@[simp] theorem State.packBlock_outBase (s : State) : (s.packBlock).outBase = s.outBase := rfl
@[simp] theorem State.packBlock_outCap (s : State) : (s.packBlock).outCap = s.outCap := rfl
@[simp] theorem State.packBlock_outLen (s : State) : (s.packBlock).outLen = s.outLen := rfl
@[simp] theorem State.packBlock_acc (s : State) : (s.packBlock).acc = s.acc := rfl
@[simp] theorem State.packBlock_limit (s : State) : (s.packBlock).limit = s.limit := rfl
@[simp] theorem State.packBlock_mode (s : State) : (s.packBlock).mode = s.mode := rfl
@[simp] theorem State.packBlock_status (s : State) : (s.packBlock).status = s.status := rfl
@[simp] theorem State.packBlock_einfo (s : State) : (s.packBlock).einfo = s.einfo := rfl
@[simp] theorem State.packBlock_nvals (s : State) : (s.packBlock).nvals = s.nvals := rfl
@[simp] theorem State.packBlock_nbytes (s : State) : (s.packBlock).nbytes = s.nbytes := rfl
@[simp] theorem State.packBlock_zm (s : State) : (s.packBlock).zm = zeroMask s.x := rfl
@[simp] theorem State.packBlock_nw (s : State) : (s.packBlock).nw = BitVec.ofNat 5 (blockNibbles s.x) := rfl
@[simp] theorem State.packBlock_hfmt (s : State) : (s.packBlock).hfmt = s.hfmt := rfl
@[simp] theorem State.packBlock_hnb (s : State) : (s.packBlock).hnb = s.hnb := rfl
@[simp] theorem State.packBlock_hinit (s : State) : (s.packBlock).hinit = s.hinit := rfl
@[simp] theorem State.packBlock_hmult (s : State) : (s.packBlock).hmult = s.hmult := rfl
@[simp] theorem State.packBlock_hstate (s : State) : (s.packBlock).hstate = s.hstate := rfl
@[simp] theorem State.packBlock_cmd (s : State) : (s.packBlock).cmd = s.cmd := rfl
@[simp] theorem State.packBlock_hasXor (s : State) : (s.packBlock).hasXor = s.hasXor := rfl
@[simp] theorem State.packBlock_mem (s : State) : (s.packBlock).mem = s.mem.writeBytes (s.dstBase.toNat + byteOffset s.wnib) (encodeBlock s.x) :=
  rfl
@[simp] theorem State.packBlock_host (s : State) : (s.packBlock).host = s.host := rfl
@[simp] theorem State.packBlock_hostData (s : State) : (s.packBlock).hostData = s.hostData := rfl

/-! ### `State.unpackBlock` -/

@[simp] theorem State.unpackBlock_x (s : State) (b : BlockHeader) : (s.unpackBlock b).x = decodeBlock s.mem s.srcBase.toNat b :=
  rfl
@[simp] theorem State.unpackBlock_srcBase (s : State) (b : BlockHeader) : (s.unpackBlock b).srcBase = s.srcBase := rfl
@[simp] theorem State.unpackBlock_srcLen (s : State) (b : BlockHeader) : (s.unpackBlock b).srcLen = s.srcLen := rfl
@[simp] theorem State.unpackBlock_rnib (s : State) (b : BlockHeader) : (s.unpackBlock b).rnib = cursorAt b.stop := rfl
@[simp] theorem State.unpackBlock_dstBase (s : State) (b : BlockHeader) : (s.unpackBlock b).dstBase = s.dstBase := rfl
@[simp] theorem State.unpackBlock_dstCap (s : State) (b : BlockHeader) : (s.unpackBlock b).dstCap = s.dstCap := rfl
@[simp] theorem State.unpackBlock_wnib (s : State) (b : BlockHeader) : (s.unpackBlock b).wnib = s.wnib := rfl
@[simp] theorem State.unpackBlock_valBase (s : State) (b : BlockHeader) : (s.unpackBlock b).valBase = s.valBase := rfl
@[simp] theorem State.unpackBlock_valCount (s : State) (b : BlockHeader) : (s.unpackBlock b).valCount = s.valCount :=
  rfl
@[simp] theorem State.unpackBlock_outBase (s : State) (b : BlockHeader) : (s.unpackBlock b).outBase = s.outBase := rfl
@[simp] theorem State.unpackBlock_outCap (s : State) (b : BlockHeader) : (s.unpackBlock b).outCap = s.outCap := rfl
@[simp] theorem State.unpackBlock_outLen (s : State) (b : BlockHeader) : (s.unpackBlock b).outLen = s.outLen := rfl
@[simp] theorem State.unpackBlock_acc (s : State) (b : BlockHeader) : (s.unpackBlock b).acc = s.acc := rfl
@[simp] theorem State.unpackBlock_limit (s : State) (b : BlockHeader) : (s.unpackBlock b).limit = s.limit := rfl
@[simp] theorem State.unpackBlock_mode (s : State) (b : BlockHeader) : (s.unpackBlock b).mode = s.mode := rfl
@[simp] theorem State.unpackBlock_status (s : State) (b : BlockHeader) : (s.unpackBlock b).status = s.status := rfl
@[simp] theorem State.unpackBlock_einfo (s : State) (b : BlockHeader) : (s.unpackBlock b).einfo = s.einfo := rfl
@[simp] theorem State.unpackBlock_nvals (s : State) (b : BlockHeader) : (s.unpackBlock b).nvals = s.nvals := rfl
@[simp] theorem State.unpackBlock_nbytes (s : State) (b : BlockHeader) : (s.unpackBlock b).nbytes = s.nbytes := rfl
@[simp] theorem State.unpackBlock_zm (s : State) (b : BlockHeader) : (s.unpackBlock b).zm = b.mask := rfl
@[simp] theorem State.unpackBlock_nw (s : State) (b : BlockHeader) : (s.unpackBlock b).nw = BitVec.ofNat 5 b.n := rfl
@[simp] theorem State.unpackBlock_hfmt (s : State) (b : BlockHeader) : (s.unpackBlock b).hfmt = s.hfmt := rfl
@[simp] theorem State.unpackBlock_hnb (s : State) (b : BlockHeader) : (s.unpackBlock b).hnb = s.hnb := rfl
@[simp] theorem State.unpackBlock_hinit (s : State) (b : BlockHeader) : (s.unpackBlock b).hinit = s.hinit := rfl
@[simp] theorem State.unpackBlock_hmult (s : State) (b : BlockHeader) : (s.unpackBlock b).hmult = s.hmult := rfl
@[simp] theorem State.unpackBlock_hstate (s : State) (b : BlockHeader) : (s.unpackBlock b).hstate = s.hstate := rfl
@[simp] theorem State.unpackBlock_cmd (s : State) (b : BlockHeader) : (s.unpackBlock b).cmd = s.cmd := rfl
@[simp] theorem State.unpackBlock_hasXor (s : State) (b : BlockHeader) : (s.unpackBlock b).hasXor = s.hasXor := rfl
@[simp] theorem State.unpackBlock_mem (s : State) (b : BlockHeader) : (s.unpackBlock b).mem = s.mem := rfl
@[simp] theorem State.unpackBlock_host (s : State) (b : BlockHeader) : (s.unpackBlock b).host = s.host := rfl
@[simp] theorem State.unpackBlock_hostData (s : State) (b : BlockHeader) : (s.unpackBlock b).hostData = s.hostData :=
  rfl

/-! ### `State.hardwareReset` -/

@[simp] theorem State.hardwareReset_x (s : State) : (s.hardwareReset).x = State.reset.x := rfl
@[simp] theorem State.hardwareReset_srcBase (s : State) : (s.hardwareReset).srcBase = State.reset.srcBase := rfl
@[simp] theorem State.hardwareReset_srcLen (s : State) : (s.hardwareReset).srcLen = State.reset.srcLen := rfl
@[simp] theorem State.hardwareReset_rnib (s : State) : (s.hardwareReset).rnib = State.reset.rnib := rfl
@[simp] theorem State.hardwareReset_dstBase (s : State) : (s.hardwareReset).dstBase = State.reset.dstBase := rfl
@[simp] theorem State.hardwareReset_dstCap (s : State) : (s.hardwareReset).dstCap = State.reset.dstCap := rfl
@[simp] theorem State.hardwareReset_wnib (s : State) : (s.hardwareReset).wnib = State.reset.wnib := rfl
@[simp] theorem State.hardwareReset_valBase (s : State) : (s.hardwareReset).valBase = State.reset.valBase := rfl
@[simp] theorem State.hardwareReset_valCount (s : State) : (s.hardwareReset).valCount = State.reset.valCount := rfl
@[simp] theorem State.hardwareReset_outBase (s : State) : (s.hardwareReset).outBase = State.reset.outBase := rfl
@[simp] theorem State.hardwareReset_outCap (s : State) : (s.hardwareReset).outCap = State.reset.outCap := rfl
@[simp] theorem State.hardwareReset_outLen (s : State) : (s.hardwareReset).outLen = State.reset.outLen := rfl
@[simp] theorem State.hardwareReset_acc (s : State) : (s.hardwareReset).acc = State.reset.acc := rfl
@[simp] theorem State.hardwareReset_limit (s : State) : (s.hardwareReset).limit = State.reset.limit := rfl
@[simp] theorem State.hardwareReset_mode (s : State) : (s.hardwareReset).mode = State.reset.mode := rfl
@[simp] theorem State.hardwareReset_status (s : State) : (s.hardwareReset).status = State.reset.status := rfl
@[simp] theorem State.hardwareReset_einfo (s : State) : (s.hardwareReset).einfo = State.reset.einfo := rfl
@[simp] theorem State.hardwareReset_nvals (s : State) : (s.hardwareReset).nvals = State.reset.nvals := rfl
@[simp] theorem State.hardwareReset_nbytes (s : State) : (s.hardwareReset).nbytes = State.reset.nbytes := rfl
@[simp] theorem State.hardwareReset_zm (s : State) : (s.hardwareReset).zm = State.reset.zm := rfl
@[simp] theorem State.hardwareReset_nw (s : State) : (s.hardwareReset).nw = State.reset.nw := rfl
@[simp] theorem State.hardwareReset_hfmt (s : State) : (s.hardwareReset).hfmt = State.reset.hfmt := rfl
@[simp] theorem State.hardwareReset_hnb (s : State) : (s.hardwareReset).hnb = State.reset.hnb := rfl
@[simp] theorem State.hardwareReset_hinit (s : State) : (s.hardwareReset).hinit = State.reset.hinit := rfl
@[simp] theorem State.hardwareReset_hmult (s : State) : (s.hardwareReset).hmult = State.reset.hmult := rfl
@[simp] theorem State.hardwareReset_hstate (s : State) : (s.hardwareReset).hstate = State.reset.hstate := rfl
@[simp] theorem State.hardwareReset_cmd (s : State) : (s.hardwareReset).cmd = State.reset.cmd := rfl
@[simp] theorem State.hardwareReset_hasXor (s : State) : (s.hardwareReset).hasXor = s.hasXor := rfl
@[simp] theorem State.hardwareReset_mem (s : State) : (s.hardwareReset).mem = s.mem := rfl
@[simp] theorem State.hardwareReset_host (s : State) : (s.hardwareReset).host = s.host := rfl
@[simp] theorem State.hardwareReset_hostData (s : State) : (s.hardwareReset).hostData = s.hostData := rfl

end Sys2Proof.Machine
end

