-- ==== Sys2Proof/Laws/Ops.lean ====
section
/-! SUPPORT. One lemma per shared operation of the commands: what it can answer, what it leaves unchanged. -/

namespace Sys2Proof.Machine

/-! ### Slot registers -/

/-- Reading a slot register after writing one. -/
theorem State.slot_setSlot (s : State) (r q : SlotIx) (v : Word) :
    (s.setSlot r v).slot q = if q = r then v else s.slot q := by
  simp only [State.slot, State.setSlot, Vector.getElem_set, ← BitVec.toNat_inj, eq_comm (a := r.toNat)]

@[simp] theorem State.slot_setSlot_same (s : State) (r : SlotIx) (v : Word) : (s.setSlot r v).slot r = v := by
  simp [State.slot_setSlot]

/-- The eight values of a list of eight, as a list again. -/
theorem slotsOfList_toList {l : List Word} (h : l.length = 8) : (slotsOfList l).toList = l := by
  match l, h with
  | [a, b, c, d, e, f, g, i], _ => rfl

/-- The slots made from a block's own list of values are the block. -/
theorem slotsOfList_of_toList (x : Slots) : slotsOfList x.toList = x := by
  apply Vector.toList_inj.1
  exact slotsOfList_toList (by simp)

/-! ### Preconditions and endings -/

/-- `State.using` answers a next state only when no slice has a problem, and then it is what follows. -/
theorem State.using_eq_next {s t : State} {slices : List Slice} {k : Result} (h : s.using slices k = .next t) :
    slices.findSome? s.sliceProblem = none ∧ k = .next t := by
  simp only [State.using] at h
  split at h
  · cases h
  · exact ⟨‹_›, h⟩

/-- Without a problem `State.using` is what follows. -/
theorem State.using_of_none {s : State} {slices : List Slice} (h : ∀ sl ∈ slices, s.sliceProblem sl = none) (k : Result) :
    s.using slices k = k := by
  have : slices.findSome? s.sliceProblem = none := List.findSome?_eq_none_iff.2 h
  simp [State.using, this]

/-- A slice has no problem exactly under the preconditions of R75 (a), (b). -/
theorem State.sliceProblem_eq_none {s : State} {sl : Slice} :
    s.sliceProblem sl = none ↔
      (s.extent sl).1 + (s.extent sl).2 ≤ Config.addressSpace ∧
        (sl.isBounded = true → (s.extent sl).2 ≤ Config.maxSliceBytes) := by
  simp only [State.sliceProblem]
  split
  · simp; omega
  · split <;> simp_all

/-- `State.emit` answers a next state only in two ways: no room, or room and no overlap. -/
theorem State.emit_eq_next {s t onFull commit : State} {values : Slice} {bytes : List Byte}
    (h : s.emit values bytes onFull commit = .next t) :
    (byteOffset s.wnib + bytes.length > s.dstCap.toNat ∧ t = onFull) ∨
      (byteOffset s.wnib + bytes.length ≤ s.dstCap.toNat ∧
        s.writesInto (s.dstBase.toNat + byteOffset s.wnib) bytes.length values = false ∧ t = commit) := by
  simp only [State.emit] at h
  split at h
  · exact .inl ⟨‹_›, by injection h with h; exact h.symm⟩
  · split at h
    · cases h
    · injection h with h
      exact .inr ⟨by omega, by simp_all, h.symm⟩

/-! ### The sink -/

/-- A push changes memory, `OUT_LEN` and `ACC` only. -/
theorem State.sinkPush_frame (s : State) (md : SinkMode) (v : Word) :
    s.sinkPush md v =
      { s with mem := (s.sinkPush md v).mem, outLen := (s.sinkPush md v).outLen, acc := (s.sinkPush md v).acc } := by
  cases md <;> rfl

@[simp] theorem State.sinkPush_outLen (s : State) (md : SinkMode) (v : Word) :
    (s.sinkPush md v).outLen = s.outLen + 1 := by
  cases md <;> rfl

@[simp] theorem State.sinkPush_outBase (s : State) (md : SinkMode) (v : Word) :
    (s.sinkPush md v).outBase = s.outBase := by
  cases md <;> rfl

/-- The accumulator after a push (R192). -/
theorem State.sinkPush_acc (s : State) (md : SinkMode) (v : Word) :
    (s.sinkPush md v).acc =
      match md with
      | .raw => s.acc
      | .delta => s.acc + v
      | .xor => s.acc ^^^ v := by
  cases md <;> rfl

/-- The element a push appends (R192). -/
def sinkValue (md : SinkMode) (a v : Word) : Word :=
  match md with
  | .raw => v
  | .delta => a + v
  | .xor => a ^^^ v

/-- Memory after a push: the element after the last. -/
theorem State.sinkPush_mem (s : State) (md : SinkMode) (v : Word) :
    (s.sinkPush md v).mem = s.mem.writeElem (s.outBase.toNat + 8 * s.outLen.toNat) (sinkValue md s.acc v) := by
  cases md <;> rfl

/-- A push keeps the canonical form. -/
theorem State.sinkPush_wf {s : State} (h : s.mem.wf) (md : SinkMode) (v : Word) : (s.sinkPush md v).mem.wf := by
  rw [State.sinkPush_mem]; exact Memory.writeElem_wf h _ _

/-- Pushing a list changes memory, `OUT_LEN` and `ACC` only. -/
theorem State.pushAll_frame (s : State) (md : SinkMode) (l : List Word) :
    s.pushAll md l =
      { s with mem := (s.pushAll md l).mem, outLen := (s.pushAll md l).outLen, acc := (s.pushAll md l).acc } := by
  induction l generalizing s with
  | nil => rfl
  | cons v rest ih =>
    refine (ih (s.sinkPush md v)).trans ?_
    cases md <;> rfl

/-- Pushing a list keeps the canonical form. -/
theorem State.pushAll_wf {s : State} (h : s.mem.wf) (md : SinkMode) (l : List Word) : (s.pushAll md l).mem.wf := by
  induction l generalizing s with
  | nil => exact h
  | cons v rest ih => exact ih (State.sinkPush_wf h md v)

/-- `OUT_LEN` counts the values pushed. -/
theorem State.pushAll_outLen (s : State) (md : SinkMode) (l : List Word) :
    (s.pushAll md l).outLen = s.outLen + BitVec.ofNat 64 l.length := by
  induction l generalizing s with
  | nil => simp [State.pushAll]
  | cons v rest ih =>
    simp only [State.pushAll, ih, State.sinkPush_outLen, List.length_cons]
    rw [BitVec.add_assoc]
    congr 1
    apply BitVec.eq_of_toNat_eq
    simp [Nat.add_comm]

@[simp] theorem State.pushAll_outBase (s : State) (md : SinkMode) (l : List Word) :
    (s.pushAll md l).outBase = s.outBase := by
  rw [State.pushAll_frame]

@[simp] theorem forwardList_length (md : SinkMode) (a : Word) (l : List Word) : (forwardList md a l).length = l.length := by
  induction l generalizing a with
  | nil => rfl
  | cons v rest ih => simp [forwardList, ih]

/-! ### The frame of the shared commit phases -/

theorem State.stageWritten_frame (s : State) (t : List Word) :
    s.stageWritten t =
      { s with x := (s.stageWritten t).x, zm := (s.stageWritten t).zm, nw := (s.stageWritten t).nw } := by
  simp only [State.stageWritten]; split <;> rfl

theorem State.stageRead_frame (s : State) (l : List BlockHeader) :
    s.stageRead l = { s with x := (s.stageRead l).x, zm := (s.stageRead l).zm, nw := (s.stageRead l).nw } := by
  simp only [State.stageRead]; split <;> rfl

/-- The commit phase of the encoders writes memory, `WNIB`, `ACC`, the staging registers and the two counts only. -/
theorem State.commitEncoded_frame (s : State) (t : List Word) (bytes : List Byte) (a : Word) :
    s.commitEncoded t bytes a =
      { s with
        x := (s.commitEncoded t bytes a).x, zm := (s.commitEncoded t bytes a).zm, nw := (s.commitEncoded t bytes a).nw
        mem := s.mem.writeBytes (s.dstBase.toNat + byteOffset s.wnib) bytes
        wnib := cursorAt (byteOffset s.wnib + bytes.length), acc := a
        nvals := BitVec.ofNat 64 t.length, nbytes := BitVec.ofNat 64 bytes.length } := by
  simp only [State.commitEncoded]
  rw [State.stageWritten_frame]

/-- The commit phase of the decoders writes memory, `OUT_LEN`, `ACC`, `RNIB`, the staging registers and the two counts
only. -/
theorem State.commitDecoded_frame (s : State) (md : SinkMode) (i : StreamInfo) :
    s.commitDecoded md i =
      { s with
        x := (s.commitDecoded md i).x, zm := (s.commitDecoded md i).zm, nw := (s.commitDecoded md i).nw
        mem := (s.commitDecoded md i).mem, outLen := (s.commitDecoded md i).outLen, acc := (s.commitDecoded md i).acc
        rnib := cursorAt i.stop, nvals := BitVec.ofNat 64 i.deliver
        nbytes := BitVec.ofNat 64 (i.stop - byteOffset s.rnib) } := by
  simp only [State.commitDecoded]
  rw [State.pushAll_frame, State.stageRead_frame]

/-- The walk over a block reports where it starts and a width of at most 16 nibbles. -/
theorem checkBlock_ok {m : Memory} {base len e : Nat} {b : BlockHeader} (h : checkBlock m base len e = .ok b) :
    b = ⟨e, (m.read (base + e)).toNat, m.read (base + e + 1)⟩ ∧ b.n ≤ Config.maxNibbles ∧ b.stop ≤ len := by
  simp only [checkBlock] at h
  split at h
  · cases h
  · split at h
    · cases h
    · split at h
      · cases h
      · injection h with h
        subst h
        exact ⟨rfl, by simp only; omega, by simp only [BlockHeader.stop]; omega⟩

/-- Every block of a walk has a width of at most 16 nibbles, and the walk stops inside the slice. -/
theorem checkBlocks_ok {m : Memory} {base len g e : Nat} {bs : List BlockHeader} {stop : Nat}
    (he : e ≤ len) (h : checkBlocks m base len g e = .ok (bs, stop)) :
    bs.length = g ∧ (∀ b ∈ bs, b.n ≤ Config.maxNibbles) ∧ e ≤ stop ∧ stop ≤ len := by
  induction g generalizing e bs with
  | zero =>
    simp only [checkBlocks, Except.ok.injEq, Prod.mk.injEq] at h
    obtain ⟨rfl, rfl⟩ := h
    simp [he]
  | succ g ih =>
    simp only [checkBlocks] at h
    split at h
    · cases h
    · rename_i b hb
      split at h
      · cases h
      · rename_i bs' stop' hbs
        simp only [Except.ok.injEq, Prod.mk.injEq] at h
        obtain ⟨rfl, rfl⟩ := h
        obtain ⟨hbe, hn, hstop⟩ := checkBlock_ok hb
        obtain ⟨hlen, hall, hle, hlt⟩ := ih hstop hbs
        have hstart : b.start = e := by rw [hbe]
        refine ⟨by simp [hlen], ?_, ?_, hlt⟩
        · intro c hc
          rcases List.mem_cons.1 hc with rfl | hc
          · exact hn
          · exact hall c hc
        · simp only [BlockHeader.stop, blockSize] at hle; omega

end Sys2Proof.Machine
end

