-- ==== Sys2Proof/Laws/PerInstr.lean ====
section
/-! SUPPORT. Facts about every instruction as syntax, one lemma per constructor. -/

namespace Sys2Proof.Laws

/-- The opcode of a command (30_encoding.md R105). -/
def opcodeOf : Instr → Byte
  | .nop => 0x00
  | .bitw _ _ => 0x01
  | .zzenc _ _ => 0x02
  | .zzdec _ _ => 0x03
  | .rdnib _ _ => 0x04
  | .wrnib _ _ => 0x05
  | .scan => 0x08
  | .pack => 0x09
  | .unpack => 0x0A
  | .sreset => 0x10
  | .push _ => 0x11
  | .encode => 0x12
  | .decode => 0x13
  | .henc => 0x18
  | .hdec => 0x19

theorem assemble_op (op : Byte) (rd rs : SlotIx) (n : NibCount) : CommandWord.op (assemble op rd rs n) = op := by
  simp only [CommandWord.op, assemble]
  rw [BitVec.extractLsb'_append_eq_right]

theorem assemble_zero (op : Byte) (rd rs : SlotIx) (n : NibCount) : CommandWord.zero (assemble op rd rs n) = 0 := by
  simp only [CommandWord.zero, assemble]
  rw [BitVec.extractLsb'_append_eq_of_le (by omega), BitVec.extractLsb'_append_eq_of_le (by omega),
    BitVec.extractLsb'_append_eq_of_le (by omega), BitVec.extractLsb'_append_eq_of_le (by omega)]
  rfl

/-- The word of an instruction holds its opcode in bits 7:0 and zeros in bits 31:19 (R100, R105). -/
def EncodingFields.Statement (i : Instr) : Prop :=
  CommandWord.op (encode i) = opcodeOf i ∧ CommandWord.zero (encode i) = 0

theorem EncodingFields.nop : EncodingFields.Statement .nop := ⟨assemble_op .., assemble_zero ..⟩

theorem EncodingFields.bitw (rd rs : SlotIx) : EncodingFields.Statement (.bitw rd rs) :=
  ⟨assemble_op .., assemble_zero ..⟩

theorem EncodingFields.zzenc (rd rs : SlotIx) : EncodingFields.Statement (.zzenc rd rs) :=
  ⟨assemble_op .., assemble_zero ..⟩

theorem EncodingFields.zzdec (rd rs : SlotIx) : EncodingFields.Statement (.zzdec rd rs) :=
  ⟨assemble_op .., assemble_zero ..⟩

theorem EncodingFields.rdnib (rd : SlotIx) (n : NibCount) : EncodingFields.Statement (.rdnib rd n) :=
  ⟨assemble_op .., assemble_zero ..⟩

theorem EncodingFields.wrnib (rs : SlotIx) (n : NibCount) : EncodingFields.Statement (.wrnib rs n) :=
  ⟨assemble_op .., assemble_zero ..⟩

theorem EncodingFields.scan : EncodingFields.Statement .scan := ⟨assemble_op .., assemble_zero ..⟩

theorem EncodingFields.pack : EncodingFields.Statement .pack := ⟨assemble_op .., assemble_zero ..⟩

theorem EncodingFields.unpack : EncodingFields.Statement .unpack := ⟨assemble_op .., assemble_zero ..⟩

theorem EncodingFields.sreset : EncodingFields.Statement .sreset := ⟨assemble_op .., assemble_zero ..⟩

theorem EncodingFields.push (rs : SlotIx) : EncodingFields.Statement (.push rs) := ⟨assemble_op .., assemble_zero ..⟩

theorem EncodingFields.encode : EncodingFields.Statement .encode := ⟨assemble_op .., assemble_zero ..⟩

theorem EncodingFields.decode : EncodingFields.Statement .decode := ⟨assemble_op .., assemble_zero ..⟩

theorem EncodingFields.henc : EncodingFields.Statement .henc := ⟨assemble_op .., assemble_zero ..⟩

theorem EncodingFields.hdec : EncodingFields.Statement .hdec := ⟨assemble_op .., assemble_zero ..⟩

end Sys2Proof.Laws
end

