-- ==== Sys2Proof/Tests/Slice0.lean ====
section
/-! SUPPORT. Tests: the encodings written out from 30_encoding.md, one or two steps per command with results taken from
95_test_vectors.md, and for every obligation with hypotheses a concrete state that meets them, branch by branch. -/

namespace Sys2Proof.Tests

open Sys2Proof.Machine Sys2Proof.Safety

/-! ### Helpers -/

/-- The next state of an outcome. -/
def after (r : Result) : Option State :=
  match r with
  | .next t => some t
  | .fault _ => none
  | .refused _ => none

/-- The refusal of an outcome. -/
def refusal (r : Result) : Option Refusal :=
  match r with
  | .next _ => none
  | .fault _ => none
  | .refused q => some q

/-- Kind, sub-cause and frame state a command ends with. -/
def report (r : Result) : Option (BitVec 3 × Byte × BitVec 4) := (after r).map fun t => (t.status, t.einfo, t.hstate)

theorem next_with {r : Result} {p : State → Bool} (h : (after r).any p = true) : ∃ t, r = .next t ∧ p t = true := by
  cases r with
  | next t => exact ⟨t, rfl, by simpa [after] using h⟩
  | fault f => exact nomatch f
  | refused q => simp [after] at h

/-- Memory that holds the bytes `l` at `a`. -/
def bytesAt (a : Nat) (l : List Byte) : Memory := Memory.writeBytes [] a l

/-- Memory that holds the elements `l` at `a`. -/
def elemsAt (a : Nat) (l : List Word) : Memory := bytesAt a (l.flatMap fun v => leBytes v.toNat 8)

/-- The bytes `l` as the source slice. -/
def sourceState (l : List Byte) : State :=
  { State.reset with mem := bytesAt 0x100 l, srcBase := 0x100, srcLen := BitVec.ofNat 64 l.length }

/-- A destination slice of `cap` bytes that holds `l`. -/
def destinationState (l : List Byte) (cap : Word) : State :=
  { State.reset with mem := bytesAt 0x100 l, dstBase := 0x100, dstCap := cap }

/-! ### Well-formedness and encodings -/

theorem test_wellFormed_rdnib : Instr.wellFormed (.rdnib 7 16) = true ∧ Instr.wellFormed (.rdnib 0 17) = false := by
  decide

theorem test_wellFormed_wrnib : Instr.wellFormed (.wrnib 7 16) = true ∧ Instr.wellFormed (.wrnib 0 31) = false := by
  decide

/-- `SCAN`, `PACK`, `UNPACK`, `NOP`, `SRESET`, `ENCODE`, `DECODE`, `HENC`, `HDEC`: `op` alone (R101, R105). -/
theorem test_decode_format_Z :
    (decode 0b0000000000000_00000_000_000_00000000).toOption = some .nop ∧
      (decode 0b0000000000000_00000_000_000_00001000).toOption = some .scan ∧
      (decode 0b0000000000000_00000_000_000_00001001).toOption = some .pack ∧
      (decode 0b0000000000000_00000_000_000_00001010).toOption = some .unpack ∧
      (decode 0b0000000000000_00000_000_000_00010000).toOption = some .sreset ∧
      (decode 0b0000000000000_00000_000_000_00010010).toOption = some .encode ∧
      (decode 0b0000000000000_00000_000_000_00010011).toOption = some .decode ∧
      (decode 0b0000000000000_00000_000_000_00011000).toOption = some .henc ∧
      (decode 0b0000000000000_00000_000_000_00011001).toOption = some .hdec := by
  decide

/-- `BITW s7, s5`, `ZZENC s1, s6`, `ZZDEC s4, s3` (R102, R105). -/
theorem test_decode_format_RR :
    (decode 0b0000000000000_00000_101_111_00000001).toOption = some (.bitw 7 5) ∧
      (decode 0b0000000000000_00000_110_001_00000010).toOption = some (.zzenc 1 6) ∧
      (decode 0b0000000000000_00000_011_100_00000011).toOption = some (.zzdec 4 3) := by
  decide

/-- `PUSH s6`, `RDNIB s3, 5`, `WRNIB s2, 16` (R103, R104, R105). -/
theorem test_decode_other_formats :
    (decode 0b0000000000000_00000_110_000_00010001).toOption = some (.push 6) ∧
      (decode 0b0000000000000_00101_000_011_00000100).toOption = some (.rdnib 3 5) ∧
      (decode 0b0000000000000_10000_010_000_00000101).toOption = some (.wrnib 2 16) := by
  decide

/-- The illegal words of V-X1. -/
theorem test_illegal_words :
    ([0x07, 0x06, 0x0B, 0x14, 0x1A, 0xFF, 0x109, 0x4008, 0x4001, 0x111, 0x804, 0x105, 0x44004, 0x7C005, 0x80000,
      0x80000009] : List CommandWord).all (fun w => (decode w).toOption == none) = true := by
  decide +kernel

theorem test_decodeTableWord : decodeTableWord 32 0x00041005 = some (.wrnib 2 16) := by decide

/-- The host's next action runs the word. -/
theorem test_withFetchWord :
    (after (step (State.reset.withFetchWord 32 0x00000008))).map (fun t => (t.zm, t.cmd, t.host)) =
      some (0xFF, 0x00000008, []) := by
  decide

/-! ### One command each -/

/-- V-X1: `NOP` clears the report and keeps the rest. -/
theorem test_nop : after (exec .nop { State.reset with status := 2, einfo := 0x22, acc := 9 }) =
    some { State.reset with acc := 9 } := by
  decide

/-- V-B1. -/
theorem test_bitw : (after (exec (.bitw 1 2) { State.reset with x := #v[9, 9, 0x36A, 9, 9, 9, 9, 9] })).map (·.x) =
    some #v[9, 12, 0x36A, 9, 9, 9, 9, 9] := by
  decide

/-- V-B1: the source is also the destination. -/
theorem test_bitw_self : (after (exec (.bitw 7 7) { State.reset with x := #v[0, 0, 0, 0, 0, 0, 0, 0x100] })).map (·.x) =
    some #v[0, 0, 0, 0, 0, 0, 0, 12] := by
  decide

/-- V-B2: the most negative number. -/
theorem test_zzenc :
    (after (exec (.zzenc 1 0) { State.reset with x := #v[0x8000000000000000, 0, 0, 0, 0, 0, 0, 0] })).map (·.x) =
    some #v[0x8000000000000000, 0xFFFFFFFFFFFFFFFF, 0, 0, 0, 0, 0, 0] := by
  decide

/-- V-B2, R135. -/
theorem test_zzdec : (after (exec (.zzdec 5 4) { State.reset with x := #v[0, 0, 0, 0, 3, 0, 0, 0] })).map (·.x) =
    some #v[0, 0, 0, 0, 3, 0xFFFFFFFFFFFFFFFE, 0, 0] := by
  decide

/-- The source of row 7 of V-B3. -/
def rdnibState : State := { sourceState [0xFF, 0xDE, 0xBC, 0x9A, 0x78, 0x56, 0x34, 0x12, 0xF0] with rnib := 1 }

/-- V-B3, row 7: nine bytes for one field. -/
theorem test_rdnib : (after (exec (.rdnib 0 16) rdnibState)).map (fun t => (t.slot 0, t.rnib)) =
    some (0x0123456789ABCDEF, 17) := by
  decide

/-- V-B3, row 8: fifteen nibbles remain. -/
theorem test_rdnib_short : report (exec (.rdnib 0 16) { rdnibState with srcLen := 8 }) = some (2, 0x20, 0) := by decide

/-- The destination of row 1 of V-B4. -/
def wrnibState : State := { destinationState [0, 0, 0] 3 with x := #v[0, 0, 0xABCDE, 0, 0, 0, 0, 0], wnib := 1 }

/-- V-B4, row 1. -/
theorem test_wrnib : (after (exec (.wrnib 2 3) wrnibState)).map (fun t => (t.mem, t.wnib)) =
    some ([(0x100, 0xE0), (0x101, 0xCD)], 4) := by
  decide

/-- V-B4, row 2: neighbours stay. -/
theorem test_wrnib_keeps :
    (after (exec (.wrnib 1 2)
      { destinationState [0x5A, 0x5A, 0x5A] 3 with x := #v[0, 0x1C3, 0, 0, 0, 0, 0, 0], wnib := 2 })).map (·.mem) =
      some (bytesAt 0x100 [0x5A, 0xC3, 0x5A]) := by
  decide

/-- V-K1. -/
theorem test_scan :
    (after (exec .scan { State.reset with x := #v[0x123, 0, 0x456, 0x789, 0, 0xABC, 0, 0xDEF] })).map
      (fun t => (t.zm, t.nw)) = some (0x52, 3) := by
  decide

/-- The example of V-S1, with just enough room. -/
def packState : State := { destinationState [] 3 with x := #v[0, 0, 0, 0, 0, 0, 0, 5] }

/-- V-S1. -/
theorem test_pack : (after (exec .pack packState)).map (fun t => (t.mem, t.wnib, t.zm, t.nw)) =
    some ([(0x100, 0x01), (0x101, 0x7F), (0x102, 0x05)], 6, 0x7F, 1) := by
  decide

/-- V-K1: fifteen nibbles and the pad nibble. -/
theorem test_pack_pad :
    (after (exec .pack
      { destinationState [] 10 with x := #v[0x123, 0, 0x456, 0x789, 0, 0xABC, 0, 0xDEF] })).map (·.mem) =
      some (bytesAt 0x100 [0x03, 0x52, 0x23, 0x61, 0x45, 0x89, 0xC7, 0xAB, 0xEF, 0x0D]) := by
  decide +kernel

/-- V-K2. -/
def unpackState : State := sourceState [0x03, 0xFA, 0x12, 0x50, 0x34]

/-- V-K2, row 1. -/
theorem test_unpack : (after (exec .unpack unpackState)).map (fun t => (t.x, t.zm, t.nw, t.rnib)) =
    some (#v[0x12, 0, 0x345, 0, 0, 0, 0, 0], 0xFA, 3, 10) := by
  decide

/-- V-K2: the width is judged although nothing is stored. -/
theorem test_unpack_width : report (exec .unpack (sourceState [0x11, 0xFF])) = some (4, 0x41, 0) := by decide

/-- V-P1. -/
theorem test_sreset : after (exec .sreset { State.reset with outLen := 10, acc := 1005, status := 1 }) =
    some State.reset := by
  decide

/-- One free element of the output, `DELTA`. -/
def pushState : State :=
  { State.reset with outBase := 0x4000, outCap := 4, outLen := 3, mode := 1, acc := 0xFFFFFFFFFFFFFFFF,
                     x := #v[0, 2, 0, 0, 0, 0, 0, 0] }

/-- V-P1: the sum wraps. -/
theorem test_push : (after (exec (.push 1) pushState)).map (fun t => (t.mem, t.outLen, t.acc)) =
    some ([(0x4018, 1)], 4, 1) := by
  decide

/-- V-P1: an unaligned buffer, little-endian. -/
theorem test_push_bytes :
    (after (exec (.push 0)
      { State.reset with outBase := 0x4001, outCap := 2, outLen := 1,
                         x := #v[0x0102030405060708, 0, 0, 0, 0, 0, 0, 0] })).map (·.mem) =
      some (bytesAt 0x4009 [8, 7, 6, 5, 4, 3, 2, 1]) := by
  decide

/-- V-E5: `DELTA` from 1005, with just enough room. -/
def encodeState : State :=
  { State.reset with mem := elemsAt 0x2000 [1006, 1010, 1010, 2000], valBase := 0x2000, valCount := 4,
                     dstBase := 0x3000, dstCap := 11, mode := 1, acc := 1005 }

/-- The bytes of V-E5. -/
def streamBytes : List Byte := [0x04, 0x00, 0x00, 0x00, 0x03, 0xF4, 0x01, 0x40, 0x00, 0xDE, 0x03]

/-- V-E5: the bytes. -/
theorem test_encode_bytes :
    (after (exec .encode encodeState)).map (fun t => (List.range 11).map fun i => t.mem.read (0x3000 + i)) =
      some streamBytes := by
  decide +kernel

/-- V-E5: the registers. -/
theorem test_encode_registers :
    (after (exec .encode encodeState)).map (fun t => (t.nbytes, t.nvals, t.wnib, t.acc)) = some (11, 4, 22, 2000) ∧
      (after (exec .encode encodeState)).map (fun t => (t.x, t.zm, t.nw)) =
        some (#v[1, 4, 0, 990, 0, 0, 0, 0], 0xF4, 3) := by
  decide +kernel

/-- V-D1, row 5: V-E5 appended to ten elements, with just enough room. -/
def decodeState : State :=
  { sourceState streamBytes with outBase := 0x4000, outCap := 14, outLen := 10, mode := 1, acc := 1005 }

/-- V-D1, row 5. -/
theorem test_decode :
    (after (exec .decode decodeState)).map (fun t => (t.mem.readElems 0x4050 4, t.outLen, t.acc, t.rnib, t.nvals, t.nbytes)) =
      some ([1006, 1010, 1010, 2000], 14, 2000, 22, 4, 11) := by
  decide +kernel

/-- V-D4: the damaged second block is not examined. -/
def limitState : State :=
  { sourceState [0x09, 0, 0, 0, 0x01, 0x00, 0x11, 0x11, 0x11, 0x11, 0x11, 0xFE, 0x01] with
    outBase := 0x4000, outCap := 9, limit := 8 }

/-- V-D4. -/
theorem test_decode_limit :
    (after (exec .decode limitState)).map (fun t => (t.status, t.nvals, t.mem.readElems 0x4000 8)) =
        some (0, 8, [1, 1, 1, 1, 1, 1, 1, 1]) ∧
      report (exec .decode { limitState with limit := 9 }) = some (4, 0x41, 0) := by
  decide +kernel

/-- V-H3, with just enough room. -/
def hencState : State :=
  { State.reset with mem := elemsAt 0x2000 [9, 4, 4], valBase := 0x2000, dstBase := 0x3000, dstCap := 26, hfmt := 2,
                     hnb := 3, hinit := 0x4000000000000000, hmult := 0x4000000000000000, acc := 77 }

/-- The bytes of V-H3. -/
def frameBytes : List Byte :=
  [0x02, 0x03, 0x00, 0x00, 0x00, 0x00, 0x00, 0x00, 0x00, 0x00, 0x40, 0x00, 0x00, 0x00, 0x00, 0x00, 0x00, 0x00, 0x40,
    0x03, 0x00, 0x00, 0x00, 0x01, 0xFA, 0x54]

/-- V-H3. -/
theorem test_henc :
    (after (exec .henc hencState)).map (fun t => (List.range 26).map fun i => t.mem.read (0x3000 + i)) =
        some frameBytes ∧
      (after (exec .henc hencState)).map (fun t => (t.acc, t.zm, t.nw, t.hstate, t.nbytes)) =
        some (9, 0xFA, 1, 7, 26) := by
  decide +kernel

/-- V-H5: the parameter tests come before the format test. -/
theorem test_henc_order :
    report (exec .henc { hencState with hmult := 0x3FF0000000000000, hfmt := 9 }) = some (1, 0x13, 8) := by
  decide +kernel

/-- V-H3 read back with an exact buffer. -/
def hdecState : State := { sourceState frameBytes with outBase := 0x4000, outCap := 3, outLen := 5, acc := 8, mode := 3 }

/-- V-H3 read back. -/
theorem test_hdec :
    (after (exec .hdec hdecState)).map (fun t => (t.mem.readElems 0x4000 3, t.outLen, t.acc, t.hfmt, t.hnb, t.hstate)) =
      some ([9, 4, 4], 3, 9, 2, 3, 7) := by
  decide +kernel

/-- V-H4: a one-byte slice. -/
theorem test_hdec_format : report (exec .hdec (sourceState [0x05])) = some (4, 0x44, 1) := by decide

/-! ### Every hypothesis can be met: encoding and the port -/

/-- `DecodeInvertsEncode`, at the largest operands. -/
theorem witness_DecodeInvertsEncode : Instr.wellFormed (.wrnib 7 16) = true := by decide

/-- `LegalWordIsItsEncoding`, at the largest `n`. -/
theorem witness_LegalWordIsItsEncoding : decode 0x00040004 = .ok (.rdnib 0 16) := rfl

/-- A host about to act. -/
def hostState (a : HostAction) : State := { State.reset with host := [a], mem := bytesAt 0x10 [7, 9] }

/-- `CommandWriteRunsDecodedCommand`: V-X1's word with bits above 31. -/
theorem witness_CommandWriteRunsDecodedCommand :
    (hostState (.writeReg 34 0xFFFFFFFF00000008)).host = [.writeReg 34 0xFFFFFFFF00000008] ∧
      decode ((0xFFFFFFFF00000008 : Word).setWidth 32) = .ok .scan := ⟨rfl, rfl⟩

/-- `IllegalWordIsReported`: the least illegal `n`. -/
theorem witness_IllegalWordIsReported :
    (hostState (.writeReg 34 0x44004)).host = [.writeReg 34 0x44004] ∧
      decode ((0x44004 : Word).setWidth 32) = .error .widthAbove16 := ⟨rfl, rfl⟩

theorem witness_IdleUnitKeepsEverything : State.reset.host = [] := rfl

/-- `RegisterPortWrite`: both sides of every edge of the read-only and undefined ranges (V-X1). -/
theorem witness_RegisterPortWrite :
    (hostState (.writeReg 21 0x1FF)).host = [.writeReg 21 0x1FF] ∧
      (∀ r ∈ ([0, 17, 19, 21, 28, 31] : List (BitVec 6)), r ≠ 34 ∧ portWritable r.toNat = true) ∧
      ∀ r ∈ ([18, 22, 27, 32, 33, 35, 63] : List (BitVec 6)), r ≠ 34 ∧ portWritable r.toNat = false := by
  decide

theorem witness_RegisterPortRead : (hostState (.readReg 33)).host = [.readReg 33] := rfl

/-- R23 and V-X1 at the edges of the map: `x[7]`, `SRC_BASE`, `MODE`, `CAP`, `CMD`, an undefined number. -/
theorem test_register_numbers :
    [7, 8, 21, 33, 34, 35].map
        { State.reset with x := #v[0, 0, 0, 0, 0, 0, 0, 5], srcBase := 6, mode := 2, cmd := 9 }.portRead =
      [5, 6, 2, 0x0741, 9, 0] := by
  decide

/-- `HostMemoryAccess`, at the last address. -/
theorem witness_HostMemoryAccess :
    (hostState .reset).mem.wf ∧ (hostState (.readMem 0xFFFFFFFFFFFFFFFF)).host = [.readMem 0xFFFFFFFFFFFFFFFF] ∧
      (hostState (.writeMem 0xFFFFFFFFFFFFFFFF 1)).host = [.writeMem 0xFFFFFFFFFFFFFFFF 1] := by
  decide

theorem witness_HardwareResetKeepsMemory : (hostState .reset).host = [.reset] := rfl

/-! ### ByteUtils -/

/-- `ZzencMapsSignedToUnsigned`, `ZzdecMapsUnsignedToSigned`: both signs, at their edges. -/
theorem witness_zigzag_signs :
    0 ≤ (0x7FFFFFFFFFFFFFFF : Word).toInt ∧ ¬0 ≤ (0x8000000000000000 : Word).toInt ∧
      0 ≤ (zigzagDecode 0xFFFFFFFFFFFFFFFE).toInt ∧ ¬0 ≤ (zigzagDecode 0xFFFFFFFFFFFFFFFF).toInt := by
  decide

/-- `RdnibReadsField`: the last nibble of the slice, one past it, and `n = 0` beyond it. -/
theorem witness_RdnibReadsField :
    SourceOk rdnibState ∧ 16 ≤ 2 * rdnibState.srcLen.toNat - { rdnibState with rnib := 2 }.rnib.toNat ∧
      ¬16 ≤ 2 * rdnibState.srcLen.toNat - { rdnibState with rnib := 3 }.rnib.toNat ∧
      (0 : NibCount).toNat ≤ 2 * rdnibState.srcLen.toNat - { rdnibState with rnib := 100 }.rnib.toNat := by
  decide

/-- `WrnibWritesField`: the last nibble of the slice, one past it, and `n = 0` beyond it. -/
theorem witness_WrnibWritesField :
    wrnibState.mem.wf ∧ DestinationOk wrnibState ∧
      3 ≤ 2 * wrnibState.dstCap.toNat - { wrnibState with wnib := 3 }.wnib.toNat ∧
      ¬3 ≤ 2 * wrnibState.dstCap.toNat - { wrnibState with wnib := 4 }.wnib.toNat ∧
      (0 : NibCount).toNat ≤ 2 * wrnibState.dstCap.toNat - { wrnibState with wnib := 100 }.wnib.toNat := by
  decide

/-- `NibbleAccessIsBitAccess`, `ReversalInPlaceReversesElements`, `PackIsTheNibbleLoop`: a memory that is not empty. -/
theorem witness_canonical_memory : unpackState.mem.wf ∧ (16 : Nat) ≤ 16 := by decide

/-! ### Blocks -/

/-- `DecodeBlockInvertsEncodeBlock`: the block ends where the slice does. -/
theorem witness_DecodeBlockInvertsEncodeBlock :
    unpackState.mem.wf ∧ 4 + (encodeBlock #v[0, 0, 0, 0, 0, 0, 0, 5]).length ≤ 7 := by
  decide

/-- `EncoderWritesExactlyCanonicalBlocks`: a canonical block, one with a pad nibble that is not 0, one too wide. -/
theorem witness_EncoderWritesExactlyCanonicalBlocks :
    ([0x05] : List Byte).length + 2 = blockSize 1 0x7F ∧ ([0xF5] : List Byte).length + 2 = blockSize 1 0x7F ∧
      ([] : List Byte).length + 2 = blockSize 17 0xFF := by
  decide

/-- `PackWritesBlock`: odd cursor, one byte short, exact. -/
theorem witness_PackWritesBlock :
    packState.mem.wf ∧ DestinationOk packState ∧ { packState with wnib := 1 }.wnib.toNat % 2 = 1 ∧
      packState.wnib.toNat / 2 + (encodeBlock packState.x).length > { packState with dstCap := 2 }.dstCap.toNat ∧
      ¬packState.wnib.toNat / 2 + (encodeBlock packState.x).length > packState.dstCap.toNat := by
  decide

/-- `UnpackReadsBlock`: each test fails alone at its edge, and none fails. -/
theorem witness_UnpackReadsBlock :
    SourceOk unpackState ∧ report (exec .unpack { unpackState with rnib := 1 }) = some (1, 0x10, 0) ∧
      report (exec .unpack { unpackState with srcLen := 1 }) = some (2, 0x22, 0) ∧
      report (exec .unpack (sourceState [0x11, 0xFF])) = some (4, 0x41, 0) ∧
      report (exec .unpack { unpackState with srcLen := 4 }) = some (2, 0x23, 0) ∧
      report (exec .unpack unpackState) = some (0, 0, 0) := by
  decide

/-! ### Streams -/

/-- `EncodeWritesStream`: the tests that raise, each at its edge. -/
theorem witness_EncodeWritesStream_raises :
    encodeState.mem.wf ∧ ValuesOk encodeState 4 ∧ DestinationOk encodeState ∧
      report (exec .encode { encodeState with wnib := 1 }) = some (1, 0x10, 0) ∧
      report (exec .encode { encodeState with valCount := 0x100000000 }) = some (1, 0x11, 0) ∧
      report (exec .encode { encodeState with mode := 3 }) = some (4, 0x42, 0) ∧
      report (exec .encode { encodeState with mode := 2, hasXor := false }) = some (4, 0x42, 0) ∧
      report (exec .encode { encodeState with dstCap := 10 }) = some (5, 0x50, 0) := by
  decide +kernel

/-- `EncodeWritesStream`: the case that completes, under each variant, with values and without. -/
theorem witness_EncodeWritesStream_completes :
    ModeIs encodeState .delta ∧ ModeIs { encodeState with mode := 0 } .raw ∧ ModeIs { encodeState with mode := 2 } .xor ∧
      ¬BadMode { encodeState with mode := 2 } ∧
      Apart 0x3000 (encodeStream (forwardList .delta 1005 [1006, 1010, 1010, 2000])).length 0x2000 32 ∧
      report (exec .encode encodeState) = some (0, 0, 0) ∧
      report (exec .encode { encodeState with valCount := 0, dstCap := 4 }) = some (0, 0, 0) := by
  decide +kernel

/-- `StreamCheckAcceptsExactly`: a stream it accepts. -/
theorem witness_StreamCheckAcceptsExactly :
    (streamCheck decodeState.mem 0x100 11 0 10).toOption = some ⟨4, 4, [⟨4, 3, 0xF4⟩], 11⟩ := by
  decide +kernel

/-- The error of a check. -/
def errorOf {α β : Type} (r : Except α β) : Option α :=
  match r with
  | .error e => some e
  | .ok _ => none

/-- `StreamCheckReportsFirstFailure`: each of its six failures, the last three in the first block or after it. -/
theorem witness_StreamCheckReportsFirstFailure :
    errorOf (streamCheck decodeState.mem 0x100 3 0 10) = some .truncCount ∧
      errorOf (streamCheck [] 0x100 5 0 10) = some .zeroCountTrailing ∧
      errorOf (streamCheck decodeState.mem 0x100 4 0 10) = some .nonzeroCountEmpty ∧
      errorOf (streamCheck decodeState.mem 0x100 5 0 10) = some .truncBlockHdr ∧
      errorOf (streamCheck decodeState.mem 0x100 10 0 10) = some .truncPayload ∧
      errorOf (streamCheck limitState.mem 0x100 13 0 9) = some .badWidth := by
  decide +kernel

/-- `DecodeDeliversStream`: odd cursor, bad mode, a stream error, one element short, and the case that completes. -/
theorem witness_DecodeDeliversStream :
    decodeState.mem.wf ∧ SourceOk decodeState ∧ OutputOk decodeState ∧ ModeIs decodeState .delta ∧
      Apart 0x4050 32 0x100 11 ∧ report (exec .decode { decodeState with rnib := 1 }) = some (1, 0x10, 0) ∧
      report (exec .decode { decodeState with mode := 3 }) = some (4, 0x42, 0) ∧
      report (exec .decode { decodeState with srcLen := 10 }) = some (2, 0x23, 0) ∧
      report (exec .decode { decodeState with outCap := 13 }) = some (5, 0x51, 0) ∧
      report (exec .decode decodeState) = some (0, 0, 0) := by
  decide +kernel

/-- `DecodeInvertsEncodeStream`: V-E5, a buffer and a limit of exactly four. -/
theorem witness_DecodeInvertsEncodeStream :
    encodeState.mem.wf ∧ (∃ t, exec .encode encodeState = .next t ∧ (t.status == 0 && t.nbytes == 11) = true) ∧
      encodeState.valCount.toNat ≤ (4 : Word).toNat ∧ OutputOk { encodeState with outBase := 0x4000, outCap := 4 } ∧
      Apart 0x4000 (8 * encodeState.valCount.toNat) 0x3000 11 :=
  ⟨by decide +kernel, next_with (by decide +kernel), by decide, by decide, by decide⟩

/-- `TruncatedStreamIsReported`: V-E5 cut to one byte less and to its header; the count is exactly the limit. -/
theorem witness_TruncatedStreamIsReported :
    (∃ t, exec .decode { decodeState with limit := 4 } = .next t ∧ (t.status == 0 && t.nbytes == 11) = true) ∧
      decodeState.mem.readLE 0x100 4 ≤ 4 ∧ (10 : Word).toNat < 0 + (11 : Word).toNat ∧ (4 : Word).toNat = 0 / 2 + 4 :=
  ⟨next_with (by decide +kernel), by decide +kernel, by decide, by decide⟩

/-! ### The sink -/

/-- `PushAppendsOneElement`: both bad modes, the full buffer, the last free element under each variant. -/
theorem witness_PushAppendsOneElement :
    pushState.mem.wf ∧ OutputOk pushState ∧ BadMode { pushState with mode := 3 } ∧
      BadMode { pushState with mode := 2, hasXor := false } ∧ ModeIs pushState .delta ∧
      ModeIs { pushState with mode := 0 } .raw ∧ ModeIs { pushState with mode := 2 } .xor ∧
      { pushState with outLen := 4 }.outLen.toNat ≥ pushState.outCap.toNat ∧
      ¬pushState.outLen.toNat ≥ pushState.outCap.toNat := by
  decide

/-- `SinkInvertsForward`, at the largest length. -/
theorem witness_SinkInvertsForward :
    pushState.mem.wf ∧ { pushState with outLen := 0xFFFFFFFFFFFFFFFE }.outLen.toNat + ([5] : List Word).length < 2 ^ 64 := by
  decide

/-! ### Frames -/

/-- `FloatTestsAreOrderedComparisons`: finite patterns at both tests' edges, +infinity, a NaN, -0.0. -/
theorem witness_FloatTestsAreOrderedComparisons :
    IsFiniteNonneg 0 ∧ IsFiniteNonneg 1 ∧ IsFiniteNonneg 0x3FF0000000000000 ∧ IsFiniteNonneg 0x3FF0000000000001 ∧
      IsFiniteNonneg 0x7FEFFFFFFFFFFFFF ∧ ¬IsFiniteNonneg 0x7FF0000000000001 ∧
      (0x8000000000000000 : Word).msb = true := by
  decide

/-- `HencWritesFrame`: the cursor and parameter tests, each at its edge (V-H5). -/
theorem witness_HencWritesFrame_parameters :
    report (exec .henc { hencState with wnib := 1 }) = some (1, 0x10, 8) ∧
      report (exec .henc { hencState with hnb := 65536 }) = some (1, 0x12, 8) ∧
      report (exec .henc { hencState with hmult := 0x3FF0000000000000 }) = some (1, 0x13, 8) ∧
      report (exec .henc { hencState with hmult := 0x7FF0000000000001 }) = some (1, 0x13, 8) ∧
      report (exec .henc { hencState with hinit := 0 }) = some (1, 0x14, 8) ∧
      report (exec .henc { hencState with hinit := 0x8000000000000000 }) = some (1, 0x14, 8) := by
  decide +kernel

/-- `HencWritesFrame`: the format and room tests, each at its edge (V-H5). -/
theorem witness_HencWritesFrame_format :
    hencState.mem.wf ∧ report (exec .henc { hencState with hfmt := 4 }) = some (4, 0x43, 8) ∧
      report (exec .henc { hencState with hfmt := 5 }) = some (4, 0x44, 8) ∧
      report (exec .henc { hencState with dstCap := 25 }) = some (5, 0x50, 8) := by
  decide +kernel

/-- `HencWritesFrame`: the cases that complete, both formats, with values and without. -/
theorem witness_HencWritesFrame_completes :
    ValuesOk hencState 3 ∧ DestinationOk hencState ∧ Apart 0x3000 26 0x2000 24 ∧
      report (exec .henc hencState) = some (0, 0, 7) ∧
      report (exec .henc { hencState with hfmt := 1, hnb := 0, hmult := 0x7FF0000000000000, hinit := 1, dstCap := 23 }) =
        some (0, 0, 7) := by
  decide +kernel

/-- `FrameCheckReportsFirstFailure`, `HdecReadsFrame`: the failing tests of the frame's header, each in its state
(V-H4). -/
theorem witness_HdecReadsFrame_header :
    report (exec .hdec { hdecState with rnib := 1 }) = some (1, 0x10, 1) ∧
      report (exec .hdec { hdecState with srcLen := 0 }) = some (2, 0x24, 1) ∧
      report (exec .hdec (sourceState [0x03])) = some (4, 0x43, 1) ∧
      report (exec .hdec { hdecState with srcLen := 2 }) = some (2, 0x24, 2) ∧
      report (exec .hdec { hdecState with srcLen := 10 }) = some (2, 0x24, 3) ∧
      report (exec .hdec { hdecState with srcLen := 18 }) = some (2, 0x24, 4) := by
  decide +kernel

/-- `FrameCheckReportsFirstFailure`, `HdecReadsFrame`: the failing tests of state 5 (V-H4). -/
theorem witness_HdecReadsFrame_stream :
    hdecState.mem.wf ∧ report (exec .hdec { hdecState with srcLen := 25 }) = some (2, 0x23, 5) ∧
      report (exec .hdec { hdecState with mem := hdecState.mem.write 0x101 7 }) = some (3, 0x32, 5) ∧
      report (exec .hdec { hdecState with outCap := 2 }) = some (5, 0x51, 5) := by
  decide +kernel

/-- `HdecReadsFrame`: the case that completes. -/
theorem witness_HdecReadsFrame_completes :
    SourceOk hdecState ∧ OutputOk hdecState ∧ Apart 0x4000 24 0x100 26 ∧
      report (exec .hdec hdecState) = some (0, 0, 7) := by
  decide +kernel

/-- `HdecInvertsHenc`: V-H3 with a buffer of exactly three elements. -/
theorem witness_HdecInvertsHenc :
    hencState.mem.wf ∧ (∃ t, exec .henc hencState = .next t ∧ (t.status == 0 && t.nbytes == 26) = true) ∧
      hencState.hnb.toNat ≤ (3 : Word).toNat ∧ OutputOk { hencState with outBase := 0x4000, outCap := 3 } ∧
      Apart 0x4000 (8 * hencState.hnb.toNat) 0x3000 26 :=
  ⟨by decide +kernel, next_with (by decide +kernel), by decide, by decide, by decide⟩

/-! ### The whole machine -/

/-- `ErrorsAreAllOrNothing`, `CommandsWriteOnlyTheirRegisters`: a command that raises and one that does not. -/
theorem witness_ErrorsAreAllOrNothing :
    (∃ t, exec .pack { packState with dstCap := 2 } = .next t ∧ (t.status != 0) = true) ∧
      ∃ t, exec .pack packState = .next t ∧ (t.status == 0) = true :=
  ⟨next_with (by decide), next_with (by decide)⟩

/-- `CommandsStoreOnlyIntoTheirSlice`: `PACK` and `PUSH` each change a byte. -/
theorem witness_CommandsStoreOnlyIntoTheirSlice :
    packState.mem.wf ∧ (∃ t, exec .pack packState = .next t ∧ (t.mem.read 0x100 != packState.mem.read 0x100) = true) ∧
      pushState.mem.wf ∧
      ∃ t, exec (.push 1) pushState = .next t ∧ (t.mem.read 0x4018 != pushState.mem.read 0x4018) = true :=
  ⟨by decide, next_with (by decide), by decide, next_with (by decide)⟩

/-- `DecoderResultsDependOnSourceBytesOnly`: two memories that differ just below and just past the slice. -/
theorem witness_DecoderResultsDependOnSourceBytesOnly :
    unpackState.mem.wf ∧ ((unpackState.mem.write 0xFF 1).write 0x105 1).wf ∧
      ∀ a, unpackState.srcBase.toNat ≤ a → a < unpackState.srcBase.toNat + unpackState.srcLen.toNat →
        ((unpackState.mem.write 0xFF 1).write 0x105 1).read a = unpackState.mem.read a := by
  refine ⟨by decide, by decide, fun a h1 h2 => ?_⟩
  have h3 : 0x100 ≤ a := h1
  have h4 : a < 0x105 := h2
  interval_cases a <;> decide

/-- The same for the commands that write elements: they succeed, and the range of elements is not empty. -/
theorem witness_DecoderResultsDependOnSourceBytesOnly_elements :
    decodeState.mem.wf ∧ (∃ t, exec .decode decodeState = .next t ∧
      (t.status == 0 && decide (decodeState.outLen.toNat < t.outLen.toNat)) = true) ∧
      hdecState.mem.wf ∧ ∃ t, exec .hdec hdecState = .next t ∧ (t.status == 0 && decide (0 < t.outLen.toNat)) = true :=
  ⟨by decide +kernel, next_with (by decide +kernel), by decide +kernel, next_with (by decide +kernel)⟩

/-- `EveryCommandEnds`: `ENCODE` and `DECODE` with all their slices. -/
theorem witness_EveryCommandEnds :
    (∀ sl ∈ slicesUsed .encode, SliceOk encodeState sl) ∧ SlicesApart encodeState .encode ∧
      (∀ sl ∈ slicesUsed .decode, SliceOk decodeState sl) ∧ SlicesApart decodeState .decode := by
  simp [slicesUsed]
  decide

/-- `RefusalsNameABrokenPrecondition`, `BrokenSliceIsRefused`: each slice one byte or one element too long. -/
theorem witness_BrokenSliceIsRefused :
    refusal (exec .unpack { unpackState with srcBase := 0xFFFFFFFFFFFFFFFC }) = some (.sliceWraps .source) ∧
      refusal (exec .unpack { unpackState with srcLen := 0x8000000000000000 }) = some (.sliceTooLong .source) ∧
      refusal (exec .pack { packState with dstBase := 0xFFFFFFFFFFFFFFFE }) = some (.sliceWraps .destination) ∧
      refusal (exec (.push 1) { pushState with outBase := 0xFFFFFFFFFFFFFFE1 }) = some (.sliceWraps .output) ∧
      refusal (exec .encode { encodeState with valBase := 0xFFFFFFFFFFFFFFE1 }) = some (.sliceWraps .streamValues) ∧
      refusal (exec .henc { hencState with valBase := 0xFFFFFFFFFFFFFFE9 }) = some (.sliceWraps .frameValues) ∧
      RegisterTestsPass { unpackState with srcBase := 0xFFFFFFFFFFFFFFFC } .unpack ∧
      RegisterTestsPass { encodeState with valBase := 0xFFFFFFFFFFFFFFE1 } .encode ∧
      RegisterTestsPass { hencState with valBase := 0xFFFFFFFFFFFFFFE9 } .henc := by
  decide +kernel

/-- `OverlapIsRefused`: one shared byte. -/
theorem witness_OverlapIsRefused :
    refusal (exec .encode { encodeState with dstBase := 0x1FF6 }) = some (.slicesOverlap .destination .streamValues) ∧
      refusal (exec .henc { hencState with dstBase := 0x2017 }) = some (.slicesOverlap .destination .frameValues) ∧
      refusal (exec .decode { decodeState with outBase := 0x91 }) = some (.slicesOverlap .output .source) ∧
      refusal (exec .hdec { hdecState with outBase := 0x119 }) = some (.slicesOverlap .output .source) ∧
      RegisterTestsPass { decodeState with outBase := 0x91 } .decode ∧
      RegisterTestsPass { hdecState with outBase := 0x119 } .hdec := by
  decide +kernel

/-- One byte apart is far enough. -/
theorem test_no_overlap :
    report (exec .encode { encodeState with dstBase := 0x1FF5 }) = some (0, 0, 0) ∧
      report (exec .hdec { hdecState with outBase := 0x11A }) = some (0, 0, 7) := by
  decide +kernel

/-- `StepKeepsInvariant`, `StepKeepsMemoryInAddressSpace`: a state with memory and a failed frame command behind it. -/
theorem witness_StepKeepsInvariant :
    Inv { hencState with nw := 16, hstate := 8, status := 1, einfo := 0x13 } ∧ InSpace hencState.mem ∧
      ∃ t, step hencState = .next t :=
  ⟨⟨by decide +kernel, by decide, by decide, Or.inr ⟨.badMult, rfl, rfl⟩⟩, by decide +kernel, ⟨_, rfl⟩⟩

end Sys2Proof.Tests
end

section
/-! SUPPORT. How the outcomes of commands are reasoned about: what every next state satisfies (`EndsWith`), and two
outcomes that correspond (`EndsAlike`), each with one rule per way a command is built. -/

namespace Sys2Proof.Machine

/-! ### One outcome -/

/-- Every next state of `r` satisfies `P`. -/
def EndsWith (P : State → Prop) (r : Result) : Prop := ∀ t, r = .next t → P t

theorem EndsWith.next {P : State → Prop} {t : State} (h : P t) : EndsWith P (.next t) := by
  rintro _ ⟨⟩
  exact h

theorem EndsWith.refused (P : State → Prop) (r : Refusal) : EndsWith P (.refused r) := by
  rintro _ ⟨⟩

theorem EndsWith.ite {P : State → Prop} {c : Prop} [Decidable c] {a b : Result} (ha : EndsWith P a)
    (hb : EndsWith P b) : EndsWith P (if c then a else b) := by
  split
  · exact ha
  · exact hb

theorem EndsWith.of_using {P : State → Prop} {s : State} {slices : List Slice} {k : Result} (h : EndsWith P k) :
    EndsWith P (s.using slices k) :=
  fun t ht => h t (State.using_eq_next ht).2

theorem EndsWith.emit {P : State → Prop} {s onFull commit : State} {values : Slice} {bytes : List Byte}
    (hfull : P onFull) (hcommit : P commit) : EndsWith P (s.emit values bytes onFull commit) := by
  intro t ht
  obtain ⟨-, rfl⟩ | ⟨-, -, rfl⟩ := State.emit_eq_next ht
  · exact hfull
  · exact hcommit

/-! ### Two outcomes -/

/-- Both outcomes are next states that `R` relates, or both are the same refusal. -/
inductive EndsAlike (R : State → State → Prop) : Result → Result → Prop where
  | next {t t' : State} : R t t' → EndsAlike R (.next t) (.next t')
  | refused (r : Refusal) : EndsAlike R (.refused r) (.refused r)

theorem EndsAlike.ite {R : State → State → Prop} {c : Prop} [Decidable c] {a b a' b' : Result}
    (ha : EndsAlike R a a') (hb : EndsAlike R b b') : EndsAlike R (if c then a else b) (if c then a' else b') := by
  split
  · exact ha
  · exact hb

/-- Two states with the same slice problems pass or fail the preconditions of R75 (a), (b) alike. -/
theorem EndsAlike.of_using {R : State → State → Prop} {s s' : State} {slices : List Slice} {k k' : Result}
    (hs : s'.sliceProblem = s.sliceProblem) (h : EndsAlike R k k') :
    EndsAlike R (s.using slices k) (s'.using slices k') := by
  simp only [State.using, hs]
  split
  · exact .refused _
  · exact h

end Sys2Proof.Machine
end

section
/-! CLAIM. What a command changes among the registers (10_state.md R56). -/

namespace Sys2Proof.Machine

open Sys2Proof.Safety

/-- From `s` to `t` only registers in `w`, `STATUS`, `EINFO` and memory change. -/
structure KeepsOutside (w : Reg → Bool) (s t : State) : Prop where
  reg : ∀ g, g ≠ .status → g ≠ .einfo → w g = false → t.readReg g = s.readReg g
  host : t.host = s.host
  hostData : t.hostData = s.hostData
  hasXor : t.hasXor = s.hasXor

namespace KeepsOutside

variable {w w' : Reg → Bool} {s t u : State}

theorem refl (w : Reg → Bool) (s : State) : KeepsOutside w s s := ⟨fun _ _ _ _ => rfl, rfl, rfl, rfl⟩

theorem trans (h : KeepsOutside w s t) (h' : KeepsOutside w t u) : KeepsOutside w s u where
  reg g hs he hg := (h'.reg g hs he hg).trans (h.reg g hs he hg)
  host := h'.host.trans h.host
  hostData := h'.hostData.trans h.hostData
  hasXor := h'.hasXor.trans h.hasXor

theorem mono (h : KeepsOutside w s t) (hw : ∀ g, w g = true → w' g = true) : KeepsOutside w' s t where
  reg g hs he hg := h.reg g hs he (Bool.eq_false_iff.2 fun hg' => Bool.eq_false_iff.1 hg (hw g hg'))
  host := h.host
  hostData := h.hostData
  hasXor := h.hasXor

/-- A command that raises keeps every register but `STATUS` and `EINFO` (R245). -/
theorem raise (w : Reg → Bool) (s : State) (c : Subcause) : KeepsOutside w s (s.raise c) :=
  ⟨fun g hs he _ => by cases g <;> simp_all [State.readReg, State.slot, State.cap], rfl, rfl, rfl⟩

theorem raiseIn (hw : w .hstate = true) (s : State) (st : FrameState) (c : Subcause) :
    KeepsOutside w s (s.raiseIn st c) :=
  ⟨fun g hs he hg => by cases g <;> simp_all [State.readReg, State.slot, State.cap], rfl, rfl, rfl⟩

theorem succeed (h : KeepsOutside w s t) : KeepsOutside w s t.succeed :=
  h.trans ⟨fun g hs he _ => by cases g <;> simp_all [State.readReg, State.slot, State.cap], rfl, rfl, rfl⟩

theorem setSlot (s : State) {r : SlotIx} (v : Word) (hw : w (.slot r) = true) : KeepsOutside w s (s.setSlot r v) where
  reg g _ _ hg := by
    cases g with
    | slot q =>
      have hq : q ≠ r := by rintro rfl; simp [hw] at hg
      simp [State.readReg, State.slot_setSlot, hq]
    | _ => rfl
  host := rfl
  hostData := rfl
  hasXor := rfl

/-- `SCAN` stages the slot registers themselves, so it leaves them as they are. -/
theorem stage_self (s : State) (m : Byte) (n : Nat) : KeepsOutside (mayWrite .scan) s (s.stage s.x m n) :=
  ⟨fun g _ _ hg => by cases g <;> simp_all [mayWrite, State.readReg, State.slot, State.cap], rfl, rfl, rfl⟩

theorem readField (s : State) (rd : SlotIx) (n : Nat) (m : NibCount) :
    KeepsOutside (mayWrite (.rdnib rd m)) s (s.readField rd n) := by
  have hslot := setSlot (w := mayWrite (.rdnib rd m)) s (r := rd)
    (BitVec.ofNat 64 (s.mem.nibRead s.srcBase.toNat s.rnib.toNat n)) (by simp [mayWrite])
  exact hslot.trans
    ⟨fun g _ _ hg => by cases g <;> simp_all [mayWrite, State.readReg, State.slot, State.cap], rfl, rfl, rfl⟩

theorem writeField (s : State) (rs : SlotIx) (n : Nat) (m : NibCount) :
    KeepsOutside (mayWrite (.wrnib rs m)) s (s.writeField rs n) :=
  ⟨fun g _ _ hg => by cases g <;> simp_all [mayWrite, State.readReg, State.slot, State.cap], rfl, rfl, rfl⟩

theorem packBlock (s : State) : KeepsOutside (mayWrite .pack) s s.packBlock :=
  ⟨fun g _ _ hg => by cases g <;> simp_all [mayWrite, State.readReg, State.slot, State.cap], rfl, rfl, rfl⟩

theorem unpackBlock (s : State) (b : BlockHeader) : KeepsOutside (mayWrite .unpack) s (s.unpackBlock b) :=
  ⟨fun g _ _ hg => by cases g <;> simp_all [mayWrite, State.readReg, State.cap], rfl, rfl, rfl⟩

theorem resetSink (s : State) : KeepsOutside (mayWrite .sreset) s s.resetSink :=
  ⟨fun g _ _ hg => by cases g <;> simp_all [mayWrite, State.readReg, State.slot, State.cap], rfl, rfl, rfl⟩

theorem sinkPush (s : State) (md : SinkMode) (v : Word) (rs : SlotIx) :
    KeepsOutside (mayWrite (.push rs)) s (s.sinkPush md v) := by
  rw [State.sinkPush_frame]
  exact ⟨fun g _ _ hg => by cases g <;> simp_all [mayWrite, State.readReg, State.slot, State.cap], rfl, rfl, rfl⟩

theorem commitEncoded (s : State) (l : List Word) (bytes : List Byte) (a : Word) :
    KeepsOutside (mayWrite .encode) s (s.commitEncoded l bytes a) := by
  rw [State.commitEncoded_frame]
  exact ⟨fun g _ _ hg => by cases g <;> simp_all [mayWrite, State.readReg, State.cap], rfl, rfl, rfl⟩

theorem commitDecoded (s : State) (md : SinkMode) (i : StreamInfo) :
    KeepsOutside (mayWrite .decode) s (s.commitDecoded md i) := by
  rw [State.commitDecoded_frame]
  exact ⟨fun g _ _ hg => by cases g <;> simp_all [mayWrite, State.readReg, State.cap], rfl, rfl, rfl⟩

theorem commitFrame (s : State) : KeepsOutside (mayWrite .henc) s s.commitFrame := by
  simp only [State.commitFrame]
  rw [State.commitEncoded_frame]
  exact ⟨fun g _ _ hg => by cases g <;> simp_all [mayWrite, State.readReg, State.cap], rfl, rfl, rfl⟩

theorem undoOrder (w : Reg → Bool) (s : State) (f : Byte) (k : Nat) : KeepsOutside w s (s.undoOrder f k) := by
  simp only [State.undoOrder]
  split
  · exact ⟨fun g _ _ _ => by cases g <;> rfl, rfl, rfl, rfl⟩
  · exact refl w s

/-- `HDEC` may change what `SRESET` and `DECODE` may, the frame's parameters and `HSTATE`. -/
theorem commitFrameRead (s : State) (i : FrameInfo) : KeepsOutside (mayWrite .hdec) s (s.commitFrameRead i) :=
  have hreset := (resetSink s).mono (w' := mayWrite .hdec) fun g hg => by cases g <;> simp_all [mayWrite]
  have hstream := (commitDecoded s.resetSink .delta i.stream).mono (w' := mayWrite .hdec) fun g hg => by
    cases g <;> simp_all [mayWrite]
  ((hreset.trans hstream).trans (undoOrder _ _ i.format i.stream.deliver)).trans
    ⟨fun g _ _ hg => by
      cases g <;> simp_all [mayWrite, State.readReg, State.cap, State.commitFrameRead], rfl, rfl, rfl⟩

end KeepsOutside

/-! ### The commands, along the branches of their definitions -/

/-- Every next state keeps the registers outside the command's row of R56. -/
abbrev KeepsItsRow (i : Instr) (s : State) (r : Result) : Prop := EndsWith (KeepsOutside (mayWrite i) s) r

theorem execNop_keepsItsRow (s : State) : KeepsItsRow .nop s (execNop s) := .next (.succeed (.refl _ s))

theorem execBitw_keepsItsRow (rd rs : SlotIx) (s : State) : KeepsItsRow (.bitw rd rs) s (execBitw rd rs s) :=
  .next (.succeed (.setSlot s _ (by simp [mayWrite])))

theorem execZzenc_keepsItsRow (rd rs : SlotIx) (s : State) : KeepsItsRow (.zzenc rd rs) s (execZzenc rd rs s) :=
  .next (.succeed (.setSlot s _ (by simp [mayWrite])))

theorem execZzdec_keepsItsRow (rd rs : SlotIx) (s : State) : KeepsItsRow (.zzdec rd rs) s (execZzdec rd rs s) :=
  .next (.succeed (.setSlot s _ (by simp [mayWrite])))

theorem execRdnib_keepsItsRow (rd : SlotIx) (n : NibCount) (s : State) :
    KeepsItsRow (.rdnib rd n) s (execRdnib rd n s) :=
  .of_using (.ite (.next (.raise _ s _)) (.next (.succeed (.readField s rd _ n))))

theorem execWrnib_keepsItsRow (rs : SlotIx) (n : NibCount) (s : State) :
    KeepsItsRow (.wrnib rs n) s (execWrnib rs n s) :=
  .of_using (.ite (.next (.raise _ s _)) (.next (.succeed (.writeField s rs _ n))))

theorem execScan_keepsItsRow (s : State) : KeepsItsRow .scan s (execScan s) := .next (.succeed (.stage_self s _ _))

theorem execPack_keepsItsRow (s : State) : KeepsItsRow .pack s (execPack s) :=
  .ite (.next (.raise _ s _)) (.of_using (.ite (.next (.raise _ s _)) (.next (.succeed (.packBlock s)))))

theorem execUnpack_keepsItsRow (s : State) : KeepsItsRow .unpack s (execUnpack s) := by
  refine .ite (.next (.raise _ s _)) (.of_using ?_)
  split
  · exact .next (.raise _ s _)
  · exact .next (.succeed (.unpackBlock s _))

theorem execSreset_keepsItsRow (s : State) : KeepsItsRow .sreset s (execSreset s) := .next (.succeed (.resetSink s))

theorem execPush_keepsItsRow (rs : SlotIx) (s : State) : KeepsItsRow (.push rs) s (execPush rs s) := by
  simp only [execPush]
  split
  · exact .next (.raise _ s _)
  · exact .of_using (.ite (.next (.raise _ s _)) (.next (.succeed (.sinkPush s _ _ rs))))

theorem execEncode_keepsItsRow (s : State) : KeepsItsRow .encode s (execEncode s) := by
  refine .ite (.next (.raise _ s _)) (.ite (.next (.raise _ s _)) ?_)
  split
  · exact .next (.raise _ s _)
  · exact .of_using (.emit (.raise _ s _) (.succeed (.commitEncoded s _ _ _)))

theorem decodeUnder_keepsItsRow (md : SinkMode) (s : State) : KeepsItsRow .decode s (decodeUnder md s) := by
  simp only [decodeUnder]
  split
  · exact .next (.raise _ s _)
  · exact .ite (.next (.raise _ s _)) (.ite (.refused _ _) (.next (.succeed (.commitDecoded s md _))))

theorem execDecode_keepsItsRow (s : State) : KeepsItsRow .decode s (execDecode s) := by
  refine .ite (.next (.raise _ s _)) ?_
  split
  · exact .next (.raise _ s _)
  · exact .of_using (decodeUnder_keepsItsRow _ s)

theorem execHenc_keepsItsRow (s : State) : KeepsItsRow .henc s (execHenc s) := by
  simp only [execHenc]
  split
  · exact .next (.raiseIn rfl s _ _)
  · exact .of_using (.emit (.raiseIn rfl s _ _) (.succeed (.commitFrame s)))

theorem decodeFrame_keepsItsRow (s : State) : KeepsItsRow .hdec s (decodeFrame s) := by
  simp only [decodeFrame]
  split
  · exact .next (.raiseIn rfl s _ _)
  · exact .ite (.refused _ _) (.next (.succeed (.commitFrameRead s _)))

theorem execHdec_keepsItsRow (s : State) : KeepsItsRow .hdec s (execHdec s) :=
  .ite (.next (.raiseIn rfl s _ _)) (.of_using (decodeFrame_keepsItsRow s))

theorem exec_keepsItsRow (i : Instr) (s : State) : KeepsItsRow i s (exec i s) := by
  cases i with
  | nop => exact execNop_keepsItsRow s
  | bitw rd rs => exact execBitw_keepsItsRow rd rs s
  | zzenc rd rs => exact execZzenc_keepsItsRow rd rs s
  | zzdec rd rs => exact execZzdec_keepsItsRow rd rs s
  | rdnib rd n => exact execRdnib_keepsItsRow rd n s
  | wrnib rs n => exact execWrnib_keepsItsRow rs n s
  | scan => exact execScan_keepsItsRow s
  | pack => exact execPack_keepsItsRow s
  | unpack => exact execUnpack_keepsItsRow s
  | sreset => exact execSreset_keepsItsRow s
  | push rs => exact execPush_keepsItsRow rs s
  | encode => exact execEncode_keepsItsRow s
  | decode => exact execDecode_keepsItsRow s
  | henc => exact execHenc_keepsItsRow s
  | hdec => exact execHdec_keepsItsRow s

/-- Settles O50: along the branches of every command, each update of the state keeps the registers outside the
command's row. -/
theorem commandsWriteOnlyTheirRegisters : Obligations.CommandsWriteOnlyTheirRegisters := by
  intro i s t h
  obtain ⟨hreg, hhost, hdata, hxor⟩ := exec_keepsItsRow i s t h
  exact ⟨hreg, hhost, hdata, hxor⟩

end Sys2Proof.Machine
end

section
/-! CLAIM. The registers no command reads (10_state.md R52). -/

namespace Sys2Proof.Machine

open Sys2Proof.Safety

/-! ### What reads no output register -/

@[simp] theorem sliceProblem_withOutputs (s o : State) : (withOutputs s o).sliceProblem = s.sliceProblem := by
  funext sl
  cases sl <;> rfl

@[simp] theorem writesInto_withOutputs (s o : State) (a len : Nat) (sl : Slice) :
    (withOutputs s o).writesInto a len sl = s.writesInto a len sl := by
  cases sl <;> rfl

@[simp] theorem sinkMode_withOutputs (s o : State) : (withOutputs s o).sinkMode = s.sinkMode := rfl

@[simp] theorem frameProblem_withOutputs (s o : State) : (withOutputs s o).frameProblem = s.frameProblem := rfl

@[simp] theorem frameInput_withOutputs (s o : State) : (withOutputs s o).frameInput = s.frameInput := rfl

@[simp] theorem frameBytes_withOutputs (s o : State) : (withOutputs s o).frameBytes = s.frameBytes := rfl

theorem resetSink_withOutputs (s o : State) : (withOutputs s o).resetSink = withOutputs s.resetSink o := rfl

/-! ### States equal up to the output registers -/

/-- `t` is `s` but for the registers no command reads. -/
def SameInputs (s t : State) : Prop := t = withOutputs s t

namespace SameInputs

variable {s t : State}

theorem of_withOutputs (s o : State) : SameInputs s (withOutputs s o) := rfl

theorem stageRead (s o : State) (l : List BlockHeader) :
    SameInputs (s.stageRead l) ((withOutputs s o).stageRead l) := by
  simp only [State.stageRead]
  cases l.getLast? <;> rfl

theorem stageWritten (s o : State) (l : List Word) :
    SameInputs (s.stageWritten l) ((withOutputs s o).stageWritten l) := by
  simp only [State.stageWritten]
  cases (streamGroups l).getLast? <;> rfl

theorem sinkPush (h : SameInputs s t) (md : SinkMode) (v : Word) : SameInputs (s.sinkPush md v) (t.sinkPush md v) := by
  rw [h]
  cases md <;> rfl

theorem pushAll (h : SameInputs s t) (md : SinkMode) (l : List Word) :
    SameInputs (s.pushAll md l) (t.pushAll md l) := by
  induction l generalizing s t with
  | nil => exact h
  | cons v rest ih => exact ih (h.sinkPush md v)

theorem commitEncoded (s o : State) (l : List Word) (bytes : List Byte) (a : Word) :
    SameInputs (s.commitEncoded l bytes a) ((withOutputs s o).commitEncoded l bytes a) := by
  simp only [State.commitEncoded]
  rw [stageWritten s o l]
  rfl

theorem commitDecoded (s o : State) (md : SinkMode) (i : StreamInfo) :
    SameInputs (s.commitDecoded md i) ((withOutputs s o).commitDecoded md i) := by
  have hpush := (stageRead s o i.blocks).pushAll md (streamValues s.mem s.srcBase.toNat i)
  have hvalues : streamValues (withOutputs s o).mem (withOutputs s o).srcBase.toNat i =
    streamValues s.mem s.srcBase.toNat i := rfl
  simp only [State.commitDecoded]
  rw [hvalues, hpush]
  rfl

theorem undoOrder (h : SameInputs s t) (f : Byte) (k : Nat) : SameInputs (s.undoOrder f k) (t.undoOrder f k) := by
  rw [h]
  simp only [State.undoOrder]
  split
  · rfl
  · rfl

theorem commitFrameRead (s o : State) (i : FrameInfo) :
    SameInputs (s.commitFrameRead i) ((withOutputs s o).commitFrameRead i) := by
  have h := (commitDecoded s.resetSink o .delta i.stream).undoOrder i.format i.stream.deliver
  simp only [State.commitFrameRead]
  rw [resetSink_withOutputs, h]
  rfl

theorem commitFrame (s o : State) : SameInputs s.commitFrame (withOutputs s o).commitFrame := by
  have h := commitEncoded s o (forwardList .delta 0 s.frameInput) s.frameBytes (forwardAcc .delta 0 s.frameInput)
  simp only [State.commitFrame]
  rw [frameInput_withOutputs, frameBytes_withOutputs, h]
  rfl

end SameInputs

/-! ### Preconditions and endings -/

theorem EndsAlike.using_withOutputs {R : State → State → Prop} {s o : State} {slices : List Slice} {k k' : Result}
    (h : EndsAlike R k k') : EndsAlike R (s.using slices k) ((withOutputs s o).using slices k') :=
  .of_using (sliceProblem_withOutputs s o) h

theorem EndsAlike.emit_withOutputs {R : State → State → Prop} {s o onFull onFull' commit commit' : State}
    (values : Slice) (bytes : List Byte) (hfull : R onFull onFull') (hcommit : R commit commit') :
    EndsAlike R (s.emit values bytes onFull commit) ((withOutputs s o).emit values bytes onFull' commit') := by
  simp only [State.emit]
  refine .ite (.next hfull) ?_
  rw [writesInto_withOutputs]
  exact .ite (.refused _) (.next hcommit)

/-- Two next states that differ in output registers only, with the same report. -/
def SameReport (t t' : State) : Prop := SameInputs t t' ∧ t'.status = t.status ∧ t'.einfo = t.einfo

namespace SameReport

variable {t t' : State}

theorem succeed (h : SameInputs t t') : SameReport t.succeed t'.succeed :=
  ⟨by rw [h]; rfl, rfl, rfl⟩

theorem raise (s o : State) (c : Subcause) : SameReport (s.raise c) ((withOutputs s o).raise c) := ⟨rfl, rfl, rfl⟩

theorem raiseIn (s o : State) (st : FrameState) (c : Subcause) :
    SameReport (s.raiseIn st c) ((withOutputs s o).raiseIn st c) := ⟨rfl, rfl, rfl⟩

end SameReport

/-! ### The commands, along the branches of their definitions -/

/-- The two outcomes are the same refusal, or next states that differ in output registers only, with the same report. -/
abbrev SameOutcome : Result → Result → Prop := EndsAlike SameReport

theorem execNop_withOutputs (s o : State) : SameOutcome (execNop s) (execNop (withOutputs s o)) :=
  .next (.succeed rfl)

theorem execBitw_withOutputs (rd rs : SlotIx) (s o : State) :
    SameOutcome (execBitw rd rs s) (execBitw rd rs (withOutputs s o)) :=
  .next (.succeed rfl)

theorem execZzenc_withOutputs (rd rs : SlotIx) (s o : State) :
    SameOutcome (execZzenc rd rs s) (execZzenc rd rs (withOutputs s o)) :=
  .next (.succeed rfl)

theorem execZzdec_withOutputs (rd rs : SlotIx) (s o : State) :
    SameOutcome (execZzdec rd rs s) (execZzdec rd rs (withOutputs s o)) :=
  .next (.succeed rfl)

theorem execRdnib_withOutputs (rd : SlotIx) (n : NibCount) (s o : State) :
    SameOutcome (execRdnib rd n s) (execRdnib rd n (withOutputs s o)) :=
  .using_withOutputs (.ite (.next (.raise s o _)) (.next (.succeed rfl)))

theorem execWrnib_withOutputs (rs : SlotIx) (n : NibCount) (s o : State) :
    SameOutcome (execWrnib rs n s) (execWrnib rs n (withOutputs s o)) :=
  .using_withOutputs (.ite (.next (.raise s o _)) (.next (.succeed rfl)))

theorem execScan_withOutputs (s o : State) : SameOutcome (execScan s) (execScan (withOutputs s o)) :=
  .next (.succeed rfl)

theorem execPack_withOutputs (s o : State) : SameOutcome (execPack s) (execPack (withOutputs s o)) :=
  .ite (.next (.raise s o _))
    (.using_withOutputs (.ite (.next (.raise s o _)) (.next (.succeed rfl))))

theorem execUnpack_withOutputs (s o : State) : SameOutcome (execUnpack s) (execUnpack (withOutputs s o)) := by
  have hcheck : checkBlock (withOutputs s o).mem (withOutputs s o).srcBase.toNat (withOutputs s o).srcLen.toNat
      (byteOffset (withOutputs s o).rnib) =
    checkBlock s.mem s.srcBase.toNat s.srcLen.toNat (byteOffset s.rnib) := rfl
  simp only [execUnpack, hcheck]
  refine .ite (.next (.raise s o _)) (.using_withOutputs ?_)
  cases checkBlock s.mem s.srcBase.toNat s.srcLen.toNat (byteOffset s.rnib) with
  | error c => exact .next (.raise s o c)
  | ok b => exact .next (.succeed rfl)

theorem execSreset_withOutputs (s o : State) : SameOutcome (execSreset s) (execSreset (withOutputs s o)) :=
  .next (.succeed rfl)

theorem execPush_withOutputs (rs : SlotIx) (s o : State) :
    SameOutcome (execPush rs s) (execPush rs (withOutputs s o)) := by
  simp only [execPush, sinkMode_withOutputs]
  cases s.sinkMode with
  | none => exact .next (.raise s o _)
  | some md =>
    exact .using_withOutputs
      (.ite (.next (.raise s o _)) (.next (.succeed ((SameInputs.of_withOutputs s o).sinkPush md (s.slot rs)))))

theorem encodeUnder_withOutputs (md : SinkMode) (s o : State) :
    SameOutcome (encodeUnder md s) (encodeUnder md (withOutputs s o)) :=
  .emit_withOutputs _ _ (.raise s o _) (.succeed (.commitEncoded s o _ _ _))

theorem execEncode_withOutputs (s o : State) : SameOutcome (execEncode s) (execEncode (withOutputs s o)) := by
  simp only [execEncode, sinkMode_withOutputs]
  refine .ite (.next (.raise s o _)) (.ite (.next (.raise s o _)) ?_)
  cases s.sinkMode with
  | none => exact .next (.raise s o _)
  | some md => exact .using_withOutputs (encodeUnder_withOutputs md s o)

theorem decodeUnder_withOutputs (md : SinkMode) (s o : State) :
    SameOutcome (decodeUnder md s) (decodeUnder md (withOutputs s o)) := by
  have hcheck : streamCheck (withOutputs s o).mem (withOutputs s o).srcBase.toNat (withOutputs s o).srcLen.toNat
      (byteOffset (withOutputs s o).rnib) (withOutputs s o).limit.toNat =
    streamCheck s.mem s.srcBase.toNat s.srcLen.toNat (byteOffset s.rnib) s.limit.toNat := rfl
  simp only [decodeUnder, hcheck, writesInto_withOutputs]
  cases streamCheck s.mem s.srcBase.toNat s.srcLen.toNat (byteOffset s.rnib) s.limit.toNat with
  | error c => exact .next (.raise s o c)
  | ok i => exact .ite (.next (.raise s o _)) (.ite (.refused _) (.next (.succeed (.commitDecoded s o md i))))

theorem execDecode_withOutputs (s o : State) : SameOutcome (execDecode s) (execDecode (withOutputs s o)) := by
  simp only [execDecode, sinkMode_withOutputs]
  refine .ite (.next (.raise s o _)) ?_
  cases s.sinkMode with
  | none => exact .next (.raise s o _)
  | some md => exact .using_withOutputs (decodeUnder_withOutputs md s o)

theorem execHenc_withOutputs (s o : State) : SameOutcome (execHenc s) (execHenc (withOutputs s o)) := by
  simp only [execHenc, frameProblem_withOutputs]
  cases s.frameProblem with
  | some c => exact .next (.raiseIn s o _ c)
  | none =>
    exact .using_withOutputs (.emit_withOutputs _ s.frameBytes (.raiseIn s o _ _) (.succeed (.commitFrame s o)))

theorem decodeFrame_withOutputs (s o : State) : SameOutcome (decodeFrame s) (decodeFrame (withOutputs s o)) := by
  have hcheck : frameCheck (withOutputs s o).mem (withOutputs s o).srcBase.toNat (withOutputs s o).srcLen.toNat
      (byteOffset (withOutputs s o).rnib) (withOutputs s o).outCap.toNat =
    frameCheck s.mem s.srcBase.toNat s.srcLen.toNat (byteOffset s.rnib) s.outCap.toNat := rfl
  simp only [decodeFrame, hcheck, writesInto_withOutputs]
  cases frameCheck s.mem s.srcBase.toNat s.srcLen.toNat (byteOffset s.rnib) s.outCap.toNat with
  | error c => exact .next (.raiseIn s o c.1 c.2)
  | ok i => exact .ite (.refused _) (.next (.succeed (.commitFrameRead s o i)))

theorem execHdec_withOutputs (s o : State) : SameOutcome (execHdec s) (execHdec (withOutputs s o)) :=
  .ite (.next (.raiseIn s o _ _)) (.using_withOutputs (decodeFrame_withOutputs s o))

theorem exec_withOutputs (i : Instr) (s o : State) : SameOutcome (exec i s) (exec i (withOutputs s o)) := by
  cases i with
  | nop => exact execNop_withOutputs s o
  | bitw rd rs => exact execBitw_withOutputs rd rs s o
  | zzenc rd rs => exact execZzenc_withOutputs rd rs s o
  | zzdec rd rs => exact execZzdec_withOutputs rd rs s o
  | rdnib rd n => exact execRdnib_withOutputs rd n s o
  | wrnib rs n => exact execWrnib_withOutputs rs n s o
  | scan => exact execScan_withOutputs s o
  | pack => exact execPack_withOutputs s o
  | unpack => exact execUnpack_withOutputs s o
  | sreset => exact execSreset_withOutputs s o
  | push rs => exact execPush_withOutputs rs s o
  | encode => exact execEncode_withOutputs s o
  | decode => exact execDecode_withOutputs s o
  | henc => exact execHenc_withOutputs s o
  | hdec => exact execHdec_withOutputs s o

/-- Settles O53: every test of a command reads the same in both states, and every update of the state keeps them equal
up to the output registers. -/
theorem outputRegistersDoNotSteerCommands : Obligations.OutputRegistersDoNotSteerCommands := by
  intro i s o
  have h := exec_withOutputs i s o
  generalize exec i s = r, exec i (withOutputs s o) = r' at h ⊢
  cases h with
  | next hreport => exact hreport
  | refused r => rfl

end Sys2Proof.Machine
end

section
/-! CLAIM. Memory seen bit by bit: the nibble primitives and the bit primitives (20_memory.md R76 to R79). -/

namespace Sys2Proof.Machine

/-! ### Bits of a byte -/

/-- The bits of a byte after one of them is set. -/
theorem getLsbD_setBit (y : Byte) {i : Nat} (hi : i < 8) (v : Bool) (j : Nat) :
    (setBit y i v).getLsbD j = if j = i then v else y.getLsbD j := by
  by_cases hj : j < 8
  · cases v <;> by_cases hji : j = i <;> simp [setBit, hi, hj, hji]
  · rw [BitVec.getLsbD_of_ge _ _ (by omega), BitVec.getLsbD_of_ge _ _ (by omega), if_neg (by omega)]

/-- The bits of a byte made of two nibbles. -/
theorem getLsbD_append_nibble (x y : Nibble) (j : Nat) :
    (x ++ y : Byte).getLsbD j = if j < 4 then y.getLsbD j else x.getLsbD (j - 4) :=
  BitVec.getLsbD_append

/-- The bits of a byte after one of its halves is replaced. -/
theorem getLsbD_replaceNibble (y : Byte) (high : Bool) (d : Nibble) (j : Nat) :
    (replaceNibble y high d).getLsbD j =
      if 4 * high.toNat ≤ j ∧ j < 4 * high.toNat + 4 then d.getLsbD (j - 4 * high.toNat) else y.getLsbD j := by
  cases high with
  | false =>
    simp only [replaceNibble, getLsbD_append_nibble, BitVec.getLsbD_extractLsb', Bool.toNat_false, Bool.false_eq_true,
      if_false]
    by_cases hj : j < 4
    · simp [hj]
    · by_cases hj8 : j < 8
      · simp [hj, show j - 4 < 4 by omega, show 4 + (j - 4) = j by omega]
      · simp [hj, show ¬ j - 4 < 4 by omega, BitVec.getLsbD_of_ge y j (by omega)]
  | true =>
    simp only [replaceNibble, getLsbD_append_nibble, BitVec.getLsbD_extractLsb', Bool.toNat_true, if_true]
    by_cases hj : j < 4
    · simp [hj, show ¬ 4 ≤ j by omega]
    · by_cases hj8 : j < 8
      · simp [hj, hj8, show 4 ≤ j by omega]
      · simp [hj, hj8, BitVec.getLsbD_of_ge d (j - 4) (by omega), BitVec.getLsbD_of_ge y j (by omega)]

namespace Memory

variable {m m' : Memory}

/-! ### Bits of memory -/

/-- Canonical memories with the same bits from `base` on and the same bytes below it are equal. -/
theorem ext_bit (h : m.wf) (h' : m'.wf) (base : Nat) (hbit : ∀ c, m.bit base c = m'.bit base c)
    (hbelow : ∀ a, a < base → m.read a = m'.read a) : m = m' := by
  refine Memory.ext h h' fun a => ?_
  by_cases ha : a < base
  · exact hbelow a ha
  · refine BitVec.eq_of_getLsbD_eq fun j hj => ?_
    have hb := hbit (8 * (a - base) + j)
    have hbyte : base + (8 * (a - base) + j) / 8 = a := by omega
    have hoff : (8 * (a - base) + j) % 8 = j := by omega
    simpa only [Memory.bit, hbyte, hoff] using hb

/-- Nibble `q` holds the bits `4q` to `4q+3` of its slice (R76, R79). -/
theorem getLsbD_nibble (m : Memory) (base q j : Nat) :
    (m.nibble base q).getLsbD j = (decide (j < 4) && m.bit base (4 * q + j)) := by
  by_cases hj : j < 4
  · have hbyte : (4 * q + j) / 8 = q / 2 := by omega
    simp only [Memory.nibble, Memory.bit, hbyte]
    split
    · simp [hj, show (4 * q + j) % 8 = j by omega]
    · simp [hj, show (4 * q + j) % 8 = 4 + j by omega]
  · simp [hj, BitVec.getLsbD_of_ge (m.nibble base q) j (by omega)]

/-- Setting one bit of a slice changes that bit and no other of the slice. -/
theorem bit_write_setBit (h : m.wf) (base b c : Nat) (v : Bool) :
    (m.write (base + b / 8) (setBit (m.read (base + b / 8)) (b % 8) v)).bit base c =
      if c = b then v else m.bit base c := by
  simp only [Memory.bit, Memory.read_write h]
  by_cases hbyte : c / 8 = b / 8
  · rw [hbyte, if_pos rfl, getLsbD_setBit _ (Nat.mod_lt b (by decide))]
    exact if_congr (by omega) rfl rfl
  · rw [if_neg (by omega), if_neg (by omega)]

/-- Setting a nibble of a slice sets its four bits and changes no other bit of the slice. -/
theorem bit_setNibble (h : m.wf) (base q c : Nat) (d : Nibble) :
    (m.setNibble base q d).bit base c =
      if 4 * q ≤ c ∧ c < 4 * q + 4 then d.getLsbD (c - 4 * q) else m.bit base c := by
  simp only [Memory.bit, Memory.setNibble, Memory.read_write h]
  by_cases hbyte : c / 8 = q / 2
  · have hhalf : (decide (q % 2 = 1)).toNat = q % 2 := by
      obtain hq | hq := Nat.mod_two_eq_zero_or_one q <;> simp [hq]
    rw [hbyte, if_pos rfl, getLsbD_replaceNibble, hhalf]
    by_cases hin : 4 * q ≤ c ∧ c < 4 * q + 4
    · rw [if_pos hin, if_pos (by omega)]
      congr 1
      omega
    · rw [if_neg hin, if_neg (by omega)]
  · rw [if_neg (by omega), if_neg (by omega)]

/-! ### Reading -/

/-- Bit `j` of what `BitRead` returns (R79). -/
theorem testBit_bitRead (m : Memory) (base b k j : Nat) :
    (m.bitRead base b k).testBit j = (decide (j < k) && m.bit base (b + j)) := by
  induction k generalizing b j with
  | zero => simp [Memory.bitRead]
  | succ k ih =>
    have hhead : (m.bit base b).toNat < 2 ^ 1 := Bool.toNat_lt _
    have h := Nat.testBit_two_pow_mul_add (m.bitRead base (b + 1) k) hhead j
    rw [Memory.bitRead, Nat.add_comm, h, ih]
    cases j with
    | zero => cases m.bit base b <;> simp
    | succ j => simp [show b + 1 + j = b + (j + 1) by omega]

/-- Bit `j` of what `NibRead` returns (R77). -/
theorem testBit_nibRead (m : Memory) (base q n j : Nat) :
    (m.nibRead base q n).testBit j = (decide (j < 4 * n) && m.bit base (4 * q + j)) := by
  induction n generalizing q j with
  | zero => simp [Memory.nibRead]
  | succ n ih =>
    have h := Nat.testBit_two_pow_mul_add (m.nibRead base (q + 1) n) (m.nibble base q).isLt j
    rw [Memory.nibRead, Nat.add_comm, h, ih, BitVec.testBit_toNat, getLsbD_nibble]
    by_cases hj : j < 4
    · simp [hj, show j < 4 * (n + 1) by omega]
    · simp [hj, show 4 * (q + 1) + (j - 4) = 4 * q + j by omega, show j - 4 < 4 * n ↔ j < 4 * (n + 1) by omega]

/-- `NibRead` is `BitRead` at multiples of 4 (R79). -/
theorem nibRead_eq_bitRead (m : Memory) (base q n : Nat) : m.nibRead base q n = m.bitRead base (4 * q) (4 * n) :=
  Nat.eq_of_testBit_eq fun j => by rw [testBit_nibRead, testBit_bitRead]

/-! ### Writing -/

/-- The bits of a slice after `BitWrite` (R79). -/
theorem bit_bitWrite (h : m.wf) (base b k c : Nat) (v : Word) :
    (m.bitWrite base b k v).bit base c = if b ≤ c ∧ c < b + k then v.getLsbD (c - b) else m.bit base c := by
  induction k generalizing m b v with
  | zero => rw [if_neg (by omega)]; rfl
  | succ k ih =>
    rw [Memory.bitWrite, ih (Memory.write_wf h _ _), bit_write_setBit h]
    by_cases hhead : c = b
    · rw [if_neg (by omega), if_pos hhead, if_pos (by omega), show c - b = 0 by omega]
    · rw [if_neg hhead, BitVec.getLsbD_ushiftRight]
      by_cases hin : b + 1 ≤ c ∧ c < b + 1 + k
      · rw [if_pos hin, if_pos (by omega), show 1 + (c - (b + 1)) = c - b by omega]
      · rw [if_neg hin, if_neg (by omega)]

/-- The bits of a slice after `NibWrite` (R78). -/
theorem bit_nibWrite (h : m.wf) (base q n c : Nat) (v : Word) :
    (m.nibWrite base q n v).bit base c =
      if 4 * q ≤ c ∧ c < 4 * q + 4 * n then v.getLsbD (c - 4 * q) else m.bit base c := by
  induction n generalizing m q v with
  | zero => rw [if_neg (by omega)]; rfl
  | succ n ih =>
    rw [Memory.nibWrite, ih (Memory.setNibble_wf h _ _ _), bit_setNibble h, BitVec.getLsbD_ushiftRight,
      BitVec.getLsbD_extractLsb']
    by_cases hhead : 4 * q ≤ c ∧ c < 4 * q + 4
    · rw [if_neg (by omega), if_pos hhead, if_pos (by omega)]
      simp [show c - 4 * q < 4 by omega]
    · rw [if_neg hhead]
      by_cases hin : 4 * (q + 1) ≤ c ∧ c < 4 * (q + 1) + 4 * n
      · rw [if_pos hin, if_pos (by omega), show 4 + (c - 4 * (q + 1)) = c - 4 * q by omega]
      · rw [if_neg hin, if_neg (by omega)]

/-- `BitWrite` leaves every byte below its slice alone. -/
theorem read_bitWrite_below (h : m.wf) {base b k a : Nat} {v : Word} (ha : a < base) :
    (m.bitWrite base b k v).read a = m.read a := by
  induction k generalizing m b v with
  | zero => rfl
  | succ k ih => rw [Memory.bitWrite, ih (Memory.write_wf h _ _), Memory.read_write_other h _ (by omega)]

/-- `NibWrite` leaves every byte alone in which it sets no nibble. -/
theorem read_nibWrite_outside (h : m.wf) {base q n a : Nat} {v : Word}
    (ha : a < base + q / 2 ∨ base + (q + n + 1) / 2 ≤ a) : (m.nibWrite base q n v).read a = m.read a := by
  induction n generalizing m q v with
  | zero => rfl
  | succ n ih =>
    rw [Memory.nibWrite, ih (Memory.setNibble_wf h _ _ _) (by omega), Memory.read_setNibble_outside h (by omega)]

/-- `NibWrite` is `BitWrite` at multiples of 4 (R79). -/
theorem nibWrite_eq_bitWrite (h : m.wf) (base q n : Nat) (v : Word) :
    m.nibWrite base q n v = m.bitWrite base (4 * q) (4 * n) v := by
  refine ext_bit (Memory.nibWrite_wf h _ _ _ _) (Memory.bitWrite_wf h _ _ _ _) base (fun c => ?_) fun a ha => ?_
  · rw [bit_nibWrite h, bit_bitWrite h]
  · rw [read_nibWrite_outside h (by omega), read_bitWrite_below h ha]

end Memory

/-- Settles O22: the two reads have the same bits, and the two writes leave the same bits. -/
theorem nibbleAccessIsBitAccess : Obligations.NibbleAccessIsBitAccess := by
  intro m base q n v hwf _
  exact ⟨Memory.nibRead_eq_bitRead m base q n, Memory.nibWrite_eq_bitWrite hwf base q n v⟩

end Sys2Proof.Machine
end

section
/-! SUPPORT. The size of an encoded block (30_encoding.md R113). -/

namespace Sys2Proof.Machine

/-- The 1 bits of the mask count the zero values. -/
theorem count_testBit_maskBits (l : List Word) :
    ((List.range l.length).filter fun j => (maskBits l).testBit j).length = l.count 0 := by
  induction l with
  | nil => rfl
  | cons v rest ih =>
    have hhead : (maskBits (v :: rest)).testBit 0 = (v == 0) := by
      rw [Nat.testBit_zero, maskBits, Nat.add_mul_mod_self_left]
      by_cases hv : v = 0
      · simp [hv]
      · rw [if_neg hv, beq_false_of_ne hv]
        rfl
    have htail : ∀ j, (maskBits (v :: rest)).testBit (j + 1) = (maskBits rest).testBit j := by
      intro j
      rw [Nat.testBit_succ, maskBits]
      congr 1
      split <;> omega
    have hrest : ((List.range rest.length).filter ((fun j => (maskBits (v :: rest)).testBit j) ∘ Nat.succ)).length =
        rest.count 0 := by
      simpa only [Function.comp_def, Nat.succ_eq_add_one, htail] using ih
    rw [List.length_cons, List.range_succ_eq_map, List.filter_cons, List.count_cons, hhead]
    split <;> simp [List.filter_map, hrest]

/-- The mask of a block has as many 1 bits as the block has zero slots. -/
theorem popcount8_zeroMask (x : Slots) : popcount8 (zeroMask x) = x.toList.count 0 := by
  rw [← count_testBit_maskBits, popcount8, Vector.length_toList]
  refine congrArg List.length (List.filter_congr fun j hj => ?_)
  simp only [zeroMask, BitVec.getLsbD_ofNat, List.mem_range.1 hj, decide_true, Bool.true_and]

/-- Two nibbles make a byte, and a last single nibble makes one too. -/
theorem packNibbles_length (l : List Nibble) : (packNibbles l).length = (l.length + 1) / 2 := by
  induction l using packNibbles.induct with
  | case1 => rfl
  | case2 a => simp [packNibbles]
  | case3 a b rest ih => simp only [packNibbles, List.length_cons, ih]; omega

/-- The payload holds `n` nibbles for each value that is not 0. -/
theorem payloadNibbles_length (l : List Word) (n : Nat) :
    (payloadNibbles l n).length = (l.length - l.count 0) * n := by
  have hstored : (l.filter (· ≠ 0)).length = l.length - l.count 0 := by
    rw [← List.countP_eq_length_filter, List.count, List.length_eq_countP_add_countP (· == 0)]
    simp
  rw [payloadNibbles, List.length_flatMap]
  simp only [nibblesOf, List.length_map, List.length_range, List.map_const', List.sum_replicate, hstored, smul_eq_mul]

/-- An encoded block has the size of R113. -/
theorem encodeBlock_length (x : Slots) : (encodeBlock x).length = blockSize (blockNibbles x) (zeroMask x) := by
  simp only [encodeBlock, List.length_cons, packNibbles_length, payloadNibbles_length, blockSize, ceilDiv,
    popcount8_zeroMask, Vector.length_toList]
  omega

end Sys2Proof.Machine
end

section
/-! CLAIM. What a command changes in memory (20_memory.md R71, R74; 70_reset_and_hazards.md R281). -/

namespace Sys2Proof.Machine

open Sys2Proof.Safety

/-! ### What the commit phases write -/

/-- A stream's walk delivers at most the values it declares (R173). -/
theorem streamCheck_deliver_le {m : Memory} {base len p lim : Nat} {i : StreamInfo}
    (h : streamCheck m base len p lim = .ok i) : i.deliver ≤ i.count := by
  simp only [streamCheck] at h
  split_ifs at h
  split at h
  · cases h
  · cases h
    exact Nat.min_le_left _ _

/-- A frame's stream delivers at most the elements the output has room for (R212). -/
theorem frameStreamCheck_deliver_le {m : Memory} {base len p outCap nb : Nat} {i : StreamInfo}
    (h : frameStreamCheck m base len p outCap nb = .ok i) : i.deliver ≤ outCap := by
  simp only [frameStreamCheck] at h
  split at h
  · cases h
  · rename_i hcheck
    split_ifs at h
    cases h
    have hle := streamCheck_deliver_le hcheck
    omega

theorem frameCheck_deliver_le {m : Memory} {base len p outCap : Nat} {i : FrameInfo}
    (h : frameCheck m base len p outCap = .ok i) : i.stream.deliver ≤ outCap := by
  simp only [frameCheck] at h
  split at h
  · cases h
  split at h
  · cases h
  · split_ifs at h
    split at h
    · cases h
    · rename_i hstream
      cases h
      exact frameStreamCheck_deliver_le hstream

/-- Pushing a list writes only the elements after the last. -/
theorem State.pushAll_sameOutside {s : State} (h : s.mem.wf) (md : SinkMode) (l : List Word)
    (hl : s.outLen.toNat + l.length < 2 ^ 64) :
    SameOutside s.mem (s.pushAll md l).mem (s.outBase.toNat + 8 * s.outLen.toNat) (8 * l.length) := by
  induction l generalizing s with
  | nil => intro _ _; rfl
  | cons v rest ih =>
    intro b hb
    rw [List.length_cons] at hl hb
    have hnext : (s.outLen + 1).toNat = s.outLen.toNat + 1 := by simp; omega
    have hrest := ih (State.sinkPush_wf h md v) (by rw [State.sinkPush_outLen]; omega) b
      (by rw [State.sinkPush_outLen, State.sinkPush_outBase]; omega)
    rw [State.pushAll, hrest, State.sinkPush_mem, Memory.read_writeElem_outside h (by omega)]

/-- The commit phase of `DECODE` writes only the elements it delivers, after the last. -/
theorem State.commitDecoded_sameOutside {s : State} (h : s.mem.wf) (md : SinkMode) (i : StreamInfo)
    (hl : s.outLen.toNat + i.deliver < 2 ^ 64) :
    SameOutside s.mem (s.commitDecoded md i).mem (s.outBase.toNat + 8 * s.outLen.toNat) (8 * i.deliver) := by
  have hlen : (streamValues s.mem s.srcBase.toNat i).length ≤ i.deliver := List.length_take_le _ _
  have hpush : SameOutside (s.stageRead i.blocks).mem (s.commitDecoded md i).mem _ _ :=
    State.pushAll_sameOutside (s := s.stageRead i.blocks) (by rw [State.stageRead_frame]; exact h) md
      (streamValues s.mem s.srcBase.toNat i) (by rw [State.stageRead_frame]; simp only; omega)
  rw [State.stageRead_frame] at hpush
  intro b hb
  exact hpush b (by simp only; omega)

@[simp] theorem State.commitEncoded_mem (s : State) (t : List Word) (bytes : List Byte) (a : Word) :
    (s.commitEncoded t bytes a).mem = s.mem.writeBytes (s.dstBase.toNat + byteOffset s.wnib) bytes := rfl

@[simp] theorem State.commitFrame_mem (s : State) :
    s.commitFrame.mem = s.mem.writeBytes (s.dstBase.toNat + byteOffset s.wnib) s.frameBytes := by
  rw [State.commitFrame, State.commitEncoded_mem]

/-- Undoing a format's order of `k` elements writes only those elements. -/
theorem State.undoOrder_sameOutside {s : State} (h : s.mem.wf) (f : Byte) (k : Nat) :
    SameOutside s.mem (s.undoOrder f k).mem s.outBase.toNat (8 * k) := by
  intro b hb
  rw [State.undoOrder]
  split
  · exact read_reverseElems_outside h (Nat.div_le_self k 2) hb
  · rfl

/-- The commit phase of `DECODE` keeps the canonical form. -/
theorem State.commitDecoded_wf {s : State} (h : s.mem.wf) (md : SinkMode) (i : StreamInfo) :
    (s.commitDecoded md i).mem.wf :=
  State.pushAll_wf (s := s.stageRead i.blocks) (by rw [State.stageRead_frame]; exact h) md _

@[simp] theorem State.commitDecoded_outBase (s : State) (md : SinkMode) (i : StreamInfo) :
    (s.commitDecoded md i).outBase = s.outBase := by
  rw [State.commitDecoded_frame]

/-- The commit phase of `HDEC` writes only the elements it delivers, from the first. -/
theorem State.commitFrameRead_sameOutside {s : State} (h : s.mem.wf) (i : FrameInfo)
    (hl : i.stream.deliver < 2 ^ 64) :
    SameOutside s.mem (s.commitFrameRead i).mem s.outBase.toNat (8 * i.stream.deliver) := by
  have hpush := State.commitDecoded_sameOutside (s := s.resetSink) h .delta i.stream (by simpa using hl)
  have hundo := State.undoOrder_sameOutside (State.commitDecoded_wf (s := s.resetSink) h .delta i.stream) i.format
    i.stream.deliver
  rw [State.commitDecoded_outBase] at hundo
  intro b hb
  exact (hundo b hb).trans (hpush b (by simpa using hb))

/-! ### Bytes a command may store to -/

/-- From `s` to `t` memory changes only at bytes the command may store to. -/
def StoresOnly (i : Instr) (s t : State) : Prop := ∀ a, t.mem.read a ≠ s.mem.read a → mayStore s a i

namespace StoresOnly

variable {i : Instr} {s t : State}

theorem of_mem_eq (h : t.mem = s.mem) : StoresOnly i s t := fun a ha => absurd (by rw [h]) ha

/-- A run of bytes outside which memory stays the same lies within what the command may store to. -/
theorem of_sameOutside {b len : Nat} (h : SameOutside s.mem t.mem b len)
    (hin : ∀ a, b ≤ a → a < b + len → mayStore s a i) : StoresOnly i s t := by
  intro a ha
  have hrange : ¬ (a < b ∨ b + len ≤ a) := fun hout => ha (h a hout)
  exact hin a (by omega) (by omega)

theorem succeed (h : StoresOnly i s t) : StoresOnly i s t.succeed := h

theorem raise (i : Instr) (s : State) (c : Subcause) : StoresOnly i s (s.raise c) := of_mem_eq rfl

theorem raiseIn (i : Instr) (s : State) (st : FrameState) (c : Subcause) : StoresOnly i s (s.raiseIn st c) :=
  of_mem_eq rfl

/-- The room `WRNIB` tests for holds every byte of which it writes a nibble (R80, R138); with no nibble to write the
cursor may stand past the slice, and memory stays as it is. -/
theorem writeField (hwf : s.mem.wf) {n : NibCount} (hroom : n.toNat ≤ s.nibblesToWrite) (rs : SlotIx) :
    StoresOnly (.wrnib rs n) s (s.writeField rs n.toNat) := by
  obtain hn | hn := Nat.eq_zero_or_pos n.toNat
  · exact of_mem_eq (by rw [State.writeField_mem, hn]; rfl)
  rw [State.nibblesToWrite] at hroom
  intro a ha
  by_cases hin : a < s.dstBase.toNat + s.wnib.toNat / 2 ∨ s.dstBase.toNat + (s.wnib.toNat + n.toNat + 1) / 2 ≤ a
  · exact absurd (Memory.read_nibWrite_outside hwf hin) ha
  · exact ⟨by omega, by omega⟩

/-- What `PACK`, `ENCODE` and `HENC` have in common: they write bytes at the write cursor when the destination has room
for them (R74). -/
theorem of_writeBytes (hwf : s.mem.wf) {bytes : List Byte} (hroom : byteOffset s.wnib + bytes.length ≤ s.dstCap.toNat)
    (hmem : t.mem = s.mem.writeBytes (s.dstBase.toNat + byteOffset s.wnib) bytes)
    (hslice : ∀ a, s.dstBase.toNat + byteOffset s.wnib ≤ a → a < s.dstBase.toNat + s.dstCap.toNat → mayStore s a i) :
    StoresOnly i s t :=
  of_sameOutside (fun a ha => by rw [hmem, Memory.read_writeBytes_outside hwf ha])
    fun a hlo hhi => hslice a hlo (by omega)

theorem packBlock (hwf : s.mem.wf)
    (hroom : byteOffset s.wnib + blockSize (blockNibbles s.x) (zeroMask s.x) ≤ s.dstCap.toNat) :
    StoresOnly .pack s s.packBlock :=
  of_writeBytes hwf (by rwa [encodeBlock_length]) s.packBlock_mem fun _ => .intro

theorem commitEncoded (hwf : s.mem.wf) {bytes : List Byte} (hroom : byteOffset s.wnib + bytes.length ≤ s.dstCap.toNat)
    (l : List Word) (acc : Word) : StoresOnly .encode s (s.commitEncoded l bytes acc) :=
  of_writeBytes hwf hroom (s.commitEncoded_mem l bytes acc) fun _ => .intro

theorem commitFrame (hwf : s.mem.wf) (hroom : byteOffset s.wnib + s.frameBytes.length ≤ s.dstCap.toNat) :
    StoresOnly .henc s s.commitFrame :=
  of_writeBytes hwf hroom s.commitFrame_mem fun _ => .intro

theorem sinkPush (hwf : s.mem.wf) (hroom : s.outLen.toNat < s.outCap.toNat) (md : SinkMode) (v : Word) (rs : SlotIx) :
    StoresOnly (.push rs) s (s.sinkPush md v) := by
  refine of_sameOutside (b := s.outBase.toNat + 8 * s.outLen.toNat) (len := 8) (fun a ha => ?_)
    fun a hlo hhi => ⟨hlo, by omega⟩
  rw [State.sinkPush_mem, Memory.read_writeElem_outside hwf ha]

theorem commitDecoded (hwf : s.mem.wf) {k : StreamInfo} (hroom : s.outLen.toNat + k.deliver ≤ s.outCap.toNat)
    (md : SinkMode) : StoresOnly .decode s (s.commitDecoded md k) :=
  of_sameOutside (State.commitDecoded_sameOutside hwf md k (by omega)) fun a hlo hhi => ⟨hlo, by omega⟩

theorem commitFrameRead (hwf : s.mem.wf) {k : FrameInfo} (hroom : k.stream.deliver ≤ s.outCap.toNat) :
    StoresOnly .hdec s (s.commitFrameRead k) :=
  of_sameOutside (State.commitFrameRead_sameOutside hwf k (by omega)) fun a hlo hhi => ⟨hlo, by omega⟩

end StoresOnly

/-! ### Endings whose room a test has checked -/

theorem EndsWith.ite_of {P : State → Prop} {c : Prop} [Decidable c] {a b : Result} (ha : c → EndsWith P a)
    (hb : ¬c → EndsWith P b) : EndsWith P (if c then a else b) := by
  split
  · exact ha ‹_›
  · exact hb ‹_›

theorem EndsWith.emit_of_room {P : State → Prop} {s onFull commit : State} {values : Slice} {bytes : List Byte}
    (hfull : P onFull) (hcommit : byteOffset s.wnib + bytes.length ≤ s.dstCap.toNat → P commit) :
    EndsWith P (s.emit values bytes onFull commit) := by
  intro t ht
  obtain ⟨-, rfl⟩ | ⟨hroom, -, rfl⟩ := State.emit_eq_next ht
  · exact hfull
  · exact hcommit hroom

/-! ### The commands, along the branches of their definitions -/

/-- Every next state differs from `s` in memory only at bytes the command may store to. -/
abbrev StoresInItsSlice (i : Instr) (s : State) (r : Result) : Prop := EndsWith (StoresOnly i s) r

theorem execRdnib_storesInItsSlice (rd : SlotIx) (n : NibCount) (s : State) :
    StoresInItsSlice (.rdnib rd n) s (execRdnib rd n s) :=
  .of_using (.ite (.next (.raise _ s _)) (.next (.of_mem_eq rfl)))

theorem execWrnib_storesInItsSlice {s : State} (hwf : s.mem.wf) (rs : SlotIx) (n : NibCount) :
    StoresInItsSlice (.wrnib rs n) s (execWrnib rs n s) :=
  .of_using (.ite_of (fun _ => .next (.raise _ s _)) fun hroom => .next (.succeed (.writeField hwf (by omega) rs)))

theorem execPack_storesInItsSlice {s : State} (hwf : s.mem.wf) : StoresInItsSlice .pack s (execPack s) :=
  .ite (.next (.raise _ s _))
    (.of_using (.ite_of (fun _ => .next (.raise _ s _)) fun hroom => .next (.succeed (.packBlock hwf (by omega)))))

theorem execUnpack_storesInItsSlice (s : State) : StoresInItsSlice .unpack s (execUnpack s) := by
  refine .ite (.next (.raise _ s _)) (.of_using ?_)
  split
  · exact .next (.raise _ s _)
  · exact .next (.of_mem_eq rfl)

theorem execPush_storesInItsSlice {s : State} (hwf : s.mem.wf) (rs : SlotIx) :
    StoresInItsSlice (.push rs) s (execPush rs s) := by
  simp only [execPush]
  split
  · exact .next (.raise _ s _)
  · exact .of_using (.ite_of (fun _ => .next (.raise _ s _)) fun hroom =>
      .next (.succeed (.sinkPush hwf (by omega) _ _ rs)))

theorem execEncode_storesInItsSlice {s : State} (hwf : s.mem.wf) : StoresInItsSlice .encode s (execEncode s) := by
  refine .ite (.next (.raise _ s _)) (.ite (.next (.raise _ s _)) ?_)
  split
  · exact .next (.raise _ s _)
  · exact .of_using (.emit_of_room (.raise _ s _) fun hroom => .succeed (.commitEncoded hwf hroom _ _))

theorem decodeUnder_storesInItsSlice {s : State} (hwf : s.mem.wf) (md : SinkMode) :
    StoresInItsSlice .decode s (decodeUnder md s) := by
  simp only [decodeUnder]
  split
  · exact .next (.raise _ s _)
  · exact .ite_of (fun _ => .next (.raise _ s _)) fun hroom =>
      .ite (.refused _ _) (.next (.succeed (.commitDecoded hwf (by omega) md)))

theorem execDecode_storesInItsSlice {s : State} (hwf : s.mem.wf) : StoresInItsSlice .decode s (execDecode s) := by
  refine .ite (.next (.raise _ s _)) ?_
  split
  · exact .next (.raise _ s _)
  · exact .of_using (decodeUnder_storesInItsSlice hwf _)

theorem execHenc_storesInItsSlice {s : State} (hwf : s.mem.wf) : StoresInItsSlice .henc s (execHenc s) := by
  simp only [execHenc]
  split
  · exact .next (.raiseIn _ s _ _)
  · exact .of_using (.emit_of_room (.raiseIn _ s _ _) fun hroom => .succeed (.commitFrame hwf hroom))

theorem decodeFrame_storesInItsSlice {s : State} (hwf : s.mem.wf) : StoresInItsSlice .hdec s (decodeFrame s) := by
  simp only [decodeFrame]
  split
  · exact .next (.raiseIn _ s _ _)
  · rename_i hcheck
    exact .ite (.refused _ _) (.next (.succeed (.commitFrameRead hwf (frameCheck_deliver_le hcheck))))

theorem execHdec_storesInItsSlice {s : State} (hwf : s.mem.wf) : StoresInItsSlice .hdec s (execHdec s) :=
  .ite (.next (.raiseIn _ s _ _)) (.of_using (decodeFrame_storesInItsSlice hwf))

/-- The commands of the first case write registers alone; the others have a test of room, or only read memory. -/
theorem exec_storesInItsSlice {s : State} (hwf : s.mem.wf) (i : Instr) : StoresInItsSlice i s (exec i s) := by
  cases i with
  | nop | bitw rd rs | zzenc rd rs | zzdec rd rs | scan | sreset => exact .next (.of_mem_eq rfl)
  | rdnib rd n => exact execRdnib_storesInItsSlice rd n s
  | wrnib rs n => exact execWrnib_storesInItsSlice hwf rs n
  | pack => exact execPack_storesInItsSlice hwf
  | unpack => exact execUnpack_storesInItsSlice s
  | push rs => exact execPush_storesInItsSlice hwf rs
  | encode => exact execEncode_storesInItsSlice hwf
  | decode => exact execDecode_storesInItsSlice hwf
  | henc => exact execHenc_storesInItsSlice hwf
  | hdec => exact execHdec_storesInItsSlice hwf

/-- Settles O51: along the branches of every command, each commit phase writes only where the test before it has found
room. -/
theorem commandsStoreOnlyIntoTheirSlice : Obligations.CommandsStoreOnlyIntoTheirSlice :=
  fun i _ t a hwf h ha => exec_storesInItsSlice hwf i t h a ha

end Sys2Proof.Machine
end

section
/-! SUPPORT. The fields of a command word (30_encoding.md R100): reading them from an assembled word, and that they make
up the word. -/

namespace Sys2Proof

open Sys2Proof.Laws

theorem assemble_rd (op : Byte) (rd rs : SlotIx) (n : NibCount) : CommandWord.rd (assemble op rd rs n) = rd := by
  simp only [CommandWord.rd, assemble]
  rw [BitVec.extractLsb'_append_eq_of_le (by omega), BitVec.extractLsb'_append_eq_right]

theorem assemble_rs (op : Byte) (rd rs : SlotIx) (n : NibCount) : CommandWord.rs (assemble op rd rs n) = rs := by
  simp only [CommandWord.rs, assemble]
  rw [BitVec.extractLsb'_append_eq_of_le (by omega), BitVec.extractLsb'_append_eq_of_le (by omega),
    BitVec.extractLsb'_append_eq_right]

theorem assemble_n (op : Byte) (rd rs : SlotIx) (n : NibCount) : CommandWord.n (assemble op rd rs n) = n := by
  simp only [CommandWord.n, assemble]
  rw [BitVec.extractLsb'_append_eq_of_le (by omega), BitVec.extractLsb'_append_eq_of_le (by omega),
    BitVec.extractLsb'_append_eq_of_le (by omega), BitVec.extractLsb'_append_eq_right]

/-- The five fields, from the highest bits down, are the word. -/
theorem append_fields (w : CommandWord) :
    CommandWord.zero w ++ CommandWord.n w ++ CommandWord.rs w ++ CommandWord.rd w ++ CommandWord.op w = w := by
  simp only [CommandWord.zero, CommandWord.n, CommandWord.rs, CommandWord.rd, CommandWord.op]
  rw [BitVec.extractLsb'_append_extractLsb'_eq_extractLsb' (by rfl),
    BitVec.extractLsb'_append_extractLsb'_eq_extractLsb' (by rfl),
    BitVec.extractLsb'_append_extractLsb'_eq_extractLsb' (by rfl),
    BitVec.extractLsb'_append_extractLsb'_eq_extractLsb' (by rfl)]
  exact BitVec.extractLsb'_eq_self

/-- A word is assembled from given fields exactly when these are its fields and bits 31:19 are zero. -/
theorem assemble_eq_iff {w : CommandWord} {op : Byte} {rd rs : SlotIx} {n : NibCount} :
    assemble op rd rs n = w ↔
      CommandWord.op w = op ∧ CommandWord.rd w = rd ∧ CommandWord.rs w = rs ∧ CommandWord.n w = n ∧
        CommandWord.zero w = 0 := by
  constructor
  · rintro rfl
    exact ⟨assemble_op .., assemble_rd .., assemble_rs .., assemble_n .., assemble_zero ..⟩
  · rintro ⟨rfl, rfl, rfl, rfl, hzero⟩
    rw [assemble, ← hzero, append_fields]

end Sys2Proof
end

section
/-! CLAIM. The command decoder and encoder (30_encoding.md R100 to R107, R110). -/

namespace Sys2Proof

open Sys2Proof.Machine Sys2Proof.Safety Sys2Proof.Laws

/-! ### What each format accepts -/

theorem acceptWhen_eq_ok {z l : Bool} {i j : Instr} : acceptWhen z l i = .ok j ↔ z = true ∧ l = true ∧ i = j := by
  cases z <;> cases l <;> simp [acceptWhen]

/-- `w` is the word of the well-formed command `i`. -/
def Encodes (w : CommandWord) (i : Instr) : Prop := i.wellFormed = true ∧ encode i = w

section Formats

variable {w : CommandWord} {c : Nat} {i : Instr}

theorem op_eq_of_toNat (hop : (CommandWord.op w).toNat = c) : CommandWord.op w = BitVec.ofNat 8 c := by
  rw [← hop, BitVec.ofNat_toNat, BitVec.setWidth_eq]

theorem Encodes.of_decodeZ {j : Instr} (hop : (CommandWord.op w).toNat = c) (hwf : j.wellFormed = true)
    (henc : encode j = assemble (BitVec.ofNat 8 c) 0 0 0) (h : decodeZ w j = .ok i) : Encodes w i := by
  simp only [decodeZ, acceptWhen_eq_ok, Bool.and_eq_true, beq_iff_eq] at h
  obtain ⟨⟨⟨⟨hrd, hrs⟩, hn⟩, hzero⟩, -, rfl⟩ := h
  exact ⟨hwf, henc.trans (assemble_eq_iff.2 ⟨op_eq_of_toNat hop, hrd, hrs, hn, hzero⟩)⟩

theorem Encodes.of_decodeRR {mk : SlotIx → SlotIx → Instr} (hop : (CommandWord.op w).toNat = c)
    (hwf : ∀ rd rs, (mk rd rs).wellFormed = true)
    (henc : ∀ rd rs, encode (mk rd rs) = assemble (BitVec.ofNat 8 c) rd rs 0) (h : decodeRR w mk = .ok i) :
    Encodes w i := by
  simp only [decodeRR, acceptWhen_eq_ok, Bool.and_eq_true, beq_iff_eq] at h
  obtain ⟨⟨hn, hzero⟩, -, rfl⟩ := h
  exact ⟨hwf _ _, (henc _ _).trans (assemble_eq_iff.2 ⟨op_eq_of_toNat hop, rfl, rfl, hn, hzero⟩)⟩

theorem Encodes.of_decodeRS {mk : SlotIx → Instr} (hop : (CommandWord.op w).toNat = c)
    (hwf : ∀ rs, (mk rs).wellFormed = true) (henc : ∀ rs, encode (mk rs) = assemble (BitVec.ofNat 8 c) 0 rs 0)
    (h : decodeRS w mk = .ok i) : Encodes w i := by
  simp only [decodeRS, acceptWhen_eq_ok, Bool.and_eq_true, beq_iff_eq] at h
  obtain ⟨⟨⟨hrd, hn⟩, hzero⟩, -, rfl⟩ := h
  exact ⟨hwf _, (henc _).trans (assemble_eq_iff.2 ⟨op_eq_of_toNat hop, hrd, rfl, hn, hzero⟩)⟩

theorem Encodes.of_decodeDN {mk : SlotIx → NibCount → Instr} (hop : (CommandWord.op w).toNat = c)
    (hwf : ∀ rd n, (mk rd n).wellFormed = NibCount.legal n)
    (henc : ∀ rd n, encode (mk rd n) = assemble (BitVec.ofNat 8 c) rd 0 n) (h : decodeDN w mk = .ok i) :
    Encodes w i := by
  simp only [decodeDN, acceptWhen_eq_ok, Bool.and_eq_true, beq_iff_eq] at h
  obtain ⟨⟨hrs, hzero⟩, hn, rfl⟩ := h
  exact ⟨(hwf _ _).trans hn, (henc _ _).trans (assemble_eq_iff.2 ⟨op_eq_of_toNat hop, rfl, hrs, rfl, hzero⟩)⟩

theorem Encodes.of_decodeSN {mk : SlotIx → NibCount → Instr} (hop : (CommandWord.op w).toNat = c)
    (hwf : ∀ rs n, (mk rs n).wellFormed = NibCount.legal n)
    (henc : ∀ rs n, encode (mk rs n) = assemble (BitVec.ofNat 8 c) 0 rs n) (h : decodeSN w mk = .ok i) :
    Encodes w i := by
  simp only [decodeSN, acceptWhen_eq_ok, Bool.and_eq_true, beq_iff_eq] at h
  obtain ⟨⟨hrd, hzero⟩, hn, rfl⟩ := h
  exact ⟨(hwf _ _).trans hn, (henc _ _).trans (assemble_eq_iff.2 ⟨op_eq_of_toNat hop, hrd, rfl, rfl, hzero⟩)⟩

end Formats

/-! ### Decoding an assembled word -/

section Assembled

variable (op : Byte) (rd rs : SlotIx) (n : NibCount)

theorem decodeZ_assemble (i : Instr) : decodeZ (assemble op 0#3 0#3 0#5) i = .ok i := by
  simp [decodeZ, acceptWhen_eq_ok, assemble_rd, assemble_rs, assemble_n, assemble_zero]

theorem decodeRR_assemble (mk : SlotIx → SlotIx → Instr) : decodeRR (assemble op rd rs 0#5) mk = .ok (mk rd rs) := by
  simp [decodeRR, acceptWhen_eq_ok, assemble_rd, assemble_rs, assemble_n, assemble_zero]

theorem decodeRS_assemble (mk : SlotIx → Instr) : decodeRS (assemble op 0#3 rs 0#5) mk = .ok (mk rs) := by
  simp [decodeRS, acceptWhen_eq_ok, assemble_rd, assemble_rs, assemble_n, assemble_zero]

variable {n} (hn : NibCount.legal n = true)
include hn

theorem decodeDN_assemble (mk : SlotIx → NibCount → Instr) : decodeDN (assemble op rd 0#3 n) mk = .ok (mk rd n) := by
  simp [decodeDN, acceptWhen_eq_ok, assemble_rd, assemble_rs, assemble_n, assemble_zero, hn]

theorem decodeSN_assemble (mk : SlotIx → NibCount → Instr) : decodeSN (assemble op 0#3 rs n) mk = .ok (mk rs n) := by
  simp [decodeSN, acceptWhen_eq_ok, assemble_rd, assemble_rs, assemble_n, assemble_zero, hn]

end Assembled

/-! ### The whole decoder -/

/-- Along the arms of the opcode map (R105). -/
theorem Encodes.of_decode {w : CommandWord} {i : Instr} (h : decode w = .ok i) : Encodes w i := by
  simp only [decode] at h
  split at h
  · exact .of_decodeZ ‹_› rfl rfl h
  · exact .of_decodeRR ‹_› (fun _ _ => rfl) (fun _ _ => rfl) h
  · exact .of_decodeRR ‹_› (fun _ _ => rfl) (fun _ _ => rfl) h
  · exact .of_decodeRR ‹_› (fun _ _ => rfl) (fun _ _ => rfl) h
  · exact .of_decodeDN ‹_› (fun _ _ => rfl) (fun _ _ => rfl) h
  · exact .of_decodeSN ‹_› (fun _ _ => rfl) (fun _ _ => rfl) h
  · exact .of_decodeZ ‹_› rfl rfl h
  · exact .of_decodeZ ‹_› rfl rfl h
  · exact .of_decodeZ ‹_› rfl rfl h
  · exact .of_decodeZ ‹_› rfl rfl h
  · exact .of_decodeRS ‹_› (fun _ => rfl) (fun _ => rfl) h
  · exact .of_decodeZ ‹_› rfl rfl h
  · exact .of_decodeZ ‹_› rfl rfl h
  · exact .of_decodeZ ‹_› rfl rfl h
  · exact .of_decodeZ ‹_› rfl rfl h
  · cases h

/-- Settles O1: the opcode field picks the arm of the opcode map, and the arm's format accepts the assembled fields. -/
theorem decodeInvertsEncode : Obligations.DecodeInvertsEncode := by
  intro i hwf
  cases i with
  | nop | scan | pack | unpack | sreset | encode | decode | henc | hdec =>
    simp [encode, decode, assemble_op, decodeZ_assemble]
  | bitw rd rs | zzenc rd rs | zzdec rd rs => simp [encode, decode, assemble_op, decodeRR_assemble]
  | push rs => simp [encode, decode, assemble_op, decodeRS_assemble]
  | rdnib rd n => simp [encode, decode, assemble_op, decodeDN_assemble _ _ hwf]
  | wrnib rs n => simp [encode, decode, assemble_op, decodeSN_assemble _ _ hwf]

/-- Settles O2: an arm of the opcode map accepts only a word whose fields, unused ones 0, are those of the command. -/
theorem legalWordIsItsEncoding : Obligations.LegalWordIsItsEncoding :=
  fun _ _ h => Encodes.of_decode h

theorem exists_decode_eq_ok_iff {w : CommandWord} : (∃ i, decode w = .ok i) ↔ ∃ i, Encodes w i :=
  ⟨fun ⟨i, h⟩ => ⟨i, .of_decode h⟩, fun ⟨i, hwf, hw⟩ => ⟨i, hw ▸ decodeInvertsEncode i hwf⟩⟩

/-! ### The opcode table -/

/-- The mask of a row of the table: 1 in bits 31:19, in `op`, and in the bits set in `rd`, `rs` and `n` (R101 to
R105). -/
def rowMask (rd rs : SlotIx) (n : NibCount) : CommandWord := assemble 0xFF rd rs n ||| 0xFFF80000

/-- Under a row's mask a word reads as `op` alone exactly when it has that `op` and, above it, 0 in every bit of the
mask. -/
theorem and_rowMask_eq_iff {w : CommandWord} {op : Byte} {rd rs : SlotIx} {n : NibCount} :
    w &&& rowMask rd rs n = assemble op 0 0 0 ↔
      CommandWord.op w = op ∧ CommandWord.rd w &&& rd = 0 ∧ CommandWord.rs w &&& rs = 0 ∧ CommandWord.n w &&& n = 0 ∧
        CommandWord.zero w = 0 := by
  have hop := assemble_op 0xFF rd rs n
  have hrd := assemble_rd 0xFF rd rs n
  have hrs := assemble_rs 0xFF rd rs n
  have hn := assemble_n 0xFF rd rs n
  have hzero := assemble_zero 0xFF rd rs n
  have hfull : ∀ x : Byte, x &&& 255#8 = x := fun _ => BitVec.and_allOnes
  have hhigh : ∀ x : BitVec 13, x &&& 8191#13 = x := fun _ => BitVec.and_allOnes
  rw [eq_comm, assemble_eq_iff]
  simp only [CommandWord.op, CommandWord.rd, CommandWord.rs, CommandWord.n, CommandWord.zero, rowMask,
    BitVec.extractLsb'_and, BitVec.extractLsb'_or] at hop hrd hrs hn hzero ⊢
  rw [hop, hrd, hrs, hn, hzero]
  simp [hfull, hhigh]

/-- `w` matches a row of the opcode table, and its `n` field is at most 16 where the row has one. -/
def MatchesRow (w : CommandWord) (row : CommandWord × CommandWord × Bool) : Prop :=
  w &&& row.1 = row.2.1 ∧ (row.2.2 = true → (w.extractLsb' 14 5).toNat ≤ 16)

section Rows

variable {w : CommandWord} {op : Byte}

theorem and_seven_eq_zero_iff {r : SlotIx} : r &&& 7 = 0 ↔ r = 0 := by
  rw [show r &&& 7 = r from BitVec.and_allOnes]

theorem and_thirtyOne_eq_zero_iff {n : NibCount} : n &&& 31 = 0 ↔ n = 0 := by
  rw [show n &&& 31 = n from BitVec.and_allOnes]

theorem legal_n_iff : NibCount.legal (CommandWord.n w) = true ↔ (w.extractLsb' 14 5).toNat ≤ 16 :=
  decide_eq_true_iff

theorem matchesRow_Z : MatchesRow w (rowMask 7 7 31, assemble op 0 0 0, false) ↔ assemble op 0 0 0 = w := by
  simp only [MatchesRow, and_rowMask_eq_iff, assemble_eq_iff, and_seven_eq_zero_iff, and_thirtyOne_eq_zero_iff]
  simp

theorem matchesRow_RR : MatchesRow w (rowMask 0 0 31, assemble op 0 0 0, false) ↔
    assemble op (CommandWord.rd w) (CommandWord.rs w) 0 = w := by
  simp only [MatchesRow, and_rowMask_eq_iff, assemble_eq_iff, and_thirtyOne_eq_zero_iff]
  simp

theorem matchesRow_RS : MatchesRow w (rowMask 7 0 31, assemble op 0 0 0, false) ↔
    assemble op 0 (CommandWord.rs w) 0 = w := by
  simp only [MatchesRow, and_rowMask_eq_iff, assemble_eq_iff, and_seven_eq_zero_iff, and_thirtyOne_eq_zero_iff]
  simp

theorem matchesRow_DN : MatchesRow w (rowMask 0 7 0, assemble op 0 0 0, true) ↔
    assemble op (CommandWord.rd w) 0 (CommandWord.n w) = w ∧ NibCount.legal (CommandWord.n w) = true := by
  simp only [MatchesRow, and_rowMask_eq_iff, assemble_eq_iff, and_seven_eq_zero_iff, legal_n_iff]
  simp

theorem matchesRow_SN : MatchesRow w (rowMask 7 0 0, assemble op 0 0 0, true) ↔
    assemble op 0 (CommandWord.rs w) (CommandWord.n w) = w ∧ NibCount.legal (CommandWord.n w) = true := by
  simp only [MatchesRow, and_rowMask_eq_iff, assemble_eq_iff, and_seven_eq_zero_iff, legal_n_iff]
  simp

end Rows

/-- The table's rows by their format (R101 to R105). -/
theorem commandRows_eq : commandRows =
    [(rowMask 7 7 31, assemble 0x00 0 0 0, false), (rowMask 0 0 31, assemble 0x01 0 0 0, false),
      (rowMask 0 0 31, assemble 0x02 0 0 0, false), (rowMask 0 0 31, assemble 0x03 0 0 0, false),
      (rowMask 0 7 0, assemble 0x04 0 0 0, true), (rowMask 7 0 0, assemble 0x05 0 0 0, true),
      (rowMask 7 7 31, assemble 0x08 0 0 0, false), (rowMask 7 7 31, assemble 0x09 0 0 0, false),
      (rowMask 7 7 31, assemble 0x0A 0 0 0, false), (rowMask 7 7 31, assemble 0x10 0 0 0, false),
      (rowMask 7 0 31, assemble 0x11 0 0 0, false), (rowMask 7 7 31, assemble 0x12 0 0 0, false),
      (rowMask 7 7 31, assemble 0x13 0 0 0, false), (rowMask 7 7 31, assemble 0x18 0 0 0, false),
      (rowMask 7 7 31, assemble 0x19 0 0 0, false)] := by
  decide

/-- The word of a well-formed command matches the command's row. -/
theorem Encodes.matchesRow {w : CommandWord} {i : Instr} (h : Encodes w i) : ∃ row ∈ commandRows, MatchesRow w row := by
  obtain ⟨hwf, rfl⟩ := h
  simp only [commandRows_eq, List.exists_mem_cons_iff, matchesRow_Z, matchesRow_RR, matchesRow_RS, matchesRow_DN,
    matchesRow_SN]
  cases i with
  | nop | scan | pack | unpack | sreset | encode | decode | henc | hdec =>
    simp only [encode, true_or, or_true]
  | bitw rd rs | zzenc rd rs | zzdec rd rs => simp only [encode, assemble_rd, assemble_rs, true_or, or_true]
  | push rs => simp only [encode, assemble_rs, true_or, or_true]
  | rdnib rd n => simp [encode, assemble_rd, assemble_n, show NibCount.legal n = true from hwf]
  | wrnib rs n => simp [encode, assemble_rs, assemble_n, show NibCount.legal n = true from hwf]

/-- A word that matches a row is the word of the row's command with the word's own operands. -/
theorem exists_encodes_of_matchesRow {w : CommandWord} {row : CommandWord × CommandWord × Bool}
    (hrow : row ∈ commandRows) (h : MatchesRow w row) : ∃ i, Encodes w i := by
  simp only [commandRows_eq, List.mem_cons, List.not_mem_nil, or_false] at hrow
  obtain rfl | rfl | rfl | rfl | rfl | rfl | rfl | rfl | rfl | rfl | rfl | rfl | rfl | rfl | rfl := hrow
  · exact ⟨.nop, rfl, matchesRow_Z.1 h⟩
  · exact ⟨.bitw _ _, rfl, matchesRow_RR.1 h⟩
  · exact ⟨.zzenc _ _, rfl, matchesRow_RR.1 h⟩
  · exact ⟨.zzdec _ _, rfl, matchesRow_RR.1 h⟩
  · exact ⟨.rdnib _ _, (matchesRow_DN.1 h).symm⟩
  · exact ⟨.wrnib _ _, (matchesRow_SN.1 h).symm⟩
  · exact ⟨.scan, rfl, matchesRow_Z.1 h⟩
  · exact ⟨.pack, rfl, matchesRow_Z.1 h⟩
  · exact ⟨.unpack, rfl, matchesRow_Z.1 h⟩
  · exact ⟨.sreset, rfl, matchesRow_Z.1 h⟩
  · exact ⟨.push _, rfl, matchesRow_RS.1 h⟩
  · exact ⟨.encode, rfl, matchesRow_Z.1 h⟩
  · exact ⟨.decode, rfl, matchesRow_Z.1 h⟩
  · exact ⟨.henc, rfl, matchesRow_Z.1 h⟩
  · exact ⟨.hdec, rfl, matchesRow_Z.1 h⟩

/-- Settles O3: the words of the well-formed commands are those that match a row, and these are the legal words. -/
theorem legalWordsAreTheTableRows : Obligations.LegalWordsAreTheTableRows := fun _ =>
  exists_decode_eq_ok_iff.trans ⟨fun ⟨_, h⟩ => h.matchesRow, fun ⟨_, hrow, h⟩ => exists_encodes_of_matchesRow hrow h⟩

/-- Settles O4: the legal words are those of their commands; the last three have an unassigned `op`, a nonzero `rd` in
format Z and `n = 17`. -/
theorem specExampleWordsDecode : Obligations.SpecExampleWordsDecode :=
  ⟨decodeInvertsEncode .nop rfl, decodeInvertsEncode (.bitw 1 2) rfl, decodeInvertsEncode (.rdnib 3 5) rfl,
    decodeInvertsEncode (.wrnib 2 16) rfl, decodeInvertsEncode (.push 7) rfl, decodeInvertsEncode .pack rfl,
    decodeInvertsEncode .hdec rfl, ⟨.unassignedOpcode 0x07, rfl⟩, ⟨.nonzeroField, rfl⟩, ⟨.widthAbove16, rfl⟩⟩

end Sys2Proof
end

section
/-! SUPPORT. The zero-mask and the width of a block (40_byteutils.md R131, 41_nibblepack_block.md R151, R152), each by
the property that determines it. -/

namespace Sys2Proof.Machine

open Sys2Proof.Safety

/-! ### Width -/

/-- `n` nibbles hold a value exactly when its width is at most `n` (R131). -/
theorem nibbleWidth_le_iff {v : Word} {n : Nat} : nibbleWidth v ≤ n ↔ v.toNat < 16 ^ n := by
  obtain ⟨k, hfind⟩ : ∃ k, (List.range 17).find? (fun n => decide (v.toNat < 16 ^ n)) = some k :=
    Option.isSome_iff_exists.1 (List.find?_isSome.2 ⟨16, by simp, by simpa using v.isLt⟩)
  have hwidth : nibbleWidth v = k := by rw [nibbleWidth, hfind]; rfl
  obtain ⟨hk, -, hleast⟩ := List.find?_range_eq_some.1 hfind
  rw [hwidth]
  constructor
  · intro hkn
    exact (of_decide_eq_true hk).trans_le (Nat.pow_le_pow_right (by omega) hkn)
  · intro hv
    by_contra hnk
    simpa [hv] using hleast n (by omega)

/-- `n` nibbles hold every slot exactly when the block's width is at most `n` (R152). -/
theorem blockNibbles_le_iff {x : Slots} {n : Nat} : blockNibbles x ≤ n ↔ ∀ v ∈ x.toList, v.toNat < 16 ^ n := by
  have hmax : ∀ l : List Word, (l.map bitWidth).foldr max 0 / 4 ≤ n ↔ ∀ v ∈ l, v.toNat < 16 ^ n := by
    intro l
    induction l with
    | nil => simp
    | cons v rest ih =>
      rw [List.forall_mem_cons, ← ih, ← nibbleWidth_le_iff, List.map_cons, List.foldr_cons, bitWidth]
      omega
  exact hmax x.toList

theorem blockNibbles_le_sixteen (x : Slots) : blockNibbles x ≤ 16 :=
  blockNibbles_le_iff.2 fun v _ => by simpa using v.isLt

/-- The width of a block is `n` when `n` nibbles hold every slot and one nibble less does not (R116 (c), R152). -/
theorem blockNibbles_eq {x : Slots} {n : Nat} (hfit : ∀ v ∈ x.toList, v.toNat < 16 ^ n)
    (hleast : 0 < n → ∃ v ∈ x.toList, 16 ^ (n - 1) ≤ v.toNat) : blockNibbles x = n := by
  refine le_antisymm (blockNibbles_le_iff.2 hfit) ?_
  by_contra hlt
  obtain ⟨v, hv, hle⟩ := hleast (by omega)
  have hsmall := blockNibbles_le_iff.1 (show blockNibbles x ≤ n - 1 by omega) v hv
  omega

/-- Some slot needs the whole width of a block, unless that is 0 (R152). -/
theorem exists_pow_le_of_blockNibbles {x : Slots} (h : 0 < blockNibbles x) :
    ∃ v ∈ x.toList, 16 ^ (blockNibbles x - 1) ≤ v.toNat := by
  by_contra hnone
  push Not at hnone
  have := blockNibbles_le_iff.2 hnone
  omega

/-! ### Mask -/

/-- Bit `j` of the mask of a list of values is 1 exactly when value `j` is 0. -/
theorem testBit_maskBits (l : List Word) (j : Nat) : (maskBits l).testBit j = decide (l[j]? = some 0) := by
  induction l generalizing j with
  | nil => simp [maskBits]
  | cons v rest ih =>
    have hhead : (if v = 0 then 1 else 0) < 2 ^ 1 := by split <;> omega
    rw [maskBits, Nat.add_comm, show 2 * maskBits rest = 2 ^ 1 * maskBits rest by omega,
      Nat.testBit_two_pow_mul_add _ hhead, ih]
    cases j with
    | zero =>
      by_cases hv : v = 0
      · simp [hv]
      · rw [if_neg hv]
        simpa using hv
    | succ j => simp

/-- Bit `j` of the mask of a block is 1 exactly when slot `j` is 0 (R151). -/
theorem getLsbD_zeroMask (x : Slots) (j : Nat) : (zeroMask x).getLsbD j = decide (x.toList[j]? = some 0) := by
  by_cases hj : j < 8
  · rw [zeroMask, BitVec.getLsbD_ofNat, testBit_maskBits]
    simp [hj]
  · rw [BitVec.getLsbD_of_ge _ _ (by omega), List.getElem?_eq_none (by simp; omega)]
    simp

theorem isZeroMask_zeroMask (x : Slots) : IsZeroMask x (zeroMask x) := by
  intro j
  rw [getLsbD_zeroMask]
  simp

/-- A block has only one zero-mask. -/
theorem eq_zeroMask {x : Slots} {m : Byte} (h : IsZeroMask x m) : m = zeroMask x :=
  BitVec.eq_of_getLsbD_eq fun j hj => (h ⟨j, hj⟩).trans (isZeroMask_zeroMask x ⟨j, hj⟩).symm

end Sys2Proof.Machine
end

section
/-! CLAIM. The sizes of blocks and streams (30_encoding.md R113, R119). -/

namespace Sys2Proof.Machine

open Sys2Proof.Safety

/-! ### Blocks -/

theorem encodeBlock_length_eq_count (x : Slots) :
    (encodeBlock x).length = 2 + ((8 - x.toList.count 0) * blockNibbles x + 1) / 2 := by
  rw [encodeBlock_length, blockSize, ceilDiv, popcount8_zeroMask]
  omega

theorem two_le_encodeBlock_length (x : Slots) : 2 ≤ (encodeBlock x).length := by
  rw [encodeBlock_length_eq_count]
  omega

/-- At most eight slots of 16 nibbles are stored. -/
theorem encodeBlock_length_le (x : Slots) : (encodeBlock x).length ≤ 66 := by
  have hpayload : (8 - x.toList.count 0) * blockNibbles x ≤ 8 * 16 :=
    Nat.mul_le_mul (Nat.sub_le _ _) (blockNibbles_le_sixteen x)
  rw [encodeBlock_length_eq_count]
  omega

/-- Settles O24: the payload has the block's width in nibbles for each slot that is not 0, two nibbles to a byte. -/
theorem encodedBlockSize : Obligations.EncodedBlockSize := fun x =>
  ⟨encodeBlock_length x, encodeBlock_length_eq_count x, two_le_encodeBlock_length x, encodeBlock_length_le x⟩

/-! ### Streams -/

/-- A list has its `k`-th value in slot `k` of the group it makes, and 0 beyond its end (R118). -/
theorem getElem_slotsOfList (l : List Word) (j : Nat) (hj : j < 8) : (slotsOfList l)[j] = l.getD j 0 := by
  have hcases : j = 0 ∨ j = 1 ∨ j = 2 ∨ j = 3 ∨ j = 4 ∨ j = 5 ∨ j = 6 ∨ j = 7 := by omega
  obtain rfl | rfl | rfl | rfl | rfl | rfl | rfl | rfl := hcases <;> rfl

/-- The first eight values make the first group (R170). -/
theorem slotsOfList_take (t : List Word) : slotsOfList (t.take 8) = groupAt t 0 := by
  refine Vector.ext fun j hj => ?_
  rw [getElem_slotsOfList]
  simp [groupAt, hj]

/-- The values from the ninth on make the groups from the second on (R170). -/
theorem groupAt_drop (t : List Word) (g : Nat) : groupAt (t.drop 8) g = groupAt t (g + 1) := by
  refine Vector.ext fun j hj => ?_
  simp [groupAt, show 8 + (8 * g + j) = 8 * (g + 1) + j by omega]

theorem groupsOf_eq_map (g : Nat) (t : List Word) : groupsOf g t = (List.range g).map (groupAt t) := by
  induction g generalizing t with
  | zero => rfl
  | succ g ih =>
    rw [groupsOf, ih, slotsOfList_take, List.range_succ_eq_map, List.map_cons, List.map_map]
    exact congrArg _ (List.map_congr_left fun k _ => groupAt_drop t k)

/-- The groups of a list, the last padded with zeros (R117, R118, R170). -/
theorem streamGroups_eq_map (t : List Word) :
    streamGroups t = (List.range ((t.length + 7) / 8)).map (groupAt t) :=
  groupsOf_eq_map _ t

/-- A stream is four bytes longer than its blocks (R117). -/
theorem encodeStream_length (t : List Word) :
    (encodeStream t).length =
      4 + ((List.range ((t.length + 7) / 8)).map fun g => (encodeBlock (groupAt t g)).length).sum := by
  rw [encodeStream, streamGroups_eq_map, List.length_append, leBytes_length, List.length_flatMap, List.map_map]
  rfl

/-- Settles O31: each of the blocks has a size between those of an empty and of a full one. -/
theorem streamSizeBounds : Obligations.StreamSizeBounds := by
  intro t
  have hlow := List.card_nsmul_le_sum
    ((List.range ((t.length + 7) / 8)).map fun g => (encodeBlock (groupAt t g)).length) 2
    (List.forall_mem_map.2 fun g _ => two_le_encodeBlock_length _)
  have hhigh := List.sum_le_card_nsmul
    ((List.range ((t.length + 7) / 8)).map fun g => (encodeBlock (groupAt t g)).length) 66
    (List.forall_mem_map.2 fun g _ => encodeBlock_length_le _)
  simp only [List.length_map, List.length_range, smul_eq_mul] at hlow hhigh
  simp only [← encodeBlock_length]
  rw [encodeStream_length]
  exact ⟨rfl, by omega, by omega⟩

end Sys2Proof.Machine
end

section
/-! SUPPORT. The payload of a block as nibbles (20_memory.md R76 to R78, 30_encoding.md R115): the nibbles of a run of
bytes, the nibbles of a slice, the two directions between the values of the slots and the payload's nibbles, and the
blocks that stand in memory. -/

namespace Sys2Proof.Machine

open Sys2Proof.Safety

/-! ### Nibbles of a list of bytes -/

/-- The nibbles of a list of bytes, the low one of each byte first (R76). -/
def nibblesOfBytes : List Byte → List Nibble
  | [] => []
  | b :: rest => b.extractLsb' 0 4 :: b.extractLsb' 4 4 :: nibblesOfBytes rest

@[simp] theorem nibblesOfBytes_length (l : List Byte) : (nibblesOfBytes l).length = 2 * l.length := by
  induction l with
  | nil => rfl
  | cons b rest ih => simp only [nibblesOfBytes, List.length_cons, ih]; omega

/-- A byte is its two nibbles (R76). -/
theorem append_nibbles (b : Byte) : b.extractLsb' 4 4 ++ b.extractLsb' 0 4 = b :=
  (BitVec.extractLsb'_append_extractLsb'_eq_extractLsb' rfl).trans BitVec.extractLsb'_eq_self

/-- The bytes made of nibbles hold these nibbles (R115). -/
theorem take_nibblesOfBytes_packNibbles (l : List Nibble) : (nibblesOfBytes (packNibbles l)).take l.length = l := by
  induction l using packNibbles.induct with
  | case1 => rfl
  | case2 a => simp [packNibbles, nibblesOfBytes, extract_low_append]
  | case3 a b rest ih =>
    simp [packNibbles, nibblesOfBytes, extract_low_append, extract_high_append, ih]

/-- Bytes are made of their nibbles, when the pad nibble of an odd count is 0 (R115, R116 (e)). -/
theorem packNibbles_take_nibblesOfBytes {l : List Byte} {k : Nat} (hlen : l.length = (k + 1) / 2)
    (hpad : k % 2 = 1 → (l.getLastD 0).extractLsb' 4 4 = 0) : packNibbles ((nibblesOfBytes l).take k) = l := by
  induction l generalizing k with
  | nil =>
    obtain rfl : k = 0 := by simp at hlen; omega
    rfl
  | cons b rest ih =>
    rw [List.length_cons] at hlen
    match k with
    | 0 => omega
    | 1 =>
      obtain rfl : rest = [] := List.eq_nil_of_length_eq_zero (by omega)
      have hhigh : b.extractLsb' 4 4 = 0#4 := hpad rfl
      have hbyte : 0#4 ++ b.extractLsb' 0 4 = b := by rw [← hhigh, append_nibbles]
      simp only [nibblesOfBytes, List.take_succ_cons, List.take_zero, packNibbles, hbyte]
    | k + 2 =>
      have hrest : packNibbles ((nibblesOfBytes rest).take k) = rest := by
        refine ih (by omega) fun hodd => ?_
        obtain ⟨c, tail, rfl⟩ := List.exists_cons_of_length_pos (l := rest) (by omega)
        exact hpad (by omega)
      simp only [nibblesOfBytes, List.take_succ_cons, packNibbles, append_nibbles, hrest]

/-- An odd number of nibbles leaves the pad nibble 0 in the last byte (R115). -/
theorem getLastD_packNibbles_high {l : List Nibble} (hodd : l.length % 2 = 1) (d : Byte) :
    ((packNibbles l).getLastD d).extractLsb' 4 4 = 0 := by
  induction l using packNibbles.induct generalizing d with
  | case1 => simp at hodd
  | case2 a => exact extract_high_append 0 a
  | case3 a b rest ih =>
    rw [packNibbles, List.getLastD_cons]
    exact ih (by simp only [List.length_cons] at hodd; omega) _

/-! ### Nibbles of a slice -/

/-- The `k` nibbles of the slice at `base` from nibble `q` on. -/
def Memory.nibbles (m : Memory) (base q k : Nat) : List Nibble := (List.range k).map fun i => m.nibble base (q + i)

@[simp] theorem Memory.nibbles_length (m : Memory) (base q k : Nat) : (m.nibbles base q k).length = k := by
  simp [Memory.nibbles]

theorem Memory.nibbles_add (m : Memory) (base q k l : Nat) :
    m.nibbles base q (k + l) = m.nibbles base q k ++ m.nibbles base (q + k) l := by
  simp [Memory.nibbles, List.range_add, Nat.add_assoc]

theorem Memory.take_nibbles (m : Memory) (base q : Nat) {k l : Nat} (h : k ≤ l) :
    (m.nibbles base q l).take k = m.nibbles base q k := by
  simp [Memory.nibbles, ← List.map_take, List.take_range, h]

/-- Where bytes stand at byte offset `p` of a slice, their nibbles stand from nibble `2p` on (R76). -/
theorem Memory.nibbles_of_holds {m : Memory} {base p : Nat} {l : List Byte} (h : Holds m (base + p) l) :
    m.nibbles base (2 * p) (2 * l.length) = nibblesOfBytes l := by
  induction l generalizing p with
  | nil => rfl
  | cons b rest ih =>
    have hhead : m.read (base + p) = b := h 0 (by simp)
    have htail : Holds m (base + (p + 1)) rest := fun i hi => by
      simpa [Nat.add_assoc, Nat.add_comm 1] using h (i + 1) (by simpa using hi)
    have hlow : m.nibble base (2 * p) = b.extractLsb' 0 4 := by
      rw [Memory.nibble, if_pos (by omega), show 2 * p / 2 = p by omega, hhead]
    have hhigh : m.nibble base (2 * p + 1) = b.extractLsb' 4 4 := by
      rw [Memory.nibble, if_neg (by omega), show (2 * p + 1) / 2 = p by omega, hhead]
    rw [List.length_cons, show 2 * (rest.length + 1) = 2 + 2 * rest.length by omega, Memory.nibbles_add,
      show 2 * p + 2 = 2 * (p + 1) by omega, ih htail, nibblesOfBytes, ← hlow, ← hhigh]
    rfl

/-! ### Values and their nibbles -/

@[simp] theorem nibblesOf_length (v : Word) (n : Nat) : (nibblesOf v n).length = n := by simp [nibblesOf]

/-- A value that `n` nibbles hold is determined by them. -/
theorem eq_of_nibblesOf_eq {v w : Word} {n : Nat} (hv : v.toNat < 16 ^ n) (hw : w.toNat < 16 ^ n)
    (h : nibblesOf v n = nibblesOf w n) : v = w := by
  have hpow : (16 : Nat) ^ n = 2 ^ (4 * n) := by rw [Nat.pow_mul]
  refine BitVec.eq_of_getLsbD_eq fun i _ => ?_
  by_cases hi : i < 4 * n
  · have hnib := congrArg (fun l => (l[i / 4]?.getD 0).getLsbD (i % 4)) h
    simpa [nibblesOf, show i / 4 < n by omega, Nat.mod_lt, Nat.div_add_mod] using hnib
  · have hle : 2 ^ (4 * n) ≤ 2 ^ i := Nat.pow_le_pow_right (by omega) (by omega)
    rw [← BitVec.testBit_toNat, ← BitVec.testBit_toNat, Nat.testBit_lt_two_pow (by omega),
      Nat.testBit_lt_two_pow (by omega)]

/-- What `n` nibbles read as, they hold (R77). -/
theorem Memory.nibRead_lt (m : Memory) (base q n : Nat) : m.nibRead base q n < 16 ^ n := by
  rw [show (16 : Nat) ^ n = 2 ^ (4 * n) by rw [Nat.pow_mul]]
  refine Nat.lt_pow_two_of_testBit _ fun i hi => ?_
  rw [Memory.testBit_nibRead]
  simp [show ¬ i < 4 * n by omega]

theorem ofNat_nibRead_lt (m : Memory) (base q n : Nat) : (BitVec.ofNat 64 (m.nibRead base q n)).toNat < 16 ^ n := by
  rw [BitVec.toNat_ofNat]
  exact (Nat.mod_le _ _).trans_lt (m.nibRead_lt base q n)

/-- The value that at most 16 nibbles read as has these nibbles (R77). -/
theorem nibblesOf_nibRead (m : Memory) (base q : Nat) {n : Nat} (hn : n ≤ 16) :
    nibblesOf (BitVec.ofNat 64 (m.nibRead base q n)) n = m.nibbles base q n := by
  refine List.map_congr_left fun j hj => BitVec.eq_of_getLsbD_eq fun i hi => ?_
  have hj : j < n := List.mem_range.1 hj
  rw [BitVec.getLsbD_extractLsb', BitVec.getLsbD_ofNat, Memory.testBit_nibRead, Memory.getLsbD_nibble]
  simp [hi, show 4 * j + i < 64 by omega, show 4 * j + i < 4 * n by omega,
    show 4 * q + (4 * j + i) = 4 * (q + j) + i by omega]

/-! ### Slots and their payload -/

@[simp] theorem decodeSlots_length (m : Memory) (base n : Nat) (mask : Byte) (k j q : Nat) :
    (decodeSlots m base n mask k j q).length = k := by
  induction k generalizing j q with
  | zero => rfl
  | succ k ih => simp only [decodeSlots]; split <;> simp [ih]

/-- Every decoded slot is a value of `n` nibbles. -/
theorem lt_of_mem_decodeSlots {m : Memory} {base n : Nat} {mask : Byte} {k j q : Nat} {v : Word}
    (h : v ∈ decodeSlots m base n mask k j q) : v.toNat < 16 ^ n := by
  induction k generalizing j q with
  | zero => cases h
  | succ k ih =>
    simp only [decodeSlots] at h
    split at h
    · obtain rfl | h := List.mem_cons.1 h
      · simp
      · exact ih h
    · obtain rfl | h := List.mem_cons.1 h
      · exact ofNat_nibRead_lt m base q n
      · exact ih h

/-- A slot whose mask bit is 1 decodes to 0 (R156). -/
theorem getD_decodeSlots_of_masked (m : Memory) (base n : Nat) {mask : Byte} {k j q i : Nat}
    (h : mask.getLsbD (j + i) = true) : (decodeSlots m base n mask k j q).getD i 0 = 0 := by
  induction k generalizing j q i with
  | zero => rfl
  | succ k ih =>
    cases i with
    | zero => simp [decodeSlots, show mask.getLsbD j = true from h]
    | succ i =>
      have hrest : mask.getLsbD (j + 1 + i) = true := by rwa [Nat.add_assoc, Nat.add_comm 1]
      simp only [decodeSlots]
      split
      · exact ih hrest
      · exact ih hrest

theorem payloadNibbles_cons_zero (l : List Word) (n : Nat) : payloadNibbles (0 :: l) n = payloadNibbles l n := by
  simp [payloadNibbles]

theorem payloadNibbles_cons_ne {v : Word} (hv : v ≠ 0) (l : List Word) (n : Nat) :
    payloadNibbles (v :: l) n = nibblesOf v n ++ payloadNibbles l n := by
  rw [payloadNibbles, List.filter_cons_of_pos (by simpa using hv), List.flatMap_cons, payloadNibbles]

/-- When no stored slot reads as 0, the payload of the decoded slots is the payload they were read from (R116 (b)). -/
theorem payloadNibbles_decodeSlots {m : Memory} {base n : Nat} {mask : Byte} {k j q : Nat} (hn : n ≤ 16)
    (hstored : ∀ i < k, mask.getLsbD (j + i) = false → (decodeSlots m base n mask k j q).getD i 0 ≠ 0) :
    payloadNibbles (decodeSlots m base n mask k j q) n =
      m.nibbles base q (payloadNibbles (decodeSlots m base n mask k j q) n).length := by
  induction k generalizing j q with
  | zero => rfl
  | succ k ih =>
    have hhead := hstored 0 (by omega)
    have htail : ∀ i < k, mask.getLsbD (j + 1 + i) = false →
        (decodeSlots m base n mask (k + 1) j q).getD (i + 1) 0 ≠ 0 := fun i hi hm =>
      hstored (i + 1) (by omega) (by rwa [← Nat.add_assoc, Nat.add_right_comm])
    simp only [decodeSlots, Nat.add_zero] at hhead htail ⊢
    split
    · rename_i hmask
      rw [payloadNibbles_cons_zero]
      exact ih fun i hi hm => by simpa [hmask] using htail i hi hm
    · rename_i hmask
      have hne : BitVec.ofNat 64 (m.nibRead base q n) ≠ 0 := by simpa [hmask] using hhead (by simpa using hmask)
      have hrest := ih (j := j + 1) (q := q + n) fun i hi hm => by simpa [hmask] using htail i hi hm
      rw [payloadNibbles_cons_ne hne, List.length_append, nibblesOf_length, Memory.nibbles_add, ← hrest,
        nibblesOf_nibRead m base q hn]

/-- Slots of `n` nibbles decode from their payload, under a mask that marks the slots that are 0 (R156). -/
theorem decodeSlots_of_payload {m : Memory} {base n : Nat} {mask : Byte} {l : List Word} {j q : Nat} (hn : n ≤ 16)
    (hfit : ∀ v ∈ l, v.toNat < 16 ^ n) (hmask : ∀ i < l.length, mask.getLsbD (j + i) = decide (l[i]? = some 0))
    (hpayload : m.nibbles base q (payloadNibbles l n).length = payloadNibbles l n) :
    decodeSlots m base n mask l.length j q = l := by
  induction l generalizing j q with
  | nil => rfl
  | cons v rest ih =>
    obtain ⟨hv, hrest⟩ := List.forall_mem_cons.1 hfit
    have hhead := hmask 0 (by simp)
    have htail : ∀ i < rest.length, mask.getLsbD (j + 1 + i) = decide (rest[i]? = some 0) := fun i hi => by
      simpa [Nat.add_assoc, Nat.add_comm 1] using hmask (i + 1) (by simpa using hi)
    rw [List.length_cons, decodeSlots]
    by_cases hzero : v = 0
    · subst hzero
      rw [payloadNibbles_cons_zero] at hpayload
      rw [if_pos (by simpa using hhead), ih hrest htail hpayload]
    · rw [payloadNibbles_cons_ne hzero, List.length_append, nibblesOf_length, Memory.nibbles_add] at hpayload
      obtain ⟨hnib, hnibs⟩ := List.append_inj hpayload (by simp)
      have hvalue : BitVec.ofNat 64 (m.nibRead base q n) = v :=
        eq_of_nibblesOf_eq (ofNat_nibRead_lt m base q n) hv ((nibblesOf_nibRead m base q hn).trans hnib)
      have hunmasked : mask.getLsbD j = false := hhead.trans (by simpa using hzero)
      rw [if_neg (by simp [hunmasked]), hvalue, ih hrest htail hnibs]

/-! ### Blocks in memory -/

/-- The bytes of a run stand where it was written. -/
theorem Memory.holds_writeBytes {m : Memory} (h : m.wf) (a : Nat) (l : List Byte) : Holds (m.writeBytes a l) a l := by
  intro i hi
  rw [Memory.read_writeBytes h, if_pos (by omega), Nat.add_sub_cancel_left]

/-- The payload of a block stands behind its two header bytes (R115). -/
theorem holds_payload {m : Memory} {a : Nat} {c mask : Byte} {payload : List Byte}
    (h : Holds m a (c :: mask :: payload)) : Holds m (a + 2) payload := by
  intro i hi
  simpa [Nat.add_assoc, Nat.add_comm 2] using h (i + 2) (by simpa using hi)

/-- The slots of a decoded block, as the list they were read into (R156). -/
theorem decodeBlock_toList (m : Memory) (base : Nat) (b : BlockHeader) :
    (decodeBlock m base b).toList = decodeSlots m base b.n b.mask 8 0 (2 * (b.start + 2)) :=
  slotsOfList_toList (decodeSlots_length ..)

theorem getElem_decodeBlock (m : Memory) (base : Nat) (b : BlockHeader) (j : Nat) (hj : j < 8) :
    (decodeBlock m base b)[j] = (decodeSlots m base b.n b.mask 8 0 (2 * (b.start + 2))).getD j 0 :=
  getElem_slotsOfList _ j hj

/-- Where the bytes of an encoded block stand, `decode_block` reads its slots (R156). -/
theorem decodeBlock_of_holds {m : Memory} {base p : Nat} {x : Slots} (h : Holds m (base + p) (encodeBlock x)) :
    decodeBlock m base ⟨p, blockNibbles x, zeroMask x⟩ = x := by
  have hnibbles := Memory.nibbles_of_holds (p := p + 2) (holds_payload h)
  have hle : (payloadNibbles x.toList (blockNibbles x)).length ≤
      2 * (packNibbles (payloadNibbles x.toList (blockNibbles x))).length := by
    rw [packNibbles_length]
    omega
  have hpayload : m.nibbles base (2 * (p + 2)) (payloadNibbles x.toList (blockNibbles x)).length =
      payloadNibbles x.toList (blockNibbles x) := by
    rw [← Memory.take_nibbles _ _ _ hle, hnibbles, take_nibblesOfBytes_packNibbles]
  have hslots := decodeSlots_of_payload (j := 0) (blockNibbles_le_sixteen x) (blockNibbles_le_iff.1 le_rfl)
    (fun i _ => by rw [Nat.zero_add, getLsbD_zeroMask]) hpayload
  rw [Vector.length_toList] at hslots
  rw [decodeBlock, hslots, slotsOfList_of_toList]

end Sys2Proof.Machine
end

section
/-! CLAIM. The canonical blocks (30_encoding.md R116). -/

namespace Sys2Proof.Machine

open Sys2Proof.Safety

/-- R116 for a block of width `n` and mask `mask` whose payload reads as the slots `v`: (a) width at most 16, (b) no
stored zero, (c) minimal width, (d) `n = 0` exactly with mask `0xFF`, (e) zero pad nibble. -/
def IsCanonicalBlock (n : Nat) (mask : Byte) (payload : List Byte) (v : Slots) : Prop :=
  n ≤ 16 ∧ (∀ j : Fin 8, mask.getLsbD j = false → v[j] ≠ 0) ∧
    (0 < n → ∃ j : Fin 8, mask.getLsbD j = false ∧ 16 ^ (n - 1) ≤ v[j].toNat) ∧ (n = 0 ↔ mask = 0xFF) ∧
    ((8 - popcount8 mask) * n % 2 = 1 → (payload.getLastD 0).extractLsb' 4 4 = 0)

/-- Every mask bit is 1 exactly when every slot is 0. -/
theorem zeroMask_eq_full_iff {x : Slots} : zeroMask x = 0xFF ↔ ∀ v ∈ x.toList, v = 0 := by
  have hfull : ∀ j : Fin 8, (0xFF : Byte).getLsbD j = true := by decide
  constructor
  · intro h v hv
    obtain ⟨j, hj, rfl⟩ := Vector.mem_iff_getElem.1 (Vector.mem_toList_iff.1 hv)
    have hbit := isZeroMask_zeroMask x ⟨j, hj⟩
    rw [h, hfull] at hbit
    exact of_decide_eq_true hbit.symm
  · intro h
    refine (eq_zeroMask fun j => ?_).symm
    rw [hfull]
    exact (decide_eq_true (h x[j] (by simp))).symm

/-- A block has width 0 exactly when it stores no slot (R116 (d)). -/
theorem blockNibbles_eq_zero_iff {x : Slots} : blockNibbles x = 0 ↔ zeroMask x = 0xFF := by
  rw [zeroMask_eq_full_iff, ← Nat.le_zero, blockNibbles_le_iff]
  refine forall₂_congr fun v _ => ?_
  rw [Nat.pow_zero, Nat.lt_one_iff, ← BitVec.toNat_inj]
  rfl

/-- What the encoder writes for `x` is canonical, when it reads as `x`. -/
theorem isCanonicalBlock_encodeBlock {x v : Slots} (hread : v = x) :
    IsCanonicalBlock (blockNibbles x) (zeroMask x) (packNibbles (payloadNibbles x.toList (blockNibbles x))) v := by
  subst hread
  refine ⟨blockNibbles_le_sixteen v, ?_, ?_, blockNibbles_eq_zero_iff, ?_⟩
  · intro j hj
    exact of_decide_eq_false ((isZeroMask_zeroMask v j).symm.trans hj)
  · intro hpos
    obtain ⟨w, hw, hle⟩ := exists_pow_le_of_blockNibbles hpos
    obtain ⟨j, hj, rfl⟩ := Vector.mem_iff_getElem.1 (Vector.mem_toList_iff.1 hw)
    refine ⟨⟨j, hj⟩, ?_, hle⟩
    have hne : v[j] ≠ 0 := by
      intro h0
      rw [h0] at hle
      simp at hle
    rw [isZeroMask_zeroMask v ⟨j, hj⟩]
    simpa using hne
  · intro hodd
    refine getLastD_packNibbles_high ?_ 0
    rwa [payloadNibbles_length, Vector.length_toList, ← popcount8_zeroMask]

theorem payload_length_eq {k n : Nat} {mask : Byte} (h : k + 2 = blockSize n mask) :
    k = ((8 - popcount8 mask) * n + 1) / 2 := by
  rw [blockSize, ceilDiv] at h
  omega

/-- When no stored slot reads as 0, the mask of a block is the zero-mask of its slots (R116 (b)). -/
theorem zeroMask_of_decodeBlock {m : Memory} {base p n : Nat} {mask : Byte} {x : Slots}
    (hread : decodeBlock m base ⟨p, n, mask⟩ = x) (hstored : ∀ j : Fin 8, mask.getLsbD j = false → x[j] ≠ 0) :
    zeroMask x = mask := by
  refine (eq_zeroMask fun j => ?_).symm
  cases hj : mask.getLsbD j with
  | false => exact (decide_eq_false (hstored j hj)).symm
  | true =>
    have hzero := getD_decodeSlots_of_masked m base n (k := 8) (q := 2 * (p + 2)) (by rwa [Nat.zero_add])
    rw [← getElem_decodeBlock m base ⟨p, n, mask⟩ j j.isLt, hread] at hzero
    exact (decide_eq_true hzero).symm

/-- The slots of a canonical block have its width (R116 (c)). -/
theorem blockNibbles_of_decodeBlock {m : Memory} {base p n : Nat} {mask : Byte} {x : Slots}
    (hread : decodeBlock m base ⟨p, n, mask⟩ = x) (hminimal : 0 < n → ∃ j : Fin 8, 16 ^ (n - 1) ≤ x[j].toNat) :
    blockNibbles x = n := by
  refine blockNibbles_eq (fun v hv => ?_) fun hpos => ?_
  · rw [← hread, decodeBlock_toList] at hv
    exact lt_of_mem_decodeSlots hv
  · obtain ⟨j, hle⟩ := hminimal hpos
    exact ⟨x[j], by simp, hle⟩

/-- When no stored slot reads as 0, the payload of the slots is the payload they were read from (R116 (b)). -/
theorem payloadNibbles_of_decodeBlock {m : Memory} {base p n : Nat} {mask : Byte} {x : Slots}
    (hread : decodeBlock m base ⟨p, n, mask⟩ = x) (hn : n ≤ 16)
    (hstored : ∀ j : Fin 8, mask.getLsbD j = false → x[j] ≠ 0) :
    payloadNibbles x.toList n = m.nibbles base (2 * (p + 2)) ((8 - popcount8 mask) * n) := by
  have hslots := payloadNibbles_decodeSlots (m := m) (base := base) (mask := mask) (k := 8) (j := 0)
    (q := 2 * (p + 2)) hn fun i hi hm => by
      rw [← getElem_decodeBlock m base ⟨p, n, mask⟩ i hi, hread]
      exact hstored ⟨i, hi⟩ (by rwa [Nat.zero_add] at hm)
  rw [← decodeBlock_toList m base ⟨p, n, mask⟩, hread] at hslots
  rw [hslots, payloadNibbles_length, Vector.length_toList, ← popcount8_zeroMask, zeroMask_of_decodeBlock hread hstored]

/-- A canonical block is what the encoder writes for the slots it reads as. -/
theorem encodeBlock_of_isCanonicalBlock {m : Memory} {base p n : Nat} {mask : Byte} {payload : List Byte} {x : Slots}
    (hholds : Holds m (base + (p + 2)) payload) (hread : decodeBlock m base ⟨p, n, mask⟩ = x)
    (hlen : payload.length + 2 = blockSize n mask) (h : IsCanonicalBlock n mask payload x) :
    encodeBlock x = BitVec.ofNat 8 n :: mask :: payload := by
  obtain ⟨hn, hstored, hminimal, -, hpad⟩ := h
  have hmask := zeroMask_of_decodeBlock hread hstored
  have hwidth : blockNibbles x = n := blockNibbles_of_decodeBlock hread fun hpos =>
    (hminimal hpos).imp fun _ => And.right
  have hlength := payload_length_eq hlen
  have hnibbles : payloadNibbles x.toList n = (nibblesOfBytes payload).take ((8 - popcount8 mask) * n) := by
    rw [payloadNibbles_of_decodeBlock hread hn hstored, ← Memory.nibbles_of_holds hholds,
      Memory.take_nibbles _ _ _ (by omega)]
  rw [encodeBlock, hwidth, hmask, hnibbles, packNibbles_take_nibblesOfBytes hlength hpad]

/-- Settles O26: the encoder's output is canonical and reads as the slots it was made of, and a canonical block is what
the encoder writes for the slots it reads as. -/
theorem encoderWritesExactlyCanonicalBlocks : Obligations.EncoderWritesExactlyCanonicalBlocks := by
  intro n mask payload hlen hn
  have hholds := Memory.holds_writeBytes Memory.wf_nil 0 (BitVec.ofNat 8 n :: mask :: payload)
  constructor
  · rintro ⟨x, hx⟩
    simp only [encodeBlock, List.cons.injEq] at hx
    obtain ⟨hcontrol, rfl, rfl⟩ := hx
    obtain rfl : blockNibbles x = n := by
      have hle := blockNibbles_le_sixteen x
      have hmod := congrArg BitVec.toNat hcontrol
      simp only [BitVec.toNat_ofNat] at hmod
      omega
    exact isCanonicalBlock_encodeBlock (decodeBlock_of_holds (p := 0) hholds)
  · exact fun h => ⟨_, encodeBlock_of_isCanonicalBlock (p := 0) (holds_payload hholds) rfl hlen h⟩

end Sys2Proof.Machine
end

section
/-! SUPPORT. What the ByteUtils commands are made of (40_byteutils.md): the bit width by the property that determines
it, slices that meet their preconditions, fields of nibbles read and written. -/

namespace Sys2Proof.Machine

open Sys2Proof.Safety

/-! ### The bit width -/

/-- A multiple of 4 covers a value exactly when the bit width is at most that multiple (R131). -/
theorem bitWidth_le_iff {v : Word} {k : Nat} : bitWidth v ≤ 4 * k ↔ v.toNat < 2 ^ (4 * k) := by
  rw [bitWidth, Nat.mul_le_mul_left_iff (by decide), nibbleWidth_le_iff, Nat.pow_mul]

theorem bitWidth_le_sixtyFour (v : Word) : bitWidth v ≤ 64 := bitWidth_le_iff (k := 16).2 v.isLt

theorem isBitWidth_bitWidth (v : Word) : IsBitWidth v (bitWidth v) := by
  refine ⟨Nat.mul_mod_right 4 _, bitWidth_le_sixtyFour v, bitWidth_le_iff.1 le_rfl, fun w hmod hcovers => ?_⟩
  obtain ⟨k, rfl⟩ := Nat.dvd_of_mod_eq_zero hmod
  exact bitWidth_le_iff.2 hcovers

/-- A slot register holds every bit width. -/
theorem toNat_ofNat_bitWidth (v : Word) : (BitVec.ofNat 64 (bitWidth v)).toNat = bitWidth v := by
  rw [BitVec.toNat_ofNat, Nat.mod_eq_of_lt ((bitWidth_le_sixtyFour v).trans_lt (by decide))]

/-- A width covers a value exactly when it has the bits up to the highest 1 bit (R131). -/
theorem bitLength_le_iff {v : Word} {m : Nat} :
    (if v = 0 then 0 else Nat.log2 v.toNat + 1) ≤ m ↔ v.toNat < 2 ^ m := by
  by_cases hv : v = 0
  · simp [hv]
  · have hne : v.toNat ≠ 0 := fun h => hv (BitVec.eq_of_toNat_eq h)
    rw [if_neg hv, Nat.succ_le_iff, Nat.log2_lt hne]

/-- The nibbles a value needs are those up to its highest 1 bit (R131). -/
theorem nibbleWidth_eq (v : Word) :
    nibbleWidth v = ((if v = 0 then 0 else Nat.log2 v.toNat + 1) + 3) / 4 := by
  refine eq_of_forall_ge_iff fun n => ?_
  have hbits := bitLength_le_iff (v := v) (m := 4 * n)
  rw [nibbleWidth_le_iff, show (16 : Nat) ^ n = 2 ^ (4 * n) by rw [Nat.pow_mul], ← hbits]
  omega

/-! ### Slot registers after an update -/

@[simp] theorem State.slot_succeed (s : State) (r : SlotIx) : s.succeed.slot r = s.slot r := rfl

/-- The slot registers after a field is read (R137). -/
theorem State.slot_readField (s : State) (rd r : SlotIx) (n : Nat) :
    (s.readField rd n).slot r =
      if r = rd then BitVec.ofNat 64 (s.mem.nibRead s.srcBase.toNat s.rnib.toNat n) else s.slot r :=
  s.slot_setSlot rd r _

/-! ### Slices -/

/-- A slice has no problem exactly when it meets R75 (a), (b). -/
theorem State.sliceProblem_eq_none_iff_sliceOk {s : State} {sl : Slice} : s.sliceProblem sl = none ↔ SliceOk s sl := by
  rw [State.sliceProblem_eq_none]
  cases sl <;>
    simp [State.extent, Slice.isBounded, Config.addressSpace, Config.maxSliceBytes, SliceOk, SourceOk, DestinationOk]

/-- A field of nibbles passes the preconditions of R75 (a), (b): one without nibbles uses no slice (R137, R138). -/
theorem State.using_of_field {s : State} {n : NibCount} {sl : Slice} (h : n ≠ 0 → SliceOk s sl) (k : Result) :
    s.using (if n = 0 then [] else [sl]) k = k := by
  refine State.using_of_none (fun sl' hsl => ?_) k
  split at hsl
  · cases hsl
  · obtain rfl := List.mem_singleton.1 hsl
    exact State.sliceProblem_eq_none_iff_sliceOk.2 (h ‹_›)

/-! ### Fields of nibbles -/

/-- A cursor that moves past a field within a slice does not wrap (R80). -/
theorem toNat_cursor_add {c : Word} {n : Nat} (h : c.toNat + n < 2 ^ 64) :
    (c + BitVec.ofNat 64 n).toNat = c.toNat + n := by
  rw [BitVec.toNat_add, BitVec.toNat_ofNat, Nat.add_mod_mod, Nat.mod_eq_of_lt h]

/-- Nibble `j` of the value of a field is nibble `j` of the field (R77). -/
theorem extract_nibRead (m : Memory) (base q : Nat) {n j : Nat} (hn : n ≤ 16) (hj : j < n) :
    (BitVec.ofNat 64 (m.nibRead base q n)).extractLsb' (4 * j) 4 = m.nibble base (q + j) := by
  have h := congrArg (·[j]?) (nibblesOf_nibRead m base q hn)
  simpa [nibblesOf, Memory.nibbles, hj] using h

/-- The nibbles of a slice after `NibWrite` (R78). -/
theorem Memory.nibble_nibWrite {m : Memory} (h : m.wf) (base q n q' : Nat) (v : Word) :
    (m.nibWrite base q n v).nibble base q' =
      if q ≤ q' ∧ q' < q + n then v.extractLsb' (4 * (q' - q)) 4 else m.nibble base q' := by
  refine BitVec.eq_of_getLsbD_eq fun i hi => ?_
  rw [Memory.getLsbD_nibble, Memory.bit_nibWrite h]
  by_cases hin : q ≤ q' ∧ q' < q + n
  · rw [if_pos hin, if_pos (by omega), BitVec.getLsbD_extractLsb', show 4 * q' + i - 4 * q = 4 * (q' - q) + i by omega]
  · rw [if_neg hin, if_neg (by omega), Memory.getLsbD_nibble]

end Sys2Proof.Machine
end

section
/-! CLAIM. The ByteUtils commands `BITW`, `RDNIB` and `WRNIB` (40_byteutils.md R131, R132, R137, R138). -/

namespace Sys2Proof.Machine

open Sys2Proof.Safety

/-- Settles O15: both sides of each equation have the same upper bounds. -/
theorem bitWidthIsLeastMultipleOfFour : Obligations.BitWidthIsLeastMultipleOfFour :=
  fun v => ⟨isBitWidth_bitWidth v, congrArg (4 * ·) (nibbleWidth_eq v)⟩

/-- Settles O16: the one register written is `x[rd]`, and 64 bits hold the width. -/
theorem bitwWritesBitWidth : Obligations.BitwWritesBitWidth := by
  intro s rd rs
  refine ⟨decodeInvertsEncode (.bitw rd rs) rfl, _, rfl, rfl, rfl, rfl, fun r hr => ?_, ?_⟩
  · rw [State.slot_succeed, State.slot_setSlot, if_neg hr]
  · rw [State.slot_succeed, State.slot_setSlot_same, toNat_ofNat_bitWidth]
    exact isBitWidth_bitWidth _

/-! ### The check phase of the field commands -/

theorem exec_rdnib {s : State} {rd : SlotIx} {n : NibCount} (h : n ≠ 0 → SourceOk s) :
    exec (.rdnib rd n) s =
      if n.toNat ≤ 2 * s.srcLen.toNat - s.rnib.toNat then .next (s.readField rd n.toNat).succeed
      else .next (s.raise .truncNib) := by
  simp only [exec, execRdnib, State.using_of_field (sl := .source) h, State.nibblesToRead, gt_iff_lt, ← not_le, ite_not]

theorem exec_wrnib {s : State} {rs : SlotIx} {n : NibCount} (h : n ≠ 0 → DestinationOk s) :
    exec (.wrnib rs n) s =
      if n.toNat ≤ 2 * s.dstCap.toNat - s.wnib.toNat then .next (s.writeField rs n.toNat).succeed
      else .next (s.raise .dstFull) := by
  simp only [exec, execWrnib, State.using_of_field (sl := .destination) h, State.nibblesToWrite, gt_iff_lt, ← not_le,
    ite_not]

/-- A field that fits below the end of its slice, or has no nibbles, ends below the largest cursor. -/
theorem cursor_add_lt {c len : Word} {n : NibCount} (hlen : n ≠ 0 → len.toNat ≤ 2 ^ 63 - 1)
    (hroom : n.toNat ≤ 2 * len.toNat - c.toNat) : c.toNat + n.toNat < 2 ^ 64 := by
  by_cases hn : n = 0
  · subst hn
    exact c.isLt
  · have := hlen hn
    have : 0 < n.toNat := Nat.pos_of_ne_zero fun h => hn (BitVec.eq_of_toNat_eq h)
    omega

/-- Settles O20: with enough nibbles left the commit phase reads the field nibble by nibble, else `TRUNC_NIB`. -/
theorem rdnibReadsField : Obligations.RdnibReadsField := by
  intro s rd n hn hok
  refine ⟨decodeInvertsEncode (.rdnib rd n) (decide_eq_true hn), ?_⟩
  split
  · rename_i hroom
    refine ⟨_, (exec_rdnib hok).trans (if_pos hroom), rfl, rfl, rfl, fun r hr => ?_, ?_, ?_, fun j hj => ?_⟩
    · rw [State.slot_succeed, State.slot_readField, if_neg hr]
    · exact toNat_cursor_add (cursor_add_lt (fun h => (hok h).2) hroom)
    · rw [State.slot_succeed, State.slot_readField, if_pos rfl]
      exact ofNat_nibRead_lt _ _ _ _
    · rw [State.slot_succeed, State.slot_readField, if_pos rfl, extract_nibRead _ _ _ hn hj]
  · exact (exec_rdnib hok).trans (if_neg ‹_›)

/-- Settles O21: with enough room the commit phase sets the nibbles of the field and no other, else `DST_FULL`. -/
theorem wrnibWritesField : Obligations.WrnibWritesField := by
  intro s rs n hwf hn hok
  refine ⟨decodeInvertsEncode (.wrnib rs n) (decide_eq_true hn), ?_⟩
  split
  · rename_i hroom
    refine ⟨_, (exec_wrnib hok).trans (if_pos hroom), rfl, rfl, rfl, ?_, fun q => ?_, fun a ha => ?_⟩
    · exact toNat_cursor_add (cursor_add_lt (fun h => (hok h).2) hroom)
    · exact Memory.nibble_nibWrite hwf _ _ _ q _
    · exact Memory.read_nibWrite_outside hwf (by omega)
  · exact (exec_wrnib hok).trans (if_neg ‹_›)

end Sys2Proof.Machine
end

section
/-! SUPPORT. A run of nibbles written one by one (20_memory.md R78), and the bytes it leaves (30_encoding.md R115). -/

namespace Sys2Proof.Machine

namespace Memory

/-- Set nibble `q` of the slice at `base` and those after it to the nibbles of a list (R78). -/
def setNibbles (m : Memory) (base q : Nat) : List Nibble → Memory
  | [] => m
  | d :: rest => (m.setNibble base q d).setNibbles base (q + 1) rest

theorem setNibbles_append (m : Memory) (base q : Nat) (l l' : List Nibble) :
    m.setNibbles base q (l ++ l') = (m.setNibbles base q l).setNibbles base (q + l.length) l' := by
  induction l generalizing m q with
  | nil => rfl
  | cons d rest ih => rw [List.cons_append, setNibbles, setNibbles, ih, List.length_cons, Nat.add_assoc, Nat.add_comm 1]

/-- `NibWrite` sets the low nibbles of its value, least significant first (R78). -/
theorem nibWrite_eq_setNibbles (m : Memory) (base q n : Nat) (v : Word) :
    m.nibWrite base q n v = m.setNibbles base q (nibblesOf v n) := by
  induction n generalizing m q v with
  | zero => rfl
  | succ n ih =>
    have hshift : nibblesOf v (n + 1) = v.extractLsb' 0 4 :: nibblesOf (v >>> 4) n := by
      simp only [nibblesOf, List.range_succ_eq_map, List.map_cons, List.map_map]
      refine congrArg _ (List.map_congr_left fun j _ => BitVec.eq_of_getLsbD_eq fun i hi => ?_)
      simp [show 4 * (j + 1) + i = 4 + (4 * j + i) by omega]
    rw [nibWrite, ih, hshift, setNibbles]

/-- Of two writes of a byte the second remains. -/
theorem write_write {m : Memory} (h : m.wf) (a : Nat) (v w : Byte) : (m.write a v).write a w = m.write a w := by
  refine Memory.ext (write_wf (write_wf h a v) a w) (write_wf h a w) fun b => ?_
  rw [read_write (write_wf h a v), read_write h, read_write h]
  split <;> rfl

/-- Setting both nibbles of a byte writes the byte (R76, R78). -/
theorem setNibble_setNibble {m : Memory} (h : m.wf) (base p : Nat) (d e : Nibble) :
    (m.setNibble base (2 * p) d).setNibble base (2 * p + 1) e = m.write (base + p) (e ++ d) := by
  have hlow : 2 * p / 2 = p := by omega
  have hhigh : (2 * p + 1) / 2 = p := by omega
  have hodd : (2 * p + 1) % 2 = 1 := by omega
  simp only [setNibble, hlow, hhigh, hodd, Nat.mul_mod_right, write_write h, read_write_same h]
  simp [replaceNibble, extract_low_append]

/-- An even number of nibbles, set from the low half of a byte on, writes the bytes made of them (R115). -/
theorem setNibbles_eq_writeBytes {m : Memory} (h : m.wf) (base p : Nat) {l : List Nibble} (heven : l.length % 2 = 0) :
    m.setNibbles base (2 * p) l = m.writeBytes (base + p) (packNibbles l) := by
  induction l using packNibbles.induct generalizing m p with
  | case1 => rfl
  | case2 d => cases heven
  | case3 d e rest ih =>
    have hrest : rest.length % 2 = 0 := by rw [List.length_cons, List.length_cons] at heven; omega
    rw [setNibbles, setNibbles, setNibble_setNibble h, packNibbles, writeBytes, Nat.add_assoc base p 1,
      ← ih (write_wf h _ _) (p + 1) hrest]
    rfl

end Memory

/-- The pad nibble 0 may be written out: it makes the same bytes (R115). -/
theorem packNibbles_append_pad {l : List Nibble} (hodd : l.length % 2 = 1) :
    packNibbles (l ++ [0]) = packNibbles l := by
  induction l using packNibbles.induct with
  | case1 => cases hodd
  | case2 d => rfl
  | case3 d e rest ih =>
    have hrest : rest.length % 2 = 1 := by rw [List.length_cons, List.length_cons] at hodd; omega
    rw [List.cons_append, List.cons_append, packNibbles, packNibbles, ih hrest]

end Sys2Proof.Machine
end

section
/-! CLAIM. The block codec, `PACK`'s commit phase and `SCAN` (41_nibblepack_block.md R151 to R156). -/

namespace Sys2Proof.Machine

open Sys2Proof.Safety

/-! ### Decoding what was encoded -/

/-- The walk accepts an encoded block that stands whole in its slice (R113, R157). -/
theorem checkBlock_of_holds {m : Memory} {base p len : Nat} {x : Slots} (h : Holds m (base + p) (encodeBlock x))
    (hfit : p + (encodeBlock x).length ≤ len) :
    checkBlock m base len p = .ok ⟨p, blockNibbles x, zeroMask x⟩ := by
  have hlong := two_le_encodeBlock_length x
  have hwidth : ¬ blockNibbles x > Config.maxNibbles := (blockNibbles_le_sixteen x).not_gt
  have hcontrol : (m.read (base + p)).toNat = blockNibbles x := by
    rw [show m.read (base + p) = BitVec.ofNat 8 (blockNibbles x) from h 0 (by omega), BitVec.toNat_ofNat,
      Nat.mod_eq_of_lt ((blockNibbles_le_sixteen x).trans_lt (by decide))]
  have hmask : m.read (base + p + 1) = zeroMask x := h 1 (by omega)
  rw [checkBlock, hcontrol, hmask, ← encodeBlock_length, if_neg (by omega), if_neg hwidth, if_neg (by omega)]

/-- Settles O25: the bytes stand where they were written, and there the walk and the reader find the encoder's header
and payload. -/
theorem decodeBlockInvertsEncodeBlock : Obligations.DecodeBlockInvertsEncodeBlock := by
  intro m base p len x hwf hfit
  have hholds := Memory.holds_writeBytes hwf (base + p) (encodeBlock x)
  refine ⟨_, checkBlock_of_holds hholds hfit, decodeBlock_of_holds hholds, ?_⟩
  rw [BlockHeader.stop, encodeBlock_length]

/-! ### The loop of `PACK` -/

/-- One turn of R155's loop: a slot that is not 0 is stored at the cursor, which moves past it. -/
def packSlot (base n : Nat) (acc : Memory × Nat) (v : Word) : Memory × Nat :=
  if v = 0 then acc else (acc.1.nibWrite base acc.2 n v, acc.2 + n)

/-- The loop of R155 sets the payload's nibbles, and its cursor ends behind them. -/
theorem foldl_packSlot (base n : Nat) (l : List Word) (m : Memory) (q : Nat) :
    l.foldl (packSlot base n) (m, q) =
      (m.setNibbles base q (payloadNibbles l n), q + (payloadNibbles l n).length) := by
  induction l generalizing m q with
  | nil => rfl
  | cons v rest ih =>
    rw [List.foldl_cons, packSlot]
    by_cases hzero : v = 0
    · rw [if_pos hzero, ih, hzero, payloadNibbles_cons_zero]
    · rw [if_neg hzero, ih, payloadNibbles_cons_ne hzero, Memory.setNibbles_append, Memory.nibWrite_eq_setNibbles,
        List.length_append, nibblesOf_length, Nat.add_assoc]

/-- The turn of the slot with number `j` looks at bit `j` of the zero-mask (R151, R155). -/
theorem packSlot_getElem (base n : Nat) (acc : Memory × Nat) (x : Slots) (j : Fin 8) :
    packSlot base n acc x[j] =
      if (zeroMask x).getLsbD j then acc else (acc.1.nibWrite base acc.2 n x[j], acc.2 + n) := by
  rw [isZeroMask_zeroMask x j, packSlot]
  exact if_congr decide_eq_true_iff.symm rfl rfl

/-- A loop over the slots runs over the slot numbers in order. -/
theorem foldl_toList_eq_foldl_finRange {α : Type} (f : α → Word → α) (a : α) (x : Slots) :
    x.toList.foldl f a = (List.finRange 8).foldl (fun acc j => f acc x[j]) a := by
  have hslots : x.toList = (List.finRange 8).map fun j => x[j] := by
    rw [← List.ofFn_eq_map]
    refine List.ext_getElem (by simp) fun i _ _ => ?_
    simp only [Vector.getElem_toList, List.getElem_ofFn, Fin.getElem_fin]
  rw [hslots, List.foldl_map]

/-- The commit phase of R155 sets the nibbles of the payload, and a pad nibble behind an odd number of them. -/
theorem packByNibbles_eq_setNibbles (m : Memory) (base p n : Nat) (x : Slots) :
    packByNibbles m base p n (zeroMask x) x =
      ((m.write (base + p) (BitVec.ofNat 8 n)).write (base + p + 1) (zeroMask x)).setNibbles base (2 * (p + 2))
        (payloadNibbles x.toList n ++ if (payloadNibbles x.toList n).length % 2 = 1 then [0] else []) := by
  have hloop := foldl_packSlot base n x.toList
    ((m.write (base + p) (BitVec.ofNat 8 n)).write (base + p + 1) (zeroMask x)) (2 * (p + 2))
  simp only [foldl_toList_eq_foldl_finRange, packSlot_getElem] at hloop
  simp only [packByNibbles, hloop, Memory.setNibbles_append, Nat.mul_add_mod]
  split
  · exact Memory.nibWrite_eq_setNibbles _ _ _ 1 0
  · rfl

/-- Settles O28: the loop sets the nibbles of the padded payload, two of them write a byte, and the padded payload makes
the bytes of the payload. -/
theorem packIsTheNibbleLoop : Obligations.PackIsTheNibbleLoop := by
  intro m base p x hwf
  have hheader : ((m.write (base + p) (BitVec.ofNat 8 (blockNibbles x))).write (base + p + 1) (zeroMask x)).wf :=
    Memory.write_wf (Memory.write_wf hwf _ _) _ _
  rw [packByNibbles_eq_setNibbles, encodeBlock, Memory.writeBytes, Memory.writeBytes]
  split
  · rename_i hodd
    rw [Memory.setNibbles_eq_writeBytes hheader _ _ (by rw [List.length_append, List.length_singleton]; omega),
      packNibbles_append_pad hodd]
    rfl
  · rw [List.append_nil, Memory.setNibbles_eq_writeBytes hheader _ _ (by omega)]
    rfl

/-! ### `SCAN` -/

/-- What holds of every slot of a block holds of each by its number. -/
theorem forall_mem_toList_iff {x : Slots} {P : Word → Prop} : (∀ v ∈ x.toList, P v) ↔ ∀ j : Fin 8, P x[j] := by
  constructor
  · exact fun h j => h x[j] (by simp)
  · intro h v hv
    obtain ⟨j, hj, rfl⟩ := Vector.mem_iff_getElem.1 (Vector.mem_toList_iff.1 hv)
    exact h ⟨j, hj⟩

theorem isBlockNibbles_blockNibbles (x : Slots) : IsBlockNibbles x (blockNibbles x) := by
  have hslots : ∀ k, blockNibbles x ≤ k ↔ ∀ j : Fin 8, x[j].toNat < 16 ^ k := fun k =>
    blockNibbles_le_iff.trans forall_mem_toList_iff
  exact ⟨blockNibbles_le_sixteen x, (hslots _).1 le_rfl, fun k => (hslots k).2⟩

/-- The five bits of `NW` hold every width (R152). -/
theorem toNat_ofNat_blockNibbles (x : Slots) : (BitVec.ofNat 5 (blockNibbles x)).toNat = blockNibbles x := by
  rw [BitVec.toNat_ofNat, Nat.mod_eq_of_lt ((blockNibbles_le_sixteen x).trans_lt (by decide))]

/-- Settles O23: the commit phase stages the slots it was given, with their own mask and width. -/
theorem scanReportsMaskAndWidth : Obligations.ScanReportsMaskAndWidth := by
  intro s
  refine ⟨decodeInvertsEncode .scan rfl, _, rfl, rfl, rfl, rfl, isZeroMask_zeroMask s.x, ?_⟩
  rw [State.succeed_nw, State.stage_nw, toNat_ofNat_blockNibbles]
  exact isBlockNibbles_blockNibbles s.x

end Sys2Proof.Machine
end

section
/-! CLAIM. The encoded stream and the walk that checks one (42_nibblepack_stream.md R170, R173). -/

namespace Sys2Proof.Machine

open Sys2Proof.Safety

/-- Settles O30: the model's recursion over the list takes one group of eight after the other. -/
theorem streamIsCountThenBlocks : Obligations.StreamIsCountThenBlocks := by
  intro t
  rw [encodeStream, Config.countBytes, leBytes_eq_leByteList, streamGroups_eq_map, List.flatMap_map]

/-! ### One block of the walk -/

/-- The header of the block at byte offset `e` of a slice, as it stands in memory (R113, R114). -/
def headerAt (m : Memory) (base e : Nat) : BlockHeader := ⟨e, (m.read (base + e)).toNat, m.read (base + e + 1)⟩

/-- The byte offset just past the block at `e`, where the next one starts (R173). -/
def blockEnd (m : Memory) (base e : Nat) : Nat := (headerAt m base e).stop

/-- A block passes the three tests of a slice of `len` bytes (R157, R173). -/
abbrev BlockHeader.Fits (b : BlockHeader) (len : Nat) : Prop := b.start + 2 ≤ len ∧ b.n ≤ 16 ∧ b.stop ≤ len

theorem eq_headerAt_iff {m : Memory} {base e : Nat} {b : BlockHeader} :
    b = headerAt m base e ↔ b.start = e ∧ b.n = (m.read (base + e)).toNat ∧ b.mask = m.read (base + e + 1) := by
  cases b
  exact BlockHeader.mk.injEq .. ▸ Iff.rfl

theorem checkBlock_eq_ok_iff {m : Memory} {base len e : Nat} {b : BlockHeader} :
    checkBlock m base len e = .ok b ↔ b = headerAt m base e ∧ b.Fits len := by
  rw [checkBlock]
  constructor
  · intro h
    split_ifs at h
    cases h
    exact ⟨rfl, Nat.le_of_not_gt ‹_›, Nat.le_of_not_gt ‹_›, Nat.le_of_not_gt ‹_›⟩
  · rintro ⟨rfl, hhdr, hwidth, hstop⟩
    exact (if_neg hhdr.not_gt).trans ((if_neg hwidth.not_gt).trans (if_neg hstop.not_gt))

theorem checkBlock_eq_error_iff {m : Memory} {base len e : Nat} {c : Subcause} :
    checkBlock m base len e = .error c ↔
      if e + 2 > len then c = .truncBlockHdr
      else if (headerAt m base e).n > 16 then c = .badWidth
      else blockEnd m base e > len ∧ c = .truncPayload := by
  have hcheck : checkBlock m base len e =
      if e + 2 > len then .error .truncBlockHdr
      else if (headerAt m base e).n > 16 then .error .badWidth
      else if blockEnd m base e > len then .error .truncPayload
      else .ok (headerAt m base e) := rfl
  rw [hcheck]
  split_ifs <;> simp [*, eq_comm]

theorem not_fits_of_checkBlock_eq_error {m : Memory} {base len e : Nat} {c : Subcause}
    (h : checkBlock m base len e = .error c) : ¬(headerAt m base e).Fits len := fun hfits => by
  rw [checkBlock_eq_ok_iff.2 ⟨rfl, hfits⟩] at h
  cases h

/-! ### The walk -/

/-- Past a first block that fits, the walk goes on from its end. -/
theorem checkBlocks_succ_of_fits {m : Memory} {base len g e : Nat} (h : (headerAt m base e).Fits len) :
    checkBlocks m base len (g + 1) e =
      (checkBlocks m base len g (blockEnd m base e)).map fun w => (headerAt m base e :: w.1, w.2) := by
  simp only [checkBlocks, checkBlock_eq_ok_iff.2 ⟨rfl, h⟩, blockEnd]
  cases checkBlocks m base len g (headerAt m base e).stop <;> rfl

theorem checkBlocks_succ_of_error {m : Memory} {base len g e : Nat} {c : Subcause}
    (h : checkBlock m base len e = .error c) : checkBlocks m base len (g + 1) e = .error c := by
  simp only [checkBlocks, h]

theorem except_map_eq_ok_iff {ε α β : Type} {f : α → β} {r : Except ε α} {b : β} :
    r.map f = .ok b ↔ ∃ a, r = .ok a ∧ f a = b := by
  cases r <;> simp [Except.map]

theorem except_map_eq_error_iff {ε α β : Type} {f : α → β} {r : Except ε α} {c : ε} :
    r.map f = .error c ↔ r = .error c := by
  cases r <;> simp [Except.map]

/-- A walk that succeeds starts with a block that fits and succeeds from its end on. -/
theorem checkBlocks_succ_eq_ok_iff {m : Memory} {base len g e stop : Nat} {bs : List BlockHeader} :
    checkBlocks m base len (g + 1) e = .ok (bs, stop) ↔
      (headerAt m base e).Fits len ∧
        ∃ rest, bs = headerAt m base e :: rest ∧ checkBlocks m base len g (blockEnd m base e) = .ok (rest, stop) := by
  cases hb : checkBlock m base len e with
  | error c => simp [checkBlocks_succ_of_error hb, not_fits_of_checkBlock_eq_error hb]
  | ok b =>
    obtain ⟨rfl, hfits⟩ := checkBlock_eq_ok_iff.1 hb
    rw [checkBlocks_succ_of_fits hfits, except_map_eq_ok_iff, and_iff_right hfits]
    constructor
    · rintro ⟨⟨rest, _⟩, hrest, ⟨⟩⟩
      exact ⟨rest, rfl, hrest⟩
    · rintro ⟨rest, rfl, hrest⟩
      exact ⟨_, hrest, rfl⟩

/-- A walk that fails does so at its first block, or that fits and the walk fails from its end on. -/
theorem checkBlocks_succ_eq_error_iff {m : Memory} {base len g e : Nat} {c : Subcause} :
    checkBlocks m base len (g + 1) e = .error c ↔
      checkBlock m base len e = .error c ∨
        (headerAt m base e).Fits len ∧ checkBlocks m base len g (blockEnd m base e) = .error c := by
  cases hb : checkBlock m base len e with
  | error d => simp [checkBlocks_succ_of_error hb, not_fits_of_checkBlock_eq_error hb]
  | ok b =>
    obtain ⟨rfl, hfits⟩ := checkBlock_eq_ok_iff.1 hb
    rw [checkBlocks_succ_of_fits hfits, except_map_eq_error_iff, and_iff_right hfits]
    simp

/-- The walk succeeds exactly on `g` blocks that each start where the sizes of those before lead and fit (R173). -/
theorem checkBlocks_eq_ok_iff {m : Memory} {base len g e stop : Nat} {bs : List BlockHeader} :
    checkBlocks m base len g e = .ok (bs, stop) ↔
      bs.length = g ∧ stop = e + (bs.map fun b => blockSize b.n b.mask).sum ∧
        ∀ k (hk : k < bs.length),
          bs[k] = headerAt m base (e + ((bs.map fun b => blockSize b.n b.mask).take k).sum) ∧ bs[k].Fits len := by
  induction g generalizing e bs with
  | zero =>
    constructor
    · rintro ⟨⟩
      exact ⟨rfl, rfl, fun k hk => absurd hk k.not_lt_zero⟩
    · rintro ⟨hnil, rfl, -⟩
      rw [List.eq_nil_of_length_eq_zero hnil]
      rfl
  | succ g ih =>
    rw [checkBlocks_succ_eq_ok_iff]
    cases bs with
    | nil => simp
    | cons b rest =>
      have hstart (k : Nat) :
          blockEnd m base e + k = e + (blockSize (headerAt m base e).n (headerAt m base e).mask + k) :=
        Nat.add_assoc ..
      simp only [List.cons.injEq, ih, List.length_cons, Nat.forall_lt_succ_left', List.getElem_cons_zero,
        List.getElem_cons_succ, List.map_cons, List.sum_cons, List.take_zero, List.take_succ_cons, List.sum_nil, hstart]
      constructor
      · rintro ⟨hfits, _, ⟨rfl, rfl⟩, hlen, hstop, hrest⟩
        exact ⟨congrArg _ hlen, hstop, ⟨rfl, hfits⟩, hrest⟩
      · rintro ⟨hlen, hstop, ⟨rfl, hfits⟩, hrest⟩
        exact ⟨hfits, _, ⟨rfl, rfl⟩, Nat.succ_injective hlen, hstop, hrest⟩

/-- The walk fails exactly where some needed block is the first to fail a test (R173). -/
theorem checkBlocks_eq_error_iff {m : Memory} {base len g e : Nat} {c : Subcause} :
    checkBlocks m base len g e = .error c ↔
      ∃ k < g, (∀ h < k, (headerAt m base ((blockEnd m base)^[h] e)).Fits len) ∧
        checkBlock m base len ((blockEnd m base)^[k] e) = .error c := by
  induction g generalizing e with
  | zero => simp [checkBlocks]
  | succ g ih =>
    rw [checkBlocks_succ_eq_error_iff, ih, Nat.exists_lt_succ_left]
    simp only [Nat.forall_lt_succ_left, Function.iterate_succ_apply, Function.iterate_zero_apply, Nat.not_lt_zero]
    grind

/-! ### The stream -/

/-- A header that passes its three tests: the four bytes of the count stand in the slice, and more follows exactly where
the count is not 0 (R173). -/
abbrev HeaderPasses (m : Memory) (base len p : Nat) : Prop :=
  p + 4 ≤ len ∧ (leValue m (base + p) 4 = 0 → len = p + 4) ∧ (0 < leValue m (base + p) 4 → p + 4 < len)

/-- The check of a stream: the three tests of the header, in the order of R173, then the walk over the needed blocks. -/
theorem streamCheck_eq (m : Memory) (base len p lim : Nat) :
    streamCheck m base len p lim =
      if p + 4 > len then .error .truncCount
      else if leValue m (base + p) 4 = 0 ∧ p + 4 < len then .error .zeroCountTrailing
      else if 0 < leValue m (base + p) 4 ∧ p + 4 = len then .error .nonzeroCountEmpty
      else (checkBlocks m base len ((min (leValue m (base + p) 4) lim + 7) / 8) (p + 4)).map fun w =>
        ⟨leValue m (base + p) 4, min (leValue m (base + p) 4) lim, w.1, w.2⟩ := by
  by_cases hlen : p + 4 > len
  · rw [streamCheck, if_pos hlen, if_pos hlen]
  · have hmore : len - (p + 4) > 0 ↔ p + 4 < len := Nat.sub_pos_iff_lt
    have hnone : len - (p + 4) = 0 ↔ p + 4 = len := by omega
    simp only [streamCheck, Memory.readLE_eq_leValue, hmore, hnone]
    rw [ceilDiv, show ∀ n, n + 8 - 1 = n + 7 from fun _ => rfl]
    cases checkBlocks m base len ((min (leValue m (base + p) 4) lim + 7) / 8) (p + 4) <;> rfl

theorem streamCheck_eq_ok_iff {m : Memory} {base len p lim : Nat} {i : StreamInfo} :
    streamCheck m base len p lim = .ok i ↔
      HeaderPasses m base len p ∧ i.count = leValue m (base + p) 4 ∧ i.deliver = min (leValue m (base + p) 4) lim ∧
        checkBlocks m base len ((min (leValue m (base + p) 4) lim + 7) / 8) (p + 4) = .ok (i.blocks, i.stop) := by
  rw [streamCheck_eq]
  split_ifs with hlen hzero hpos
  · exact iff_of_false nofun fun ⟨⟨hle, _, _⟩, _⟩ => hlen.not_ge hle
  · exact iff_of_false nofun fun ⟨⟨_, hnone, _⟩, _⟩ => hzero.2.ne' (hnone hzero.1)
  · exact iff_of_false nofun fun ⟨⟨_, _, hmore⟩, _⟩ => (hmore hpos.1).ne hpos.2
  · have hpasses : HeaderPasses m base len p := ⟨by omega, by omega, by omega⟩
    rw [except_map_eq_ok_iff, and_iff_right hpasses]
    constructor
    · rintro ⟨w, hwalk, rfl⟩
      exact ⟨rfl, rfl, hwalk⟩
    · rintro ⟨hcount, hdeliver, hwalk⟩
      exact ⟨_, hwalk, by rw [← hdeliver, ← hcount]⟩

/-- Settles O34: a header that passes, then the blocks of the walk. -/
theorem streamCheckAcceptsExactly : Obligations.StreamCheckAcceptsExactly := by
  intro m base len p lim i n sizes
  rw [streamCheck_eq_ok_iff, checkBlocks_eq_ok_iff]
  simp only [eq_headerAt_iff]
  constructor
  · rintro ⟨⟨hlen, hzero, hpos⟩, hcount, hdeliver, hblocks, hstop, hall⟩
    refine ⟨hlen, hzero, hpos, hcount, hdeliver, hblocks, hstop, fun g hg => ?_⟩
    obtain ⟨⟨hstart, hn, hmask⟩, hhdr, hwidth, hend⟩ := hall g hg
    exact ⟨hstart, hstart ▸ hn, hstart ▸ hmask, hwidth, hhdr, hend⟩
  · rintro ⟨hlen, hzero, hpos, hcount, hdeliver, hblocks, hstop, hall⟩
    refine ⟨⟨hlen, hzero, hpos⟩, hcount, hdeliver, hblocks, hstop, fun g hg => ?_⟩
    obtain ⟨hstart, hn, hmask, hwidth, hhdr, hend⟩ := hall g hg
    exact ⟨⟨hstart, hstart ▸ hn, hstart ▸ hmask⟩, hhdr, hwidth, hend⟩

/-- Settles O35: up to the first block that fails, the offsets are those the walk takes from block end to block end. -/
theorem streamCheckReportsFirstFailure : Obligations.StreamCheckReportsFirstFailure := by
  intro m base len p lim c n width size
  rw [streamCheck_eq]
  split_ifs with hlen hzero hpos
  · simp [eq_comm]
  · simp [eq_comm]
  · simp [eq_comm]
  · rw [except_map_eq_error_iff, checkBlocks_eq_error_iff]
    simp only [checkBlock_eq_error_iff]
    constructor
    · rintro ⟨k, hk, hfits, herr⟩
      refine ⟨fun h => (blockEnd m base)^[h] (p + 4), k, hk, rfl, fun h hh => ?_, herr⟩
      obtain ⟨hhdr, hwidth, hstop⟩ := hfits h hh
      exact ⟨hhdr, hwidth, hstop, Function.iterate_succ_apply' ..⟩
    · rintro ⟨e, k, hk, hzero, hfits, herr⟩
      have he (h : Nat) (hh : h ≤ k) : (blockEnd m base)^[h] (p + 4) = e h := by
        induction h with
        | zero => exact hzero.symm
        | succ h ih => rw [Function.iterate_succ_apply', ih (by omega)]; exact (hfits h hh).2.2.2.symm
      refine ⟨k, hk, fun h hh => ?_, ?_⟩
      · rw [he h hh.le]
        obtain ⟨hhdr, hwidth, hstop, -⟩ := hfits h hh
        exact ⟨hhdr, hwidth, hstop⟩
      · rw [he k le_rfl]
        exact herr

end Sys2Proof.Machine
end

section
/-! SUPPORT. How `ENCODE` and `DECODE` complete (42_nibblepack_stream.md R172, R175). -/

namespace Sys2Proof.Machine

open Sys2Proof.Safety

/-! ### Endings -/

/-- No error has the code of success (R241). -/
theorem State.raise_status_ne_zero (s : State) (c : Subcause) : (s.raise c).status ≠ 0 := by
  rw [State.raise_status]
  cases c <;> decide

/-- A command that completes does not end with an error. -/
theorem next_raise_ne {s t : State} (hst : t.status = 0) (c : Subcause) : (.next (s.raise c) : Result) ≠ .next t := by
  rintro ⟨⟩
  exact s.raise_status_ne_zero c hst

/-- A command that ends in a next state has met R75 (a), (b) for the slices it uses. -/
theorem State.sliceOk_of_using_eq_next {s t : State} {slices : List Slice} {k : Result}
    (h : s.using slices k = .next t) : (∀ sl ∈ slices, SliceOk s sl) ∧ k = .next t := by
  obtain ⟨hnone, hk⟩ := State.using_eq_next h
  exact ⟨fun sl hsl => State.sliceProblem_eq_none_iff_sliceOk.1 (List.findSome?_eq_none_iff.1 hnone sl hsl), hk⟩

theorem isOdd_eq_false_iff {c : Word} : isOdd c = false ↔ c.toNat % 2 = 0 := by
  rw [isOdd, decide_eq_false_iff_not]
  omega

/-- Two runs of bytes are apart exactly when they do not overlap (R75 (c)). -/
theorem overlap_eq_false_iff {a lenA b lenB : Nat} : overlap a lenA b lenB = false ↔ Apart a lenA b lenB := by
  rw [overlap, ← Bool.not_eq_true]
  simp
  omega

/-! ### `ENCODE` -/

/-- `ENCODE` completes only where it passes every test of R172, and then with its commit phase. -/
theorem exec_encode_completes {s t : State} (h : exec .encode s = .next t) (hst : t.status = 0) :
    ∃ md list, s.sinkMode = some md ∧ list = forwardList md s.acc s.streamInput ∧ s.valCount.toNat ≤ 2 ^ 32 - 1 ∧
      DestinationOk s ∧ byteOffset s.wnib + (encodeStream list).length ≤ s.dstCap.toNat ∧
      t = (s.commitEncoded list (encodeStream list) (forwardAcc md s.acc s.streamInput)).succeed := by
  change execEncode s = .next t at h
  rw [execEncode] at h
  split_ifs at h with hodd hcount
  · exact absurd h (next_raise_ne hst _)
  · exact absurd h (next_raise_ne hst _)
  cases hmd : s.sinkMode with
  | none =>
    rw [hmd] at h
    exact absurd h (next_raise_ne hst _)
  | some md =>
    rw [hmd] at h
    obtain ⟨hslices, hemit⟩ := State.sliceOk_of_using_eq_next h
    obtain ⟨-, rfl⟩ | ⟨hroom, -, ht⟩ := State.emit_eq_next hemit
    · exact absurd hst (State.raise_status_ne_zero _ _)
    · exact ⟨md, _, rfl, rfl, Nat.le_of_not_gt hcount, hslices .destination (by simp), hroom, ht⟩

/-! ### `DECODE` -/

/-- `DECODE` past its register tests and slice preconditions (R75, R175). -/
theorem exec_decode {s : State} {md : SinkMode} (heven : s.rnib.toNat % 2 = 0) (hmd : s.sinkMode = some md)
    (hsrc : SourceOk s) (hout : OutputOk s) : exec .decode s = decodeUnder md s := by
  change execDecode s = _
  rw [execDecode, isOdd_eq_false_iff.2 heven, hmd]
  refine State.using_of_none (fun sl hsl => State.sliceProblem_eq_none_iff_sliceOk.2 ?_) _
  simp only [List.mem_cons, List.not_mem_nil, or_false] at hsl
  obtain rfl | rfl := hsl
  · exact hsrc
  · exact hout

/-- `DECODE` completes only where it passes every test of R175, and then with its commit phase. -/
theorem exec_decode_completes {s t : State} (h : exec .decode s = .next t) (hst : t.status = 0) :
    ∃ md i, s.rnib.toNat % 2 = 0 ∧ s.sinkMode = some md ∧ SourceOk s ∧ OutputOk s ∧
      streamCheck s.mem s.srcBase.toNat s.srcLen.toNat (byteOffset s.rnib) s.limit.toNat = .ok i ∧
      t = (s.commitDecoded md i).succeed := by
  change execDecode s = .next t at h
  rw [execDecode] at h
  split_ifs at h with hodd
  · exact absurd h (next_raise_ne hst _)
  cases hmd : s.sinkMode with
  | none =>
    rw [hmd] at h
    exact absurd h (next_raise_ne hst _)
  | some md =>
    rw [hmd] at h
    obtain ⟨hslices, hunder⟩ := State.sliceOk_of_using_eq_next h
    rw [decodeUnder] at hunder
    split at hunder
    · exact absurd hunder (next_raise_ne hst _)
    · rename_i i hcheck
      split_ifs at hunder with hroom hoverlap
      · exact absurd hunder (next_raise_ne hst _)
      · injection hunder with ht
        exact ⟨md, i, isOdd_eq_false_iff.1 (Bool.eq_false_of_not_eq_true hodd), rfl, hslices .source (by simp),
          hslices .output (by simp), hcheck, ht.symm⟩

end Sys2Proof.Machine
end

section
/-! CLAIM. A stream that is cut short (42_nibblepack_stream.md R178). -/

namespace Sys2Proof.Machine

open Sys2Proof.Safety

/-- A block that fits a slice but ends behind a shorter one is reported as truncated in that one (R157). -/
theorem checkBlock_truncated {m : Memory} {base len len' e : Nat} (h : (headerAt m base e).Fits len)
    (hcut : len' < blockEnd m base e) : ∃ c, checkBlock m base len' e = .error c ∧ c.kind = .truncatedInput := by
  obtain ⟨-, hwidth, -⟩ := h
  simp only [checkBlock_eq_error_iff, if_neg hwidth.not_gt]
  split_ifs
  · exact ⟨_, rfl, rfl⟩
  · exact ⟨_, ⟨hcut, rfl⟩, rfl⟩

/-- A walk cut short of where it would stop fails at a block that is truncated. -/
theorem checkBlocks_truncated {m : Memory} {base len len' g e stop : Nat} {bs : List BlockHeader}
    (h : checkBlocks m base len g e = .ok (bs, stop)) (hstart : e ≤ len') (hcut : len' < stop) :
    ∃ c, checkBlocks m base len' g e = .error c ∧ c.kind = .truncatedInput := by
  induction g generalizing e bs with
  | zero =>
    cases h
    omega
  | succ g ih =>
    obtain ⟨⟨hhdr, hwidth, hend⟩, rest, -, hrest⟩ := checkBlocks_succ_eq_ok_iff.1 h
    simp only [checkBlocks_succ_eq_error_iff]
    by_cases hfirst : blockEnd m base e ≤ len'
    · obtain ⟨c, hc, hkind⟩ := ih hrest hfirst
      have hlong : (headerAt m base e).start + 2 ≤ (headerAt m base e).stop :=
        Nat.add_le_add_left (Nat.le_add_right ..) _
      exact ⟨c, .inr ⟨⟨hlong.trans hfirst, hwidth, hfirst⟩, hc⟩, hkind⟩
    · obtain ⟨c, hc, hkind⟩ := checkBlock_truncated ⟨hhdr, hwidth, hend⟩ (Nat.lt_of_not_ge hfirst)
      exact ⟨c, .inl hc, hkind⟩

theorem streamCheck_stop {m : Memory} {base len p lim : Nat} {i : StreamInfo}
    (h : streamCheck m base len p lim = .ok i) : p + 4 ≤ i.stop ∧ i.stop ≤ len := by
  obtain ⟨⟨hlen, -, -⟩, -, -, hwalk⟩ := streamCheck_eq_ok_iff.1 h
  obtain ⟨-, -, hstop⟩ := checkBlocks_ok hlen hwalk
  exact hstop

/-- A stream cut short of the last needed block is reported as truncated, but for a nonzero count with nothing behind it
(R178). -/
theorem streamCheck_truncated {m : Memory} {base len len' p lim : Nat} {i : StreamInfo}
    (h : streamCheck m base len p lim = .ok i) (hcut : len' < i.stop) :
    ∃ c, streamCheck m base len' p lim = .error c ∧ (len' = p + 4 → c = .nonzeroCountEmpty) ∧
      (len' ≠ p + 4 → c.kind = .truncatedInput) := by
  obtain ⟨⟨hlen, hzero, hpos⟩, -, -, hwalk⟩ := streamCheck_eq_ok_iff.1 h
  have hinside := streamCheck_stop h
  rw [streamCheck_eq]
  by_cases hheader : p + 4 > len'
  · rw [if_pos hheader]
    exact ⟨_, rfl, fun _ => by omega, fun _ => rfl⟩
  have hnonzero : leValue m (base + p) 4 ≠ 0 := fun hcount => by
    have := hzero hcount
    omega
  rw [if_neg hheader, if_neg fun hz => hnonzero hz.1]
  by_cases hempty : p + 4 = len'
  · rw [if_pos ⟨Nat.pos_of_ne_zero hnonzero, hempty⟩]
    exact ⟨_, rfl, fun _ => rfl, fun hne => absurd hempty.symm hne⟩
  · obtain ⟨c, hc, hkind⟩ := checkBlocks_truncated hwalk (Nat.le_of_not_gt hheader) hcut
    rw [if_neg fun hp => hempty hp.2, hc]
    exact ⟨c, rfl, fun h => absurd h.symm hempty, fun _ => hkind⟩

/-- Settles O38: the shorter slice meets the same register tests and preconditions, and there the walk stops at the first
block that is cut. -/
theorem truncatedStreamIsReported : Obligations.TruncatedStreamIsReported := by
  intro s t len h hst _ hcut
  obtain ⟨md, i, heven, hmd, ⟨hspace, hbound⟩, hout, hcheck, rfl⟩ := exec_decode_completes h hst
  obtain ⟨hstart, hinside⟩ := streamCheck_stop hcheck
  have hbytes : (s.commitDecoded md i).succeed.nbytes.toNat = i.stop - s.rnib.toNat / 2 :=
    Nat.mod_eq_of_lt (by omega)
  have hshort : len.toNat < i.stop := by
    rw [byteOffset] at hstart
    omega
  obtain ⟨c, hc, hheader, hblock⟩ := streamCheck_truncated hcheck hshort
  have hraises : exec .decode { s with srcLen := len } = .next ({ s with srcLen := len }.raise c) := by
    have hsrc : SourceOk { s with srcLen := len } := by constructor <;> dsimp only <;> omega
    rw [exec_decode (s := { s with srcLen := len }) heven hmd hsrc hout, decodeUnder, hc]
  refine ⟨c.code, ?_, fun hempty => by rw [hheader hempty]; rfl⟩
  rw [Raises, hraises, State.raise]
  split_ifs with hempty
  · rw [hheader hempty]
    rfl
  · rw [hblock hempty]
    rfl

end Sys2Proof.Machine
end

section
/-! SUPPORT. The sink undoes the forward transform (43_sink.md R192 to R194). -/

namespace Sys2Proof.Machine

open Sys2Proof.Safety

/-! ### Arrays of elements -/

theorem Memory.readElems_eq_map (m : Memory) (a n : Nat) :
    m.readElems a n = (List.range n).map fun k => m.readElem (a + 8 * k) := by
  induction n generalizing a with
  | zero => rfl
  | succ n ih =>
    rw [Memory.readElems, ih, List.range_succ_eq_map, List.map_cons, List.map_map]
    exact congrArg _ (List.map_congr_left fun k _ => congrArg _ (by rw [Nat.succ_eq_add_one]; omega))

@[simp] theorem Memory.readElems_length (m : Memory) (a n : Nat) : (m.readElems a n).length = n := by
  rw [Memory.readElems_eq_map, List.length_map, List.length_range]

/-- An element depends on its eight bytes only. -/
theorem Memory.readElem_congr {m m' : Memory} {a : Nat} (h : ∀ b, a ≤ b → b < a + 8 → m.read b = m'.read b) :
    m.readElem a = m'.readElem a := by
  rw [Memory.readElem, Memory.readElem, Memory.readLE_congr h]

/-! ### Pushing a transformed list -/

/-- The transform of one value against the accumulator `a` (R193). -/
def forwardValue (md : SinkMode) (a v : Word) : Word :=
  match md with
  | .raw => v
  | .delta => v - a
  | .xor => v ^^^ a

theorem forwardList_cons (md : SinkMode) (a v : Word) (rest : List Word) :
    forwardList md a (v :: rest) = forwardValue md a v :: forwardList md v rest := by
  cases md <;> rfl

/-- The sink appends the value whose transform it receives (R194). -/
theorem sinkValue_forwardValue (md : SinkMode) (a v : Word) : sinkValue md a (forwardValue md a v) = v := by
  cases md with
  | raw => rfl
  | delta => exact add_sub_cancel a v
  | xor => rw [sinkValue, forwardValue, BitVec.xor_comm v a, ← BitVec.xor_assoc, BitVec.xor_self, BitVec.zero_xor]

/-- Only the variants that keep an accumulator read it, and those leave the last value in it (R192, R193). -/
theorem forwardList_sinkPush_acc (s : State) (md : SinkMode) (v : Word) (l : List Word) :
    forwardList md (s.sinkPush md (forwardValue md s.acc v)).acc l = forwardList md v l := by
  cases md with
  | raw => cases l <;> rfl
  | delta => exact congrArg (forwardList .delta · l) (sinkValue_forwardValue .delta s.acc v)
  | xor => exact congrArg (forwardList .xor · l) (sinkValue_forwardValue .xor s.acc v)

theorem forwardAcc_sinkPush_acc (s : State) (md : SinkMode) (v : Word) (l : List Word) :
    forwardAcc md (s.sinkPush md (forwardValue md s.acc v)).acc l = forwardAcc md s.acc (v :: l) := by
  cases md with
  | raw => rfl
  | delta => exact (congrArg l.getLastD (sinkValue_forwardValue .delta s.acc v)).trans (List.getLastD_cons (a := s.acc)).symm
  | xor => exact (congrArg l.getLastD (sinkValue_forwardValue .xor s.acc v)).trans (List.getLastD_cons (a := s.acc)).symm

/-- Pushing a transformed list ends with the accumulator of the transform (R194). -/
theorem State.pushAll_forwardList_acc (s : State) (md : SinkMode) (v : List Word) :
    (s.pushAll md (forwardList md s.acc v)).acc = forwardAcc md s.acc v := by
  induction v generalizing s with
  | nil => cases md <;> rfl
  | cons w rest ih =>
    rw [forwardList_cons, State.pushAll, ← forwardList_sinkPush_acc s, ih, forwardAcc_sinkPush_acc]

/-- Pushing a transformed list appends the values (R194). -/
theorem State.pushAll_forwardList_elems {s : State} (h : s.mem.wf) (md : SinkMode) (v : List Word)
    (hl : s.outLen.toNat + v.length < 2 ^ 64) :
    (s.pushAll md (forwardList md s.acc v)).mem.readElems (s.outBase.toNat + 8 * s.outLen.toNat) v.length = v := by
  induction v generalizing s with
  | nil => rfl
  | cons w rest ih =>
    rw [List.length_cons] at hl
    have hnext : (s.sinkPush md (forwardValue md s.acc w)).outLen.toNat = s.outLen.toNat + 1 := by
      rw [State.sinkPush_outLen]
      exact toNat_cursor_add (n := 1) (by omega)
    have hwf := State.sinkPush_wf h md (forwardValue md s.acc w)
    have hrest := ih hwf (by omega)
    have hkeep := State.pushAll_sameOutside hwf md (forwardList md w rest) (by rw [forwardList_length]; omega)
    rw [hnext, State.sinkPush_outBase] at hrest hkeep
    rw [forwardList_sinkPush_acc] at hrest
    rw [forwardList_cons, State.pushAll, List.length_cons, Memory.readElems]
    refine List.cons_eq_cons.2 ⟨?_, hrest⟩
    rw [Memory.readElem_congr fun b hb hb' => hkeep b (by omega), State.sinkPush_mem, Memory.readElem_writeElem h,
      sinkValue_forwardValue]

end Sys2Proof.Machine
end

section
/-! SUPPORT. Checking and decoding the bytes of an encoded stream (42_nibblepack_stream.md R170, R173, R175). -/

namespace Sys2Proof.Machine

open Sys2Proof.Safety

/-! ### Bytes in memory -/

theorem holds_append {m : Memory} {a : Nat} {l l' : List Byte} (h : Holds m a (l ++ l')) :
    Holds m a l ∧ Holds m (a + l.length) l' := by
  rw [Holds, List.length_append] at h
  constructor
  · intro i hi
    rw [h i (by omega), List.getD_append _ _ _ _ hi]
  · intro i hi
    rw [Nat.add_assoc, h (l.length + i) (by omega), List.getD_append_right _ _ _ _ (by omega), Nat.add_sub_cancel_left]

/-- Where the little-endian bytes of a number stand, the number is read, cut to their width (R72). -/
theorem Memory.readLE_of_holds {m : Memory} {a n v : Nat} (h : Holds m a (leBytes v n)) : m.readLE a n = v % 256 ^ n := by
  have hwritten := Memory.holds_writeBytes Memory.wf_nil a (leBytes v n)
  rw [← Memory.readLE_writeLE Memory.wf_nil a n v]
  refine Memory.readLE_congr fun b hb hb' => ?_
  obtain ⟨i, rfl⟩ := Nat.exists_eq_add_of_le hb
  have hi : i < (leBytes v n).length := by
    rw [leBytes_length]
    omega
  rw [h i hi, Memory.writeLE, hwritten i hi]

/-! ### Groups of eight -/

/-- A group of fewer than eight values is padded with zeros (R118). -/
theorem toList_slotsOfList {l : List Word} (h : l.length ≤ 8) :
    (slotsOfList l).toList = l ++ List.replicate (8 - l.length) 0 := by
  have hpad : slotsOfList (l ++ List.replicate (8 - l.length) 0) = slotsOfList l := by
    refine Vector.ext fun j hj => ?_
    rw [getElem_slotsOfList, getElem_slotsOfList]
    grind
  rw [← hpad]
  exact slotsOfList_toList (by simp; omega)

/-- The groups of a list hold its values in order, and zeros behind them (R170). -/
theorem flatMap_groupsOf {g : Nat} {t : List Word} (h : t.length ≤ 8 * g) :
    (groupsOf g t).flatMap Vector.toList = t ++ List.replicate (8 * g - t.length) 0 := by
  induction g generalizing t with
  | zero =>
    rw [List.eq_nil_of_length_eq_zero (Nat.le_zero.1 h)]
    rfl
  | succ g ih =>
    rw [groupsOf, List.flatMap_cons, ih (by rw [List.length_drop]; omega), toList_slotsOfList (List.length_take_le 8 t)]
    rcases Nat.le_total t.length 8 with hshort | hlong
    · rw [List.take_of_length_le hshort, List.drop_of_length_le hshort, List.nil_append, List.append_assoc,
        List.replicate_append_replicate]
      congr 2
      simp
      omega
    · rw [List.length_take_of_le hlong, Nat.sub_self, List.replicate_zero, List.append_nil, ← List.append_assoc,
        List.take_append_drop, List.length_drop]
      congr 2
      omega

/-- The values of the groups, cut to the length of the list, are the list (R118, R175). -/
theorem take_flatMap_streamGroups (t : List Word) : ((streamGroups t).flatMap Vector.toList).take t.length = t := by
  rw [streamGroups, flatMap_groupsOf (by rw [ceilDiv]; omega), List.take_left]

/-! ### The walk over encoded blocks -/

/-- Where encoded blocks stand whole in a slice, the walk finds them, and they decode to their slots. -/
theorem checkBlocks_of_holds {m : Memory} {base len e : Nat} {xs : List Slots}
    (h : Holds m (base + e) (xs.flatMap encodeBlock)) (hfit : e + (xs.flatMap encodeBlock).length ≤ len) :
    ∃ bs, checkBlocks m base len xs.length e = .ok (bs, e + (xs.flatMap encodeBlock).length) ∧
      bs.map (decodeBlock m base) = xs := by
  induction xs generalizing e with
  | nil => exact ⟨[], rfl, rfl⟩
  | cons x rest ih =>
    rw [List.flatMap_cons] at h
    rw [List.flatMap_cons, List.length_append] at hfit
    obtain ⟨hx, hrest⟩ := holds_append h
    obtain ⟨hheader, hfits⟩ := checkBlock_eq_ok_iff.1 (checkBlock_of_holds hx (by omega : _ ≤ len))
    have hend : blockEnd m base e = e + (encodeBlock x).length := by
      rw [blockEnd, ← hheader, BlockHeader.stop, encodeBlock_length]
    obtain ⟨bs, hwalk, hdecode⟩ := ih (e := e + (encodeBlock x).length) (by rwa [← Nat.add_assoc]) (by omega)
    refine ⟨headerAt m base e :: bs, checkBlocks_succ_eq_ok_iff.2 ⟨hheader ▸ hfits, bs, rfl, ?_⟩, ?_⟩
    · rw [hend, hwalk, List.flatMap_cons, List.length_append, Nat.add_assoc]
    · rw [List.map_cons, hdecode, ← hheader, decodeBlock_of_holds hx]

/-- Where the bytes of an encoded stream stand and the slice ends with them, the check accepts them and finds the values
encoded (R173, R175). -/
theorem streamCheck_of_holds {m : Memory} {base p lim : Nat} {t : List Word} (h : Holds m (base + p) (encodeStream t))
    (hcount : t.length ≤ 2 ^ 32 - 1) (hlim : t.length ≤ lim) :
    ∃ i, streamCheck m base (p + (encodeStream t).length) p lim = .ok i ∧ i.deliver = t.length ∧
      i.stop = p + (encodeStream t).length ∧ streamValues m base i = t := by
  have hsize : (encodeStream t).length = 4 + ((streamGroups t).flatMap encodeBlock).length := by
    rw [encodeStream, List.length_append, leBytes_length, Config.countBytes]
  have hgroups : (streamGroups t).length = (t.length + 7) / 8 := by
    rw [streamGroups_eq_map, List.length_map, List.length_range]
  rw [encodeStream, Config.countBytes] at h
  obtain ⟨hheader, hblocks⟩ := holds_append h
  rw [leBytes_length, Nat.add_assoc] at hblocks
  have hn : leValue m (base + p) 4 = t.length := by
    rw [← Memory.readLE_eq_leValue, Memory.readLE_of_holds hheader, Nat.mod_eq_of_lt (by omega)]
  have hmin : min t.length lim = t.length := Nat.min_eq_left hlim
  obtain ⟨bs, hwalk, hdecode⟩ := checkBlocks_of_holds hblocks le_rfl
  rw [hgroups, Nat.add_assoc, ← hsize] at hwalk
  have hpasses : HeaderPasses m base (p + (encodeStream t).length) p := by
    obtain ⟨-, hlow, hhigh⟩ := streamSizeBounds t
    rw [HeaderPasses, hn]
    omega
  refine ⟨⟨t.length, t.length, bs, _⟩, streamCheck_eq_ok_iff.2 ⟨hpasses, hn.symm, ?_, ?_⟩, rfl, rfl, ?_⟩
  · rw [hn, hmin]
  · rw [hn, hmin, hwalk]
  · rw [streamValues, ← List.flatMap_map, hdecode, take_flatMap_streamGroups]

end Sys2Proof.Machine
end

section
/-! CLAIM. Decoding inverts encoding (42_nibblepack_stream.md R177). -/

namespace Sys2Proof.Machine

open Sys2Proof.Safety

theorem State.sinkMode_congr {s s' : State} (hmode : s'.mode = s.mode) (hxor : s'.hasXor = s.hasXor) :
    s'.sinkMode = s.sinkMode := by
  rw [State.sinkMode, State.sinkMode, hmode, hxor]

/-- The commit phase of `DECODE` on the values of a transformed list leaves the list in the sink (R175, R194). -/
theorem State.commitDecoded_forwardList {s : State} {md : SinkMode} {i : StreamInfo} {v : List Word} (hwf : s.mem.wf)
    (hvalues : streamValues s.mem s.srcBase.toNat i = forwardList md s.acc v)
    (hl : s.outLen.toNat + v.length < 2 ^ 64) :
    (s.commitDecoded md i).outLen = s.outLen + BitVec.ofNat 64 v.length ∧
      (s.commitDecoded md i).acc = forwardAcc md s.acc v ∧
      (s.commitDecoded md i).mem.readElems (s.outBase.toNat + 8 * s.outLen.toNat) v.length = v := by
  have hframe := s.stageRead_frame i.blocks
  have hacc : (s.stageRead i.blocks).acc = s.acc := by rw [hframe]
  have hmem : (s.stageRead i.blocks).mem = s.mem := by rw [hframe]
  have houtLen : (s.stageRead i.blocks).outLen = s.outLen := by rw [hframe]
  have houtBase : (s.stageRead i.blocks).outBase = s.outBase := by rw [hframe]
  simp only [State.commitDecoded, hvalues]
  rw [← hacc, ← houtLen, ← houtBase]
  rw [← hmem] at hwf
  rw [← houtLen] at hl
  refine ⟨?_, State.pushAll_forwardList_acc _ md v, State.pushAll_forwardList_elems hwf md v hl⟩
  rw [State.pushAll_outLen, forwardList_length]

/-- `DECODE` of a slice that ends with the stream of a transformed list completes and appends the list (R177). -/
theorem exec_decode_of_holds {s : State} {md : SinkMode} {v list : List Word} (hwf : s.mem.wf)
    (heven : s.rnib.toNat % 2 = 0) (hmd : s.sinkMode = some md) (hsrc : SourceOk s) (hout : OutputOk s)
    (hlist : list = forwardList md s.acc v)
    (hholds : Holds s.mem (s.srcBase.toNat + byteOffset s.rnib) (encodeStream list))
    (hlen : s.srcLen.toNat = byteOffset s.rnib + (encodeStream list).length)
    (hcount : v.length ≤ 2 ^ 32 - 1) (hlim : v.length ≤ s.limit.toNat)
    (hroom : s.outLen.toNat + v.length ≤ s.outCap.toNat)
    (hapart : Apart (s.outBase.toNat + 8 * s.outLen.toNat) (8 * v.length) s.srcBase.toNat s.srcLen.toNat) :
    ∃ t, exec .decode s = .next t ∧ t.status = 0 ∧ t.outLen = s.outLen + BitVec.ofNat 64 v.length ∧
      t.acc = forwardAcc md s.acc v ∧
      t.mem.readElems (s.outBase.toNat + 8 * s.outLen.toNat) v.length = v := by
  have hlength : list.length = v.length := by rw [hlist, forwardList_length]
  obtain ⟨i, hcheck, hdeliver, -, hvalues⟩ :=
    streamCheck_of_holds (lim := s.limit.toNat) hholds (hlength ▸ hcount) (hlength ▸ hlim)
  rw [hlength] at hdeliver
  rw [hlist] at hvalues
  have hcap := s.outCap.isLt
  have hfree : s.writesInto (s.outBase.toNat + 8 * s.outLen.toNat) (8 * v.length) .source = false :=
    overlap_eq_false_iff.2 hapart
  refine ⟨(s.commitDecoded md i).succeed, ?_, rfl, State.commitDecoded_forwardList hwf hvalues (by omega)⟩
  rw [exec_decode heven hmd hsrc hout, decodeUnder, hlen, hcheck]
  simp only [hdeliver, hfree]
  rw [if_neg hroom.not_gt]
  rfl

/-- Settles O37: the bytes `ENCODE` wrote stand in the slice `DECODE` reads, which ends with them. -/
theorem decodeInvertsEncodeStream : Obligations.DecodeInvertsEncodeStream := by
  intro s t outBase outCap limit hwf h hst src u hcap hlim hout hapart
  obtain ⟨md, list, hmd, hlist, hcount, ⟨hspace, hbound⟩, hroom, ht⟩ := exec_encode_completes h hst
  have hinput : s.streamInput.length = s.valCount.toNat := Memory.readElems_length ..
  have hlong : 4 ≤ (encodeStream list).length := (Nat.le_add_right ..).trans (streamSizeBounds list).2.1
  rw [byteOffset] at hroom
  have hstart : byteOffset u.rnib = 0 := by simp [byteOffset, u]
  have hsrc : u.srcBase.toNat = src := Nat.mod_eq_of_lt (by omega)
  have hbytes : u.srcLen.toNat = (encodeStream list).length := by
    rw [show u.srcLen = t.nbytes from rfl, ht]
    exact Nat.mod_eq_of_lt (by omega)
  have hmem : u.mem = s.mem.writeBytes src (encodeStream list) := by
    rw [show u.mem = t.mem from rfl, ht]
    rfl
  have hmode : u.sinkMode = some md := by
    have hframe : t.mode = s.mode ∧ t.hasXor = s.hasXor := by
      rw [ht, State.commitEncoded_frame]
      exact ⟨rfl, rfl⟩
    rw [← hmd]
    exact State.sinkMode_congr hframe.1 hframe.2
  have hholds : Holds u.mem (u.srcBase.toNat + byteOffset u.rnib) (encodeStream list) := by
    rw [hsrc, hmem, hstart, Nat.add_zero]
    exact Memory.holds_writeBytes hwf src _
  obtain ⟨w, hw, hstatus, houtLen, hacc, hvalues⟩ := exec_decode_of_holds (s := u) (v := s.streamInput) (list := list)
    (hmem ▸ Memory.writeBytes_wf hwf ..) rfl hmode ⟨by omega, by omega⟩ hout hlist hholds
    (by rw [hbytes, hstart, Nat.zero_add]) (hinput ▸ hcount) (hinput ▸ hlim)
    (hinput ▸ (Nat.zero_add _).trans_le hcap) (by rw [hinput, hsrc]; exact hapart)
  refine ⟨w, hw, hstatus, ?_, ?_, ?_⟩
  · rw [houtLen, hinput, BitVec.ofNat_toNat]
    simp [u]
  · rw [hacc, ht]
    rfl
  · rw [hinput, State.streamInput, Memory.readElems_eq_map, Memory.readElems_eq_map, List.map_inj_left] at hvalues
    exact fun k hk => hvalues k (List.mem_range.2 hk)

end Sys2Proof.Machine
end

section
/-! CLAIM. The forward transform and the sink that undoes it (43_sink.md R193 to R195). -/

namespace Sys2Proof.Machine

/-! ### The forward transform -/

/-- Element `i` of the transform is value `i` against its predecessor, the first against the accumulator (R193). -/
theorem getD_forwardList (md : SinkMode) (a : Word) {v : List Word} {i : Nat} (hi : i < v.length) :
    (forwardList md a v).getD i 0 = forwardValue md ((a :: v).getD i 0) (v.getD i 0) := by
  induction v generalizing a i with
  | nil => cases hi
  | cons w rest ih =>
    rw [forwardList_cons]
    cases i with
    | zero => rfl
    | succ i =>
      simp only [List.getD_cons_succ]
      exact ih w (Nat.lt_of_succ_lt_succ hi)

/-- The last value, or the accumulator where there is none, stands at the end of the list that starts with the
accumulator. -/
theorem getLastD_eq_getD_cons (a d : Word) (v : List Word) : v.getLastD a = (a :: v).getD v.length d := by
  induction v generalizing a with
  | nil => rfl
  | cons w rest ih => rw [List.getLastD_cons, ih, List.length_cons, List.getD_cons_succ]

theorem forwardAcc_eq (md : SinkMode) (a : Word) (v : List Word) :
    forwardAcc md a v = if md = .raw then a else (a :: v).getD v.length 0 := by
  cases md with
  | raw => rfl
  | delta | xor => exact getLastD_eq_getD_cons a 0 v

/-- Settles O33: each element is the transform of one value against its predecessor, said per variant. -/
theorem forwardTakesDifferences : Obligations.ForwardTakesDifferences := by
  refine fun md a v => ⟨forwardList_length md a v, fun i hi => (getD_forwardList md a hi).trans ?_, forwardAcc_eq md a v⟩
  cases md <;> rfl

/-! ### The sink -/

/-- `OUT_LEN` grows by the length of the list where it does not wrap. -/
theorem State.toNat_pushAll_outLen {s : State} (md : SinkMode) {l : List Word}
    (h : s.outLen.toNat + l.length < 2 ^ 64) : (s.pushAll md l).outLen.toNat = s.outLen.toNat + l.length := by
  rw [State.pushAll_outLen]
  exact toNat_cursor_add h

/-- Settles O41: each push appends the value whose transform it receives and leaves the accumulator the next value was
transformed against. -/
theorem sinkInvertsForward : Obligations.SinkInvertsForward := by
  intro s md v hwf hfits
  have hlength : (forwardList md s.acc v).length = v.length := forwardList_length md s.acc v
  have hlen := State.toNat_pushAll_outLen md (hlength.symm ▸ hfits)
  exact ⟨State.pushAll_forwardList_acc s md v, hlength ▸ hlen, State.pushAll_forwardList_elems hwf md v hfits⟩

/-- Settles O39: the commit phase resets the sink, and completion reports success. -/
theorem sresetClearsSink : Obligations.SresetClearsSink :=
  fun _ => ⟨decodeInvertsEncode .sreset rfl, rfl⟩

end Sys2Proof.Machine
end

section
/-! CLAIM. The exchange of elements in place that undoes a frame's order (44_histogram.md R208, R216). -/

namespace Sys2Proof.Machine

open Sys2Proof.Safety

/-! ### Elements of one array -/

/-- Two elements of an array have the same bytes or share none. -/
theorem Memory.readElem_writeElem_index {m : Memory} (h : m.wf) (base i j : Nat) (v : Word) :
    (m.writeElem (base + 8 * i) v).readElem (base + 8 * j) = if j = i then v else m.readElem (base + 8 * j) := by
  split_ifs with hij
  · rw [hij, Memory.readElem_writeElem h]
  · exact Memory.readElem_congr fun b _ _ => Memory.read_writeElem_outside h (by omega)

theorem readElem_swapElems {m : Memory} (h : m.wf) (base i j k : Nat) :
    (swapElems m base i j).readElem (base + 8 * k) = m.readElem (base + 8 * Equiv.swap i j k) := by
  rw [swapElems, Memory.readElem_writeElem_index (Memory.writeElem_wf h ..), Memory.readElem_writeElem_index h,
    Equiv.swap_apply_def]
  grind

/-- Where the element at `l` stood before `k` exchanges: the outer `k` elements at either end have changed places with
their mirror images, those between them have not moved (R216). -/
def mirrorOuter (n k l : Nat) : Nat := if l < k ∨ n - k ≤ l then n - 1 - l else l

/-- One more exchange mirrors one more element at either end. -/
theorem mirrorOuter_swap {n k l : Nat} (hk : k < n / 2) (hl : l < n) :
    mirrorOuter n k (Equiv.swap k (n - 1 - k) l) = mirrorOuter n (k + 1) l := by
  rw [Equiv.swap_apply_def, mirrorOuter, mirrorOuter]
  split_ifs <;> omega

theorem mirrorOuter_half {n l : Nat} (hl : l < n) : mirrorOuter n (n / 2) l = n - 1 - l := by
  rw [mirrorOuter]
  split_ifs <;> omega

theorem readElem_reverseElems {m : Memory} (h : m.wf) (base : Nat) {n k l : Nat} (hk : k ≤ n / 2) (hl : l < n) :
    (reverseElems m base n k).readElem (base + 8 * l) = m.readElem (base + 8 * mirrorOuter n k l) := by
  induction k generalizing l with
  | zero => rw [reverseElems, mirrorOuter, if_neg (by omega)]
  | succ k ih =>
    have hswap : Equiv.swap k (n - 1 - k) l < n := by
      rw [Equiv.swap_apply_def]
      split_ifs <;> omega
    rw [reverseElems, readElem_swapElems (reverseElems_wf h ..), ih (by omega) hswap, mirrorOuter_swap hk hl]

theorem readElems_reverseElems {m : Memory} (h : m.wf) (base n : Nat) :
    (reverseElems m base n (n / 2)).readElems base n = (m.readElems base n).reverse := by
  refine List.ext_getElem (by simp) fun l hl _ => ?_
  rw [Memory.readElems_length] at hl
  simp only [Memory.readElems_eq_map, List.getElem_reverse, List.getElem_map, List.getElem_range, List.length_map,
    List.length_range]
  rw [readElem_reverseElems h base le_rfl hl, mirrorOuter_half hl]

/-- Settles O46: after `n div 2` exchanges every element stands where its mirror image stood, the middle one of an odd
number included. -/
theorem reversalInPlaceReversesElements : Obligations.ReversalInPlaceReversesElements :=
  fun _ base n hwf =>
    ⟨readElems_reverseElems hwf base n, fun _ hb => read_reverseElems_outside hwf (Nat.div_le_self n 2) hb⟩

end Sys2Proof.Machine
end

section
/-! CLAIM. The walk that checks a frame (44_histogram.md R212). -/

namespace Sys2Proof.Machine

open Sys2Proof.Safety

/-- The format codes by what the NBC answers to them (R207). -/
theorem formatProblem_eq (f : Byte) :
    formatProblem f =
      if f = 3 ∨ f = 4 then some .fmtUnimplemented else if f ≠ 1 ∧ f ≠ 2 then some .fmtUnknown else none := by
  rw [formatProblem]
  simp only [ne_eq, ← not_or, ite_not]

/-- The tests of the embedded stream are those of `stream_check`, then that of the two counts, then that of the room
(R212, R215). -/
theorem frameStreamCheck_eq_bind (m : Memory) (base len p outCap nb : Nat) :
    frameStreamCheck m base len p outCap nb =
      (streamCheck m base len p (2 ^ 64 - 1)).bind fun i =>
        if i.count ≠ nb then .error .bucketCountMismatch else if i.count > outCap then .error .outFull else .ok i := by
  rw [frameStreamCheck]
  cases streamCheck m base len p (2 ^ 64 - 1) <;> rfl

/-- Settles O44: the format code is judged before the rest of the header is asked for, each further field before the
next, and every failure of the stream is reported in state 5. -/
theorem frameCheckReportsFirstFailure : Obligations.FrameCheckReportsFirstFailure := by
  intro m base len p outCap f nb
  rw [frameCheck, formatProblem_eq]
  refine if_congr Iff.rfl rfl ?_
  by_cases hlayout : f = 3 ∨ f = 4
  · rw [if_pos hlayout, if_pos hlayout]
  by_cases hunknown : f ≠ 1 ∧ f ≠ 2
  · rw [if_neg hlayout, if_neg hlayout, if_pos hunknown, if_pos hunknown]
  rw [if_neg hlayout, if_neg hlayout, if_neg hunknown, if_neg hunknown]
  refine if_congr Iff.rfl rfl (if_congr Iff.rfl rfl (if_congr Iff.rfl rfl ?_))
  simp only [frameStreamCheck_eq_bind, Memory.readElem, Memory.readLE_eq_leValue, Config.frameHeaderBytes]
  cases streamCheck m base len (p + 19) (2 ^ 64 - 1) with
  | error c => rfl
  | ok i =>
    simp only [Except.bind]
    split_ifs <;> rfl

end Sys2Proof.Machine
end

section
/-! SUPPORT. Checking and decoding the bytes of an encoded frame (30_encoding.md R120, 44_histogram.md R212, R214). -/

namespace Sys2Proof.Machine

open Sys2Proof.Safety

/-! ### The bytes of a frame -/

theorem encodeFrame_length (f : Byte) (nb : BitVec 32) (init mult : Word) (t : List Word) :
    (encodeFrame f nb init mult t).length = 19 + (encodeStream t).length := by
  simp only [encodeFrame, List.length_cons, List.length_append, leBytes_length]
  omega

/-- Where the eight little-endian bytes of an element stand, the element is read (R72). -/
theorem Memory.readElem_of_holds {m : Memory} {a : Nat} {v : Word} (h : Holds m a (leBytes v.toNat 8)) :
    m.readElem a = v := by
  have hv : v.toNat < 256 ^ 8 := v.isLt
  rw [Memory.readElem, Memory.readLE_of_holds h, Nat.mod_eq_of_lt hv, BitVec.ofNat_toNat, BitVec.setWidth_eq]

/-- Where the bytes of a frame stand, its fields are read and the bytes of its stream stand behind them (R120). -/
theorem fields_of_holds_encodeFrame {m : Memory} {a : Nat} {f : Byte} {nb : BitVec 32} {init mult : Word}
    {t : List Word} (h : Holds m a (encodeFrame f nb init mult t)) (hnb : nb.toNat ≤ 65535) :
    m.read a = f ∧ m.readLE (a + 1) 2 = nb.toNat ∧ m.readElem (a + 3) = init ∧ m.readElem (a + 11) = mult ∧
      Holds m (a + 19) (encodeStream t) := by
  rw [encodeFrame, ← List.singleton_append] at h
  obtain ⟨hformat, hrest⟩ := holds_append h
  obtain ⟨hrest, hstream⟩ := holds_append hrest
  obtain ⟨hrest, hmult⟩ := holds_append hrest
  obtain ⟨hcount, hinit⟩ := holds_append hrest
  simp only [List.length_append, leBytes_length, List.length_singleton, Nat.add_assoc] at hcount hinit hmult hstream
  have hread := Memory.readLE_of_holds hcount
  rw [Nat.mod_eq_of_lt (by omega)] at hread
  exact ⟨hformat 0 Nat.one_pos, hread, Memory.readElem_of_holds hinit, Memory.readElem_of_holds hmult, hstream⟩

/-! ### The check of a frame -/

/-- A whole header with an implemented format, and a stream of as many values as the header says and the output has room
for, make a frame (R212). -/
theorem frameCheck_eq_ok {m : Memory} {base len p outCap : Nat} {i : StreamInfo} (hlen : p + 19 ≤ len)
    (hformat : formatProblem (m.read (base + p)) = none)
    (hstream : streamCheck m base len (p + 19) (2 ^ 64 - 1) = .ok i)
    (hcount : i.count = m.readLE (base + p + 1) 2) (hroom : i.count ≤ outCap) :
    frameCheck m base len p outCap =
      .ok ⟨m.read (base + p), i.count, m.readElem (base + p + 3), m.readElem (base + p + 11), i⟩ := by
  have hchecked : frameStreamCheck m base len (p + 19) outCap i.count = .ok i := by
    rw [frameStreamCheck_eq_bind, hstream]
    exact (if_neg (not_not.2 rfl)).trans (if_neg hroom.not_gt)
  simp only [frameCheck, hformat, Config.frameHeaderBytes, ← hcount, hchecked]
  rw [if_neg (by omega), if_neg (by omega), if_neg (by omega), if_neg (by omega)]

/-- Where the bytes of a frame stand and the slice ends with them, the check accepts them, reads the parameters and finds
the values of the stream (R212, R215). -/
theorem frameCheck_of_holds {m : Memory} {base p outCap : Nat} {f : Byte} {nb : BitVec 32} {init mult : Word}
    {t : List Word} (h : Holds m (base + p) (encodeFrame f nb init mult t)) (hformat : formatProblem f = none)
    (hlength : t.length = nb.toNat) (hnb : nb.toNat ≤ 65535) (hroom : nb.toNat ≤ outCap) :
    ∃ i, frameCheck m base (p + (encodeFrame f nb init mult t).length) p outCap = .ok ⟨f, nb.toNat, init, mult, i⟩ ∧
      i.deliver = nb.toNat ∧ streamValues m base i = t := by
  obtain ⟨hf, hcount, hinit, hmult, hholds⟩ := fields_of_holds_encodeFrame h hnb
  obtain ⟨i, hstream, hdeliver, -, hvalues⟩ :=
    streamCheck_of_holds (lim := 2 ^ 64 - 1) (p := p + 19) hholds (by omega) (by omega)
  have hdeclared : i.count = nb.toNat := by
    obtain ⟨-, hread, hmin, -⟩ := streamCheck_eq_ok_iff.1 hstream
    rw [← hread] at hmin
    omega
  rw [encodeFrame_length, ← Nat.add_assoc]
  refine ⟨i, ?_, hdeliver.trans hlength, hvalues⟩
  rw [frameCheck_eq_ok (Nat.le_add_right ..) (hf ▸ hformat) hstream (hdeclared.trans hcount.symm) (hdeclared ▸ hroom), hf,
    hinit, hmult, hdeclared]

/-! ### The commit phase of `HDEC` -/

/-- Reversing twice, or never, leaves a list as it was (R208). -/
theorem formatOrder_formatOrder (f : Byte) (v : List Word) : formatOrder f (formatOrder f v) = v := by
  simp only [formatOrder]
  split
  · exact v.reverse_reverse
  · rfl

@[simp] theorem formatOrder_length (f : Byte) (v : List Word) : (formatOrder f v).length = v.length := by
  rw [formatOrder]
  split
  · exact v.length_reverse
  · rfl

@[simp] theorem State.undoOrder_outLen (s : State) (f : Byte) (n : Nat) : (s.undoOrder f n).outLen = s.outLen := by
  rw [State.undoOrder]
  split <;> rfl

/-- Undoing a format's order of the elements of the output puts them in that order once more (R208, R216). -/
theorem State.readElems_undoOrder {s : State} (h : s.mem.wf) (f : Byte) (n : Nat) :
    (s.undoOrder f n).mem.readElems s.outBase.toNat n = formatOrder f (s.mem.readElems s.outBase.toNat n) := by
  rw [State.undoOrder, formatOrder]
  split
  · exact readElems_reverseElems h ..
  · rfl

theorem State.commitFrameRead_outLen (s : State) (i : FrameInfo) :
    (s.commitFrameRead i).outLen = (s.resetSink.commitDecoded .delta i.stream).outLen :=
  State.undoOrder_outLen ..

/-- The output of `HDEC` is what the reset sink received, in the format's order (R214). -/
theorem State.readElems_commitFrameRead {s : State} (h : s.mem.wf) (i : FrameInfo) :
    (s.commitFrameRead i).mem.readElems s.outBase.toNat i.stream.deliver =
      formatOrder i.format
        ((s.resetSink.commitDecoded .delta i.stream).mem.readElems s.outBase.toNat i.stream.deliver) := by
  have hundo := State.readElems_undoOrder (State.commitDecoded_wf (s := s.resetSink) h .delta i.stream) i.format
    i.stream.deliver
  rwa [State.commitDecoded_outBase] at hundo

/-- The commit phase of `HDEC` on the stream of a list in its format's order leaves the list in the output (R208,
R214). -/
theorem State.commitFrameRead_of_values {s : State} {i : FrameInfo} {v : List Word} (hwf : s.mem.wf)
    (hvalues : streamValues s.mem s.srcBase.toNat i.stream = forwardList .delta 0 (formatOrder i.format v))
    (hdeliver : i.stream.deliver = v.length) (hl : v.length < 2 ^ 64) :
    (s.commitFrameRead i).outLen.toNat = v.length ∧
      (s.commitFrameRead i).mem.readElems s.outBase.toNat v.length = v := by
  have hempty : s.resetSink.outLen.toNat = 0 := rfl
  obtain ⟨houtLen, -, helems⟩ := State.commitDecoded_forwardList (s := s.resetSink) (md := .delta) (i := i.stream) hwf
    hvalues (by rw [hempty, formatOrder_length, Nat.zero_add]; exact hl)
  rw [formatOrder_length] at houtLen helems
  rw [hempty] at helems
  constructor
  · rw [State.commitFrameRead_outLen, houtLen, toNat_cursor_add (by omega), hempty, Nat.zero_add]
  · rw [← hdeliver, State.readElems_commitFrameRead hwf, hdeliver]
    exact (congrArg _ helems).trans (formatOrder_formatOrder ..)

end Sys2Proof.Machine
end

section
/-! CLAIM. Decoding a frame inverts encoding it (44_histogram.md R217). -/

namespace Sys2Proof.Machine

open Sys2Proof.Safety

/-! ### Endings -/

theorem State.raiseIn_status_ne_zero (s : State) (st : FrameState) (c : Subcause) : (s.raiseIn st c).status ≠ 0 :=
  s.raise_status_ne_zero c

/-- A frame command that completes does not end with an error. -/
theorem next_raiseIn_ne {s t : State} (hst : t.status = 0) (st : FrameState) (c : Subcause) :
    (.next (s.raiseIn st c) : Result) ≠ .next t := by
  rintro ⟨⟩
  exact s.raiseIn_status_ne_zero st c hst

/-! ### `HENC` -/

/-- `HENC` passes its register tests only with a count that fits the frame and an implemented format (R207, R210). -/
theorem State.frameProblem_eq_none {s : State} (h : s.frameProblem = none) :
    s.hnb.toNat ≤ 65535 ∧ formatProblem s.hfmt = none := by
  rw [State.frameProblem] at h
  split_ifs at h with _ hnb
  exact ⟨Nat.le_of_not_gt hnb, h⟩

/-- `HENC` completes only where it passes every test of R211, and then with its commit phase. -/
theorem exec_henc_completes {s t : State} (h : exec .henc s = .next t) (hst : t.status = 0) :
    s.frameProblem = none ∧ DestinationOk s ∧ byteOffset s.wnib + s.frameBytes.length ≤ s.dstCap.toNat ∧
      t = s.commitFrame.succeed := by
  change execHenc s = .next t at h
  rw [execHenc] at h
  cases hproblem : s.frameProblem with
  | some c =>
    rw [hproblem] at h
    exact absurd h (next_raiseIn_ne hst _ _)
  | none =>
    rw [hproblem] at h
    obtain ⟨hslices, hemit⟩ := State.sliceOk_of_using_eq_next h
    obtain ⟨-, rfl⟩ | ⟨hroom, -, ht⟩ := State.emit_eq_next hemit
    · exact absurd hst (s.raiseIn_status_ne_zero _ _)
    · exact ⟨rfl, hslices .destination (by simp), hroom, ht⟩

/-! ### `HDEC` -/

/-- `HDEC` past its register test and slice preconditions (R75, R214). -/
theorem exec_hdec {s : State} (heven : s.rnib.toNat % 2 = 0) (hsrc : SourceOk s) (hout : OutputOk s) :
    exec .hdec s = decodeFrame s := by
  change execHdec s = _
  rw [execHdec, isOdd_eq_false_iff.2 heven]
  refine State.using_of_none (fun sl hsl => State.sliceProblem_eq_none_iff_sliceOk.2 ?_) _
  simp only [List.mem_cons, List.not_mem_nil, or_false] at hsl
  obtain rfl | rfl := hsl
  · exact hsrc
  · exact hout

/-- `HDEC` of a slice that ends with the frame of a list completes with the parameters of the frame and the list in the
output (R217). -/
theorem exec_hdec_of_holds {s : State} {f : Byte} {nb : BitVec 32} {init mult : Word} {v : List Word} (hwf : s.mem.wf)
    (heven : s.rnib.toNat % 2 = 0) (hsrc : SourceOk s) (hout : OutputOk s) (hformat : formatProblem f = none)
    (hlength : v.length = nb.toNat) (hnb : nb.toNat ≤ 65535) (hroom : nb.toNat ≤ s.outCap.toNat)
    (hholds : Holds s.mem (s.srcBase.toNat + byteOffset s.rnib)
      (encodeFrame f nb init mult (forwardList .delta 0 (formatOrder f v))))
    (hlen : s.srcLen.toNat = byteOffset s.rnib +
      (encodeFrame f nb init mult (forwardList .delta 0 (formatOrder f v))).length)
    (hapart : Apart s.outBase.toNat (8 * nb.toNat) s.srcBase.toNat s.srcLen.toNat) :
    ∃ t, exec .hdec s = .next t ∧ t.status = 0 ∧ t.outLen.toNat = nb.toNat ∧ t.hfmt = f ∧ t.hnb = nb ∧
      t.hinit = init ∧ t.hmult = mult ∧ t.mem.readElems s.outBase.toNat nb.toNat = v := by
  obtain ⟨i, hcheck, hdeliver, hvalues⟩ :=
    frameCheck_of_holds hholds hformat (by rw [forwardList_length, formatOrder_length, hlength]) hnb hroom
  rw [← hlen] at hcheck
  have hfree : s.writesInto s.outBase.toNat (8 * nb.toNat) .source = false := overlap_eq_false_iff.2 hapart
  obtain ⟨houtLen, helems⟩ := State.commitFrameRead_of_values (i := ⟨f, nb.toNat, init, mult, i⟩) hwf hvalues
    (hdeliver.trans hlength.symm) (by omega)
  rw [hlength] at houtLen helems
  refine ⟨(s.commitFrameRead ⟨f, nb.toNat, init, mult, i⟩).succeed, ?_, rfl, houtLen, rfl, ?_, rfl, rfl, helems⟩
  · rw [exec_hdec heven hsrc hout, decodeFrame, hcheck]
    simp only [hdeliver, hfree]
    rfl
  · exact (BitVec.ofNat_toNat ..).trans (BitVec.setWidth_eq nb)

/-- Settles O47: the frame `HENC` wrote stands in the slice `HDEC` reads, which ends with it. -/
theorem hdecInvertsHenc : Obligations.HdecInvertsHenc := by
  intro s t outBase outCap hwf h hst src u hmem hbase hsrcLen hrnib hOutBase hOutCap hroom hout hapart
  obtain ⟨hproblem, ⟨hspace, hbound⟩, hfits, ht⟩ := exec_henc_completes h hst
  obtain ⟨hnb, hformat⟩ := State.frameProblem_eq_none hproblem
  have hlong : 19 ≤ s.frameBytes.length := (Nat.le_add_right ..).trans_eq (encodeFrame_length ..).symm
  rw [byteOffset] at hfits
  have hstart : byteOffset u.rnib = 0 := by rw [hrnib]; rfl
  have hsrc : u.srcBase.toNat = src := hbase ▸ Nat.mod_eq_of_lt (by omega)
  have hbytes : u.srcLen.toNat = s.frameBytes.length := by
    rw [hsrcLen, ht]
    exact Nat.mod_eq_of_lt (by omega)
  have hwritten : u.mem = s.mem.writeBytes src s.frameBytes := by
    rw [hmem, ht, State.succeed_mem, State.commitFrame_mem, byteOffset]
  have hholds : Holds u.mem (u.srcBase.toNat + byteOffset u.rnib) s.frameBytes := by
    rw [hsrc, hwritten, hstart, Nat.add_zero]
    exact Memory.holds_writeBytes hwf src _
  subst hOutBase hOutCap
  exact exec_hdec_of_holds (hwritten ▸ Memory.writeBytes_wf hwf ..) (by rw [hrnib]; rfl) ⟨by omega, by omega⟩ hout
    hformat (Memory.readElems_length ..) hnb hroom hholds (by rw [hbytes, hstart, Nat.zero_add]; rfl)
    (by rw [hsrc, hsrcLen]; exact hapart)

end Sys2Proof.Machine
end

section
/-! SUPPORT. One step on a write to `CMD` (10_state.md R51, 45_system.md R231): the word is recorded, then executed. -/

namespace Sys2Proof.Machine

/-- Number 34 is the command port (R23, R51). -/
theorem Reg.ofNumber_cmd : Reg.ofNumber 34 = some .cmd := rfl

/-- A write to the command port stores the low 32 bits of the data in `CMD` and nothing else (R22, R51). -/
theorem State.portWrite_cmd (s : State) (d : Word) : s.portWrite 34 d = { s with cmd := d.setWidth 32 } := by
  rw [State.portWrite, Reg.ofNumber_cmd]
  rfl

/-- A write to the command port starts the command in the low 32 bits of the data (R51, R231). -/
theorem HostAction.command_writeCmd (d : Word) : (HostAction.writeReg 34 d).command = some (d.setWidth 32) := by
  rw [HostAction.command, if_pos Reg.ofNumber_cmd]

theorem State.nextAction_of_host {s : State} {a : HostAction} {rest : List HostAction} (h : s.host = a :: rest) :
    s.nextAction = (State.perform { s with host := rest } a, a.command) := by
  rw [State.nextAction, h]

/-- A step on a write to the command port executes the word it has recorded (R231). -/
theorem step_of_writeCmd {s : State} {d : Word} {rest : List HostAction} (h : s.host = .writeReg 34 d :: rest) :
    step s = State.execute { s with host := rest, cmd := d.setWidth 32 } (d.setWidth 32) := by
  rw [step, State.nextAction_of_host h, HostAction.command_writeCmd, State.perform, State.portWrite_cmd]

theorem State.execute_of_decode_ok (s : State) {w : CommandWord} {i : Instr} (h : decode w = .ok i) :
    s.execute w = exec i s := by
  rw [State.execute, h]

theorem State.execute_of_decode_error (s : State) {w : CommandWord} {e : IllegalWord} (h : decode w = .error e) :
    s.execute w = .next s.illegalCommand := by
  rw [State.execute, h]

end Sys2Proof.Machine
end

section
/-! CLAIM. The command port and the system commands (10_state.md section 9, 45_system.md R231 to R233). -/

namespace Sys2Proof.Machine

open Sys2Proof.Safety

/-- Settles O5: the step executes the recorded word, and a legal word executes as the command it stands for. -/
theorem commandWriteRunsDecodedCommand : Obligations.CommandWriteRunsDecodedCommand :=
  fun _ _ _ _ hhost hdecode => (step_of_writeCmd hhost).trans (State.execute_of_decode_ok _ hdecode)

/-- Settles O6: the step executes the recorded word, and an illegal word executes as the error `ILLEGAL_CMD`. -/
theorem illegalWordIsReported : Obligations.IllegalWordIsReported :=
  fun _ _ _ _ hhost hdecode => (step_of_writeCmd hhost).trans (State.execute_of_decode_error _ hdecode)

/-- Settles O14: the word with opcode 0 and every field 0 is the encoding of `NOP` (R101, R105), and `NOP` only
succeeds. -/
theorem nopClearsTheReport : Obligations.NopClearsTheReport := fun _ => ⟨decodeInvertsEncode .nop rfl, rfl⟩

end Sys2Proof.Machine
end

section
/-! CLAIM. Every command ends under the preconditions of its slices (20_memory.md R75, 45_system.md R231,
70_reset_and_hazards.md R277). -/

namespace Sys2Proof.Machine

open Sys2Proof.Safety

/-! ### Bytes written within a slice -/

/-- Bytes written within a run that is apart from a slice lie outside the slice (R75 (c), R277). -/
theorem State.writesInto_eq_false {s : State} {sl : Slice} {base len a n : Nat}
    (hapart : Apart base len (s.extent sl).1 (s.extent sl).2) (hstart : base ≤ a) (hend : a + n ≤ base + len) :
    s.writesInto a n sl = false := by
  rw [State.writesInto, overlap_eq_false_iff]
  unfold Apart at hapart ⊢
  omega

/-! ### One rule per way a command is built -/

/-- The command has ended in a next state, with success or with an error (R231). -/
def Ends (r : Result) : Prop := ∃ t, r = .next t

namespace Ends

theorem next (t : State) : Ends (.next t) := ⟨t, rfl⟩

theorem ite {c : Prop} [Decidable c] {a b : Result} (ha : c → Ends a) (hb : ¬c → Ends b) :
    Ends (if c then a else b) := by
  split
  · exact ha ‹_›
  · exact hb ‹_›

/-- With its slices in order a command goes on (R75 (a), (b)). -/
theorem using_of_sliceOk {s : State} {slices : List Slice} {k : Result} (hslices : ∀ sl ∈ slices, SliceOk s sl)
    (hk : Ends k) : Ends (s.using slices k) := by
  rwa [State.using_of_none fun sl hsl => State.sliceProblem_eq_none_iff_sliceOk.2 (hslices sl hsl)]

/-- The same for a field of nibbles, which uses its slice only if it has nibbles (R137, R138). -/
theorem using_of_field {s : State} {n : NibCount} {sl : Slice} {k : Result} (hsl : SliceOk s sl) (hk : Ends k) :
    Ends (s.using (if n = 0 then [] else [sl]) k) := by
  rwa [State.using_of_field fun _ => hsl]

/-- What fits in the destination slice overlaps no slice that is apart from it (R74, R75 (c)). -/
theorem emit {s onFull commit : State} {values : Slice} {bytes : List Byte}
    (hapart : Apart s.dstBase.toNat s.dstCap.toNat (s.extent values).1 (s.extent values).2) :
    Ends (s.emit values bytes onFull commit) :=
  ite (fun _ => next _) fun hroom => by
    rw [State.writesInto_eq_false hapart (by omega) (by omega)]
    exact next _

end Ends

/-! ### The commands that use slices, along the branches of their definitions -/

section
variable {s : State}

theorem execRdnib_ends (rd : SlotIx) (n : NibCount) (hslices : ∀ sl ∈ slicesUsed (.rdnib rd n), SliceOk s sl) :
    Ends (execRdnib rd n s) :=
  .using_of_field (hslices .source (List.mem_singleton_self _)) (.ite (fun _ => .next _) fun _ => .next _)

theorem execWrnib_ends (rs : SlotIx) (n : NibCount) (hslices : ∀ sl ∈ slicesUsed (.wrnib rs n), SliceOk s sl) :
    Ends (execWrnib rs n s) :=
  .using_of_field (hslices .destination (List.mem_singleton_self _)) (.ite (fun _ => .next _) fun _ => .next _)

theorem execPack_ends (hslices : ∀ sl ∈ slicesUsed .pack, SliceOk s sl) : Ends (execPack s) :=
  .ite (fun _ => .next _) fun _ => .using_of_sliceOk hslices (.ite (fun _ => .next _) fun _ => .next _)

theorem execUnpack_ends (hslices : ∀ sl ∈ slicesUsed .unpack, SliceOk s sl) : Ends (execUnpack s) := by
  refine .ite (fun _ => .next _) fun _ => .using_of_sliceOk hslices ?_
  split
  · exact .next _
  · exact .next _

theorem execPush_ends (rs : SlotIx) (hslices : ∀ sl ∈ slicesUsed (.push rs), SliceOk s sl) : Ends (execPush rs s) := by
  rw [execPush]
  split
  · exact .next _
  · exact .using_of_sliceOk hslices (.ite (fun _ => .next _) fun _ => .next _)

theorem execEncode_ends (hslices : ∀ sl ∈ slicesUsed .encode, SliceOk s sl) (hapart : SlicesApart s .encode) :
    Ends (execEncode s) := by
  refine .ite (fun _ => .next _) fun _ => .ite (fun _ => .next _) fun _ => ?_
  split
  · exact .next _
  · exact .using_of_sliceOk hslices (.emit hapart)

/-- The elements `DECODE` appends fit in the output buffer, which is apart from the source slice (R175). -/
theorem decodeUnder_ends (md : SinkMode) (hapart : SlicesApart s .decode) : Ends (decodeUnder md s) := by
  rw [decodeUnder]
  split
  · exact .next _
  · refine .ite (fun _ => .next _) fun hroom => ?_
    rw [State.writesInto_eq_false hapart (by omega) (by omega)]
    exact .next _

theorem execDecode_ends (hslices : ∀ sl ∈ slicesUsed .decode, SliceOk s sl) (hapart : SlicesApart s .decode) :
    Ends (execDecode s) := by
  refine .ite (fun _ => .next _) fun _ => ?_
  split
  · exact .next _
  · exact .using_of_sliceOk hslices (decodeUnder_ends _ hapart)

theorem execHenc_ends (hslices : ∀ sl ∈ slicesUsed .henc, SliceOk s sl) (hapart : SlicesApart s .henc) :
    Ends (execHenc s) := by
  rw [execHenc]
  split
  · exact .next _
  · exact .using_of_sliceOk hslices (.emit hapart)

/-- The elements `HDEC` delivers fit in the output buffer, which is apart from the source slice (R212). -/
theorem decodeFrame_ends (hapart : SlicesApart s .hdec) : Ends (decodeFrame s) := by
  rw [decodeFrame]
  split
  · exact .next _
  · rename_i i hcheck
    have hroom : i.stream.deliver ≤ s.outCap.toNat := frameCheck_deliver_le hcheck
    rw [State.writesInto_eq_false hapart le_rfl (by omega)]
    exact .next _

theorem execHdec_ends (hslices : ∀ sl ∈ slicesUsed .hdec, SliceOk s sl) (hapart : SlicesApart s .hdec) :
    Ends (execHdec s) :=
  .ite (fun _ => .next _) fun _ => .using_of_sliceOk hslices (decodeFrame_ends hapart)

end

theorem exec_ends {i : Instr} {s : State} (hslices : ∀ sl ∈ slicesUsed i, SliceOk s sl) (hapart : SlicesApart s i) :
    Ends (exec i s) := by
  cases i with
  | nop => exact .next _
  | bitw rd rs => exact .next _
  | zzenc rd rs => exact .next _
  | zzdec rd rs => exact .next _
  | rdnib rd n => exact execRdnib_ends rd n hslices
  | wrnib rs n => exact execWrnib_ends rs n hslices
  | scan => exact .next _
  | pack => exact execPack_ends hslices
  | unpack => exact execUnpack_ends hslices
  | sreset => exact .next _
  | push rs => exact execPush_ends rs hslices
  | encode => exact execEncode_ends hslices hapart
  | decode => exact execDecode_ends hslices hapart
  | henc => exact execHenc_ends hslices hapart
  | hdec => exact execHdec_ends hslices hapart

/-- Settles O54: a command stops short of a next state only at the preconditions of its slices, which hold. -/
theorem everyCommandEnds : Obligations.EveryCommandEnds := fun _ _ => exec_ends

end Sys2Proof.Machine
end

section
/-! CLAIM. The error codes, and what a command that raises changes (60_exceptions.md R241 to R245, 44_histogram.md
R205). -/

namespace Sys2Proof.Machine

open Sys2Proof.Safety

/-! ### The tables name every kind, sub-cause and frame state -/

theorem mem_kindTable (k : ErrorKind) : k ∈ kindTable.map (·.1) := by
  cases k <;> decide

theorem mem_errorTable (c : Subcause) : c ∈ errorTable.map (·.1) := by
  cases c <;> decide

theorem mem_frameStateTable (f : FrameState) : f ∈ frameStateTable.map (·.1) := by
  cases f <;> decide

/-- Settles O48: the codes agree with the finite tables row by row, and the tables are complete. -/
theorem errorAndStateNumbers : Obligations.ErrorAndStateNumbers :=
  ⟨by decide, mem_kindTable, by decide, mem_errorTable, by decide, mem_frameStateTable⟩

/-! ### The ways a command ends -/

/-- The next states in which command `i` can end from `s`: an error reported over `s` itself, by a frame command with the
state of the raising check, or a success, which clears the report (R231, R244). -/
inductive Reports (i : Instr) (s : State) : State → Prop where
  | raise (c : Subcause) : Reports i s (s.raise c)
  | raiseIn (hframe : i = .henc ∨ i = .hdec) (st : FrameState) (c : Subcause) : Reports i s (s.raiseIn st c)
  | succeed (u : State) : Reports i s u.succeed

namespace Reports

variable {i : Instr} {s t : State}

/-- An error leaves everything but `STATUS`, `EINFO` and, of a frame command, `HSTATE` as it was (R245). -/
theorem frame_of_status_ne_zero (h : Reports i s t) (hst : t.status ≠ 0) :
    t = { s with status := t.status, einfo := t.einfo, hstate := t.hstate } ∧
      (i ≠ .henc → i ≠ .hdec → t.hstate = s.hstate) := by
  cases h with
  | raise c => exact ⟨rfl, fun _ _ => rfl⟩
  | raiseIn hframe st c => exact ⟨rfl, fun hhenc hhdec => absurd hframe (not_or_intro hhenc hhdec)⟩
  | succeed u => exact absurd rfl hst

/-- No error has the code of success, so a cleared `STATUS` is that of a success, which clears `EINFO` too. -/
theorem einfo_of_status_eq_zero (h : Reports i s t) (hst : t.status = 0) : t.einfo = 0 := by
  cases h with
  | raise c => exact absurd hst (s.raise_status_ne_zero c)
  | raiseIn _ st c => exact absurd hst (s.raiseIn_status_ne_zero st c)
  | succeed u => rfl

end Reports

/-! ### The commands that can raise, along the branches of their definitions -/

theorem execRdnib_reports (rd : SlotIx) (n : NibCount) (s : State) :
    EndsWith (Reports (.rdnib rd n) s) (execRdnib rd n s) :=
  .of_using (.ite (.next (.raise _)) (.next (.succeed _)))

theorem execWrnib_reports (rs : SlotIx) (n : NibCount) (s : State) :
    EndsWith (Reports (.wrnib rs n) s) (execWrnib rs n s) :=
  .of_using (.ite (.next (.raise _)) (.next (.succeed _)))

theorem execPack_reports (s : State) : EndsWith (Reports .pack s) (execPack s) :=
  .ite (.next (.raise _)) (.of_using (.ite (.next (.raise _)) (.next (.succeed _))))

theorem execUnpack_reports (s : State) : EndsWith (Reports .unpack s) (execUnpack s) := by
  refine .ite (.next (.raise _)) (.of_using ?_)
  split
  · exact .next (.raise _)
  · exact .next (.succeed _)

theorem execPush_reports (rs : SlotIx) (s : State) : EndsWith (Reports (.push rs) s) (execPush rs s) := by
  rw [execPush]
  split
  · exact .next (.raise _)
  · exact .of_using (.ite (.next (.raise _)) (.next (.succeed _)))

theorem execEncode_reports (s : State) : EndsWith (Reports .encode s) (execEncode s) := by
  refine .ite (.next (.raise _)) (.ite (.next (.raise _)) ?_)
  split
  · exact .next (.raise _)
  · exact .of_using (.emit (.raise _) (.succeed _))

theorem decodeUnder_reports (md : SinkMode) (s : State) : EndsWith (Reports .decode s) (decodeUnder md s) := by
  rw [decodeUnder]
  split
  · exact .next (.raise _)
  · exact .ite (.next (.raise _)) (.ite (.refused _ _) (.next (.succeed _)))

theorem execDecode_reports (s : State) : EndsWith (Reports .decode s) (execDecode s) := by
  refine .ite (.next (.raise _)) ?_
  split
  · exact .next (.raise _)
  · exact .of_using (decodeUnder_reports _ s)

theorem execHenc_reports (s : State) : EndsWith (Reports .henc s) (execHenc s) := by
  have hraise (c : Subcause) : Reports .henc s (s.raiseIn .validate c) := .raiseIn (.inl rfl) _ c
  rw [execHenc]
  split
  · exact .next (hraise _)
  · exact .of_using (.emit (hraise _) (.succeed _))

theorem decodeFrame_reports (s : State) : EndsWith (Reports .hdec s) (decodeFrame s) := by
  rw [decodeFrame]
  split
  · exact .next (.raiseIn (.inr rfl) _ _)
  · exact .ite (.refused _ _) (.next (.succeed _))

theorem execHdec_reports (s : State) : EndsWith (Reports .hdec s) (execHdec s) :=
  .ite (.next (.raiseIn (.inr rfl) _ _)) (.of_using (decodeFrame_reports s))

/-- A command writes nothing before its check phase is over: it reports an error over the state it began in, or it
succeeds. -/
theorem exec_reports (i : Instr) (s : State) : EndsWith (Reports i s) (exec i s) := by
  cases i with
  | nop => exact .next (.succeed _)
  | bitw rd rs => exact .next (.succeed _)
  | zzenc rd rs => exact .next (.succeed _)
  | zzdec rd rs => exact .next (.succeed _)
  | rdnib rd n => exact execRdnib_reports rd n s
  | wrnib rs n => exact execWrnib_reports rs n s
  | scan => exact .next (.succeed _)
  | pack => exact execPack_reports s
  | unpack => exact execUnpack_reports s
  | sreset => exact .next (.succeed _)
  | push rs => exact execPush_reports rs s
  | encode => exact execEncode_reports s
  | decode => exact execDecode_reports s
  | henc => exact execHenc_reports s
  | hdec => exact execHdec_reports s

/-- Settles O49: a command ends in an error reported over its first state or in a success. -/
theorem errorsAreAllOrNothing : Obligations.ErrorsAreAllOrNothing := by
  intro i s t h
  have hreports : Reports i s t := exec_reports i s t h
  exact ⟨hreports.frame_of_status_ne_zero, hreports.einfo_of_status_eq_zero⟩

end Sys2Proof.Machine
end

section
/-! SUPPORT. Hardware reset (70_reset_and_hazards.md R271, R272): the registers by name and by number, and the step that
resets. -/

namespace Sys2Proof.Machine

open Sys2Proof.Safety

@[simp] theorem State.slot_reset (r : SlotIx) : State.reset.slot r = 0 := Vector.getElem_replicate _

/-- After reset every register is 0 but `LIMIT` and the constant `CAP` (R272). -/
theorem State.readReg_hardwareReset (s : State) (g : Reg) :
    s.hardwareReset.readReg g =
      if g = .limit then BitVec.allOnes 64 else if g = .cap then (if s.hasXor then 0x0741 else 0x0740) else 0 := by
  cases g with
  | slot r => exact State.slot_reset r
  | cap =>
    change (Config.capConstant s.hasXor).setWidth 64 = if s.hasXor then 0x0741 else 0x0740
    cases s.hasXor <;> rfl
  | _ => rfl

/-- `LIMIT` has number 20 and no other (R23). -/
theorem Reg.ofNumber_eq_limit_iff : ∀ {r : BitVec 6}, Reg.ofNumber r = some .limit ↔ r.toNat = 20 := by decide

/-- `CAP` has number 33 and no other (R23). -/
theorem Reg.ofNumber_eq_cap_iff : ∀ {r : BitVec 6}, Reg.ofNumber r = some .cap ↔ r.toNat = 33 := by decide

/-- After reset the register port answers as R272 lists, and 0 where there is no register (R22). -/
theorem State.portRead_hardwareReset (s : State) (r : BitVec 6) :
    s.hardwareReset.portRead r = resetValue s.hasXor r.toNat := by
  simp only [State.portRead, resetValue, ← Reg.ofNumber_eq_limit_iff, ← Reg.ofNumber_eq_cap_iff]
  cases Reg.ofNumber r with
  | none => rfl
  | some g => simp only [State.readReg_hardwareReset, Option.some.injEq]

/-- A step on an action that starts no command performs the action and nothing else (R7, R231). -/
theorem step_of_no_command {s : State} {a : HostAction} {rest : List HostAction} (h : s.host = a :: rest)
    (hno : a.command = none) : step s = .next (State.perform { s with host := rest } a) := by
  rw [step, State.nextAction_of_host h, hno]

end Sys2Proof.Machine
end

section
/-! CLAIM. What reset leaves in the registers and in memory (70_reset_and_hazards.md R271, R272). -/

namespace Sys2Proof.Machine

/-- Settles O11: the state after reset is its own hardware reset. -/
theorem resetRegisterValues : Obligations.ResetRegisterValues := State.portRead_hardwareReset State.reset

/-- Settles O12: the step performs the reset, which gives the registers their values and leaves the rest. -/
theorem hardwareResetKeepsMemory : Obligations.HardwareResetKeepsMemory := fun _ _ h =>
  ⟨_, step_of_no_command h rfl, rfl, rfl, rfl, State.portRead_hardwareReset _⟩

end Sys2Proof.Machine
end

section
/-! CLAIM. What each command reports right after reset (70_reset_and_hazards.md R273): every slice is empty,
every cursor at its start, every slot 0. -/

namespace Sys2Proof.Machine

open Sys2Proof.Safety

/-! ### The state right after reset -/

/-- Every slice is empty, so it meets R75 (a), (b). -/
theorem sliceOk_reset (sl : Slice) : SliceOk State.reset sl := by
  cases sl <;> decide

theorem State.using_reset (slices : List Slice) (k : Result) : State.reset.using slices k = k :=
  State.using_of_none (fun sl _ => State.sliceProblem_eq_none_iff_sliceOk.2 (sliceOk_reset sl)) k

theorem State.sinkMode_reset : State.reset.sinkMode = some .raw := rfl

/-- Storing 0 in a slot changes nothing. -/
theorem State.x_set_reset (r : SlotIx) {v : Word} (hv : v = 0) :
    State.reset.x.set r.toNat v r.isLt = State.reset.x := by
  subst hv
  ext j hj
  simp [State.reset]

/-! ### The ways a command ends right after reset -/

/-- The command ends with the report of R273 and touches neither memory nor the slots' zeros. -/
def ReportsAfterReset (i : Instr) (r : Result) : Prop :=
  ∃ t, r = .next t ∧ (t.status, t.einfo) = afterReset i ∧ t.mem = State.reset.mem ∧ t.x = State.reset.x

namespace ReportsAfterReset

variable {i : Instr} {r : Result}

theorem raise {c : Subcause} (hr : r = .next (State.reset.raise c)) (h : (c.kind.code, c.code) = afterReset i) :
    ReportsAfterReset i r :=
  ⟨_, hr, h, rfl, rfl⟩

theorem raiseIn {st : FrameState} {c : Subcause} (hr : r = .next (State.reset.raiseIn st c))
    (h : (c.kind.code, c.code) = afterReset i) : ReportsAfterReset i r :=
  ⟨_, hr, h, rfl, rfl⟩

theorem succeed {u : State} (h : (0, 0) = afterReset i) (hmem : u.mem = State.reset.mem) (hx : u.x = State.reset.x) :
    ReportsAfterReset i (.next u.succeed) :=
  ⟨_, rfl, h, hmem, hx⟩

/-- A command whose only result is a 0 in a slot. -/
theorem setSlot {rd : SlotIx} {v : Word} (h : (0, 0) = afterReset i) (hv : v = 0) :
    ReportsAfterReset i (.next (State.reset.setSlot rd v).succeed) :=
  succeed h rfl (State.x_set_reset rd hv)

end ReportsAfterReset

/-! ### The commands, along the branches of their definitions -/

theorem not_toNat_le_zero {n : NibCount} (hn : n ≠ 0) : ¬n.toNat ≤ 0 :=
  fun hle => hn (BitVec.eq_of_toNat_eq (Nat.le_zero.1 hle))

/-- There is no nibble to read (R80, R137). -/
theorem exec_rdnib_reset (rd : SlotIx) {n : NibCount} (hn : n ≠ 0) :
    exec (.rdnib rd n) State.reset = .next (State.reset.raise .truncNib) :=
  (exec_rdnib fun _ => sliceOk_reset .source).trans (if_neg (not_toNat_le_zero hn))

/-- There is no room for a nibble (R80, R138). -/
theorem exec_wrnib_reset (rs : SlotIx) {n : NibCount} (hn : n ≠ 0) :
    exec (.wrnib rs n) State.reset = .next (State.reset.raise .dstFull) :=
  (exec_wrnib fun _ => sliceOk_reset .destination).trans (if_neg (not_toNat_le_zero hn))

/-- A block has two header bytes at least, and there is no room (R113, R155). -/
theorem execPack_reset : execPack State.reset = .next (State.reset.raise .dstFull) := by
  rw [execPack, if_neg (by decide), State.using_reset, if_pos]
  exact Nat.lt_add_left _ (Nat.lt_add_right _ Nat.two_pos)

/-- There is no block header to read (R157). -/
theorem execUnpack_reset : execUnpack State.reset = .next (State.reset.raise .truncBlockHdr) := by
  rw [execUnpack, if_neg (by decide), State.using_reset, checkBlock, if_pos (by decide)]

/-- The output buffer has no free element (R196). -/
theorem execPush_reset (rs : SlotIx) : execPush rs State.reset = .next (State.reset.raise .outFull) := by
  rw [execPush, State.sinkMode_reset]
  dsimp only
  rw [State.using_reset, if_pos (by decide)]

/-- A stream has the four bytes of its count at least, and there is no room (R172). -/
theorem execEncode_reset : execEncode State.reset = .next (State.reset.raise .dstFull) := by
  rw [execEncode, if_neg (by decide), if_neg (by decide), State.sinkMode_reset]
  dsimp only
  rw [State.using_reset, encodeUnder, State.emit, if_pos]
  rw [encodeStream_length]
  exact Nat.lt_add_left _ (Nat.lt_add_right _ (by decide))

/-- There is no count to read (R173). -/
theorem exec_decode_reset : exec .decode State.reset = .next (State.reset.raise .truncCount) := by
  rw [exec_decode rfl State.sinkMode_reset (sliceOk_reset .source) (sliceOk_reset .output), decodeUnder, streamCheck,
    if_pos (by decide)]

/-- `HMULT` is 0, which is not above 1.0 (R209, R210). -/
theorem State.frameProblem_reset : State.reset.frameProblem = some .badMult := by decide

theorem execHenc_reset : execHenc State.reset = .next (State.reset.raiseIn .validate .badMult) := by
  rw [execHenc, State.frameProblem_reset]

/-- There is no format code to read (R212). -/
theorem exec_hdec_reset : exec .hdec State.reset = .next (State.reset.raiseIn .fmt .truncFrameHdr) := by
  rw [exec_hdec rfl (sliceOk_reset .source) (sliceOk_reset .output), decodeFrame, frameCheck, if_pos (by decide)]

/-- Settles O13: the commands that use no slice work on zeros, and an empty slice has no room and nothing to read. -/
theorem outcomesRightAfterReset : Obligations.OutcomesRightAfterReset := by
  intro i
  change ReportsAfterReset i (exec i State.reset)
  cases i with
  | nop => exact .succeed rfl rfl rfl
  | bitw rd rs => exact .setSlot rfl (by rw [State.slot_reset]; rfl)
  | zzenc rd rs => exact .setSlot rfl (by rw [State.slot_reset]; rfl)
  | zzdec rd rs => exact .setSlot rfl (by rw [State.slot_reset]; rfl)
  | rdnib rd n =>
    by_cases hn : n = 0
    · subst hn
      exact .succeed rfl rfl (State.x_set_reset rd rfl)
    · exact .raise (exec_rdnib_reset rd hn) (if_neg hn).symm
  | wrnib rs n =>
    by_cases hn : n = 0
    · subst hn
      exact .succeed rfl rfl rfl
    · exact .raise (exec_wrnib_reset rs hn) (if_neg hn).symm
  | scan => exact .succeed rfl rfl rfl
  | pack => exact .raise execPack_reset rfl
  | unpack => exact .raise execUnpack_reset rfl
  | sreset => exact .succeed rfl rfl rfl
  | push rs => exact .raise (execPush_reset rs) rfl
  | encode => exact .raise execEncode_reset rfl
  | decode => exact .raise exec_decode_reset rfl
  | henc => exact .raiseIn execHenc_reset rfl
  | hdec => exact .raiseIn exec_hdec_reset rfl

end Sys2Proof.Machine
end

section
/-! SUPPORT. How a command ends: past its register tests it asks for its slices (20_memory.md R75, 60_exceptions.md
R246), and it raises or leaves the state of its commit phase (`Commits`). -/

namespace Sys2Proof.Machine

open Sys2Proof.Safety

/-! ### Register tests -/

theorem isOdd_eq_true_iff {c : Word} : isOdd c = true ↔ c.toNat % 2 = 1 := decide_eq_true_iff

theorem mode_cases (m : BitVec 2) : m = 0 ∨ m = 1 ∨ m = 2 ∨ m = 3 := by
  revert m
  decide

/-- `MODE` selects no variant exactly when it is bad (R38, R199). -/
theorem State.sinkMode_eq_none_iff {s : State} : s.sinkMode = none ↔ BadMode s := by
  rw [State.sinkMode, BadMode]
  obtain h | h | h | h := mode_cases s.mode <;> cases s.hasXor <;> simp [h]

/-- A good `MODE` selects the variant whose number it holds (R38). -/
theorem State.sinkMode_of_modeIs {s : State} {md : SinkMode} (hgood : ¬BadMode s) (h : ModeIs s md) :
    s.sinkMode = some md := by
  cases md with
  | raw | delta =>
    rw [ModeIs] at h
    rw [State.sinkMode, h]
    rfl
  | xor =>
    rw [ModeIs] at h
    have hxor : s.hasXor = true := by simpa [BadMode, h] using hgood
    rw [State.sinkMode, h, hxor]
    rfl

theorem State.exists_sinkMode {s : State} (hgood : ¬BadMode s) : ∃ md, s.sinkMode = some md :=
  Option.ne_none_iff_exists'.1 fun h => hgood (State.sinkMode_eq_none_iff.1 h)

theorem greaterThanOne_eq_true_iff {b : Word} :
    greaterThanOne b = true ↔ 0x3FF0000000000000 < b.toNat ∧ b.toNat ≤ 0x7FF0000000000000 := by
  rw [greaterThanOne, Bool.and_eq_true, decide_eq_true_iff, decide_eq_true_iff]
  rfl

theorem greaterThanZero_eq_true_iff {b : Word} :
    greaterThanZero b = true ↔ 0 < b.toNat ∧ b.toNat ≤ 0x7FF0000000000000 := by
  rw [greaterThanZero, Bool.and_eq_true, decide_eq_true_iff, decide_eq_true_iff]
  rfl

/-- The register tests of `HENC`, in the order of R211. -/
theorem State.frameProblem_eq (s : State) :
    s.frameProblem =
      if s.wnib.toNat % 2 = 1 then some .oddCursor
      else if s.hnb.toNat > 65535 then some .hnbOverflow
      else if ¬(0x3FF0000000000000 < s.hmult.toNat ∧ s.hmult.toNat ≤ 0x7FF0000000000000) then some .badMult
      else if ¬(0 < s.hinit.toNat ∧ s.hinit.toNat ≤ 0x7FF0000000000000) then some .badInit
      else if s.hfmt = 3 ∨ s.hfmt = 4 then some .fmtUnimplemented
      else if s.hfmt ≠ 1 ∧ s.hfmt ≠ 2 then some .fmtUnknown else none := by
  simp only [State.frameProblem, formatProblem_eq, isOdd_eq_true_iff, Bool.not_eq_true', ← Bool.not_eq_true,
    greaterThanOne_eq_true_iff, greaterThanZero_eq_true_iff, Config.maxBuckets]

/-- The tests of `HENC` pass exactly when none of them names a problem (R211). -/
theorem State.frameProblem_eq_none_iff {s : State} : s.frameProblem = none ↔ RegisterTestsPass s .henc := by
  rw [State.frameProblem_eq, RegisterTestsPass]
  split_ifs <;> simp <;> grind

/-! ### Staging a block that was read -/

section
variable (s : State) (l : List BlockHeader)

@[simp] theorem State.stageRead_mem : (s.stageRead l).mem = s.mem := by rw [State.stageRead_frame]
@[simp] theorem State.stageRead_outBase : (s.stageRead l).outBase = s.outBase := by rw [State.stageRead_frame]
@[simp] theorem State.stageRead_outCap : (s.stageRead l).outCap = s.outCap := by rw [State.stageRead_frame]
@[simp] theorem State.stageRead_outLen : (s.stageRead l).outLen = s.outLen := by rw [State.stageRead_frame]
@[simp] theorem State.stageRead_acc : (s.stageRead l).acc = s.acc := by rw [State.stageRead_frame]

end

/-! ### Slices -/

/-- With its slices in order a command goes on (R75 (a), (b)). -/
theorem State.using_of_sliceOk {s : State} {slices : List Slice} (h : ∀ sl ∈ slices, SliceOk s sl) (k : Result) :
    s.using slices k = k :=
  State.using_of_none (fun sl hsl => State.sliceProblem_eq_none_iff_sliceOk.2 (h sl hsl)) k

/-- A problem names the slice that has it (U1, U2). -/
theorem State.sliceProblem_eq_some {s : State} {sl : Slice} {r : Refusal} (h : s.sliceProblem sl = some r) :
    (r = .sliceWraps sl ∨ r = .sliceTooLong sl) ∧ ¬SliceOk s sl := by
  refine ⟨?_, fun hok => ?_⟩
  · rw [State.sliceProblem] at h
    split_ifs at h
    · exact .inl (Option.some.inj h).symm
    · exact .inr (Option.some.inj h).symm
  · rw [State.sliceProblem_eq_none_iff_sliceOk.2 hok] at h
    cases h

/-- A refusal comes from a slice with a problem, or, with every slice in order, from what follows. -/
theorem State.using_eq_refused {s : State} {slices : List Slice} {k : Result} {r : Refusal}
    (h : s.using slices k = .refused r) :
    (∃ sl ∈ slices, s.sliceProblem sl = some r) ∨ (∀ sl ∈ slices, SliceOk s sl) ∧ k = .refused r := by
  rw [State.using] at h
  split at h
  · rename_i r' hsome
    cases h
    exact .inl (List.exists_of_findSome?_eq_some hsome)
  · rename_i hnone
    exact .inr ⟨fun sl hsl => State.sliceProblem_eq_none_iff_sliceOk.1 (List.findSome?_eq_none_iff.1 hnone sl hsl), h⟩

/-- A broken slice is refused (U1, U2). -/
theorem State.using_of_not_sliceOk {s : State} {slices : List Slice} {sl : Slice} (hsl : sl ∈ slices)
    (h : ¬SliceOk s sl) (k : Result) : ∃ r, s.using slices k = .refused r := by
  rw [State.using]
  split
  · exact ⟨_, rfl⟩
  · rename_i hnone
    exact absurd (State.sliceProblem_eq_none_iff_sliceOk.1 (List.findSome?_eq_none_iff.1 hnone sl hsl)) h

/-! ### The commands past their register tests -/

section
variable {s : State}

theorem exec_rdnib_of_tests {n : NibCount} (rd : SlotIx) (h : n ≠ 0) :
    exec (.rdnib rd n) s =
      s.using [.source]
        (if n.toNat > s.nibblesToRead then .next (s.raise .truncNib) else .next (s.readField rd n.toNat).succeed) := by
  change execRdnib rd n s = _
  rw [execRdnib, if_neg h]

theorem exec_wrnib_of_tests {n : NibCount} (rs : SlotIx) (h : n ≠ 0) :
    exec (.wrnib rs n) s =
      s.using [.destination]
        (if n.toNat > s.nibblesToWrite then .next (s.raise .dstFull) else .next (s.writeField rs n.toNat).succeed) := by
  change execWrnib rs n s = _
  rw [execWrnib, if_neg h]

theorem exec_pack_of_tests (h : s.wnib.toNat % 2 = 0) :
    exec .pack s =
      s.using [.destination]
        (if byteOffset s.wnib + blockSize (blockNibbles s.x) (zeroMask s.x) > s.dstCap.toNat then
          .next (s.raise .dstFull)
        else .next s.packBlock.succeed) := by
  change execPack s = _
  rw [execPack, isOdd_eq_false_iff.2 h]
  rfl

theorem exec_unpack_of_tests (h : s.rnib.toNat % 2 = 0) :
    exec .unpack s =
      s.using [.source]
        (match checkBlock s.mem s.srcBase.toNat s.srcLen.toNat (byteOffset s.rnib) with
        | .error c => .next (s.raise c)
        | .ok b => .next (s.unpackBlock b).succeed) := by
  change execUnpack s = _
  rw [execUnpack, isOdd_eq_false_iff.2 h]
  rfl

theorem exec_push_of_tests {md : SinkMode} (rs : SlotIx) (hmd : s.sinkMode = some md) :
    exec (.push rs) s =
      s.using [.output]
        (if s.outLen.toNat ≥ s.outCap.toNat then .next (s.raise .outFull)
        else .next (s.sinkPush md (s.slot rs)).succeed) := by
  change execPush rs s = _
  rw [execPush, hmd]

theorem exec_encode_of_tests {md : SinkMode} (heven : s.wnib.toNat % 2 = 0) (hcount : s.valCount.toNat ≤ 2 ^ 32 - 1)
    (hmd : s.sinkMode = some md) :
    exec .encode s = s.using [.streamValues, .destination] (encodeUnder md s) := by
  change execEncode s = _
  rw [execEncode, isOdd_eq_false_iff.2 heven, if_neg Bool.false_ne_true, Config.maxCount, if_neg hcount.not_gt, hmd]

theorem exec_decode_of_tests {md : SinkMode} (heven : s.rnib.toNat % 2 = 0) (hmd : s.sinkMode = some md) :
    exec .decode s = s.using [.source, .output] (decodeUnder md s) := by
  change execDecode s = _
  rw [execDecode, isOdd_eq_false_iff.2 heven, if_neg Bool.false_ne_true, hmd]

theorem exec_henc_of_tests (h : s.frameProblem = none) :
    exec .henc s =
      s.using [.frameValues, .destination]
        (s.emit .frameValues s.frameBytes (s.raiseIn .validate .dstFull) s.commitFrame.succeed) := by
  change execHenc s = _
  rw [execHenc, h]

theorem exec_hdec_of_tests (h : s.rnib.toNat % 2 = 0) : exec .hdec s = s.using [.source, .output] (decodeFrame s) := by
  change execHdec s = _
  rw [execHdec, isOdd_eq_false_iff.2 h, if_neg Bool.false_ne_true]

end

/-! ### What a command commits -/

/-- The state the commit phase of a command leaves, with the tests the command has passed before it. -/
inductive Commits (s : State) : Instr → State → Prop where
  | nop : Commits s .nop s
  | bitw (rd rs : SlotIx) : Commits s (.bitw rd rs) (s.setSlot rd (BitVec.ofNat 64 (bitWidth (s.slot rs))))
  | zzenc (rd rs : SlotIx) : Commits s (.zzenc rd rs) (s.setSlot rd (zigzagEncode (s.slot rs)))
  | zzdec (rd rs : SlotIx) : Commits s (.zzdec rd rs) (s.setSlot rd (zigzagDecode (s.slot rs)))
  | rdnib (rd : SlotIx) (n : NibCount) : Commits s (.rdnib rd n) (s.readField rd n.toNat)
  | wrnib (rs : SlotIx) {n : NibCount} (hok : n ≠ 0 → DestinationOk s) (hroom : n.toNat ≤ s.nibblesToWrite) :
    Commits s (.wrnib rs n) (s.writeField rs n.toNat)
  | scan : Commits s .scan (s.stage s.x (zeroMask s.x) (blockNibbles s.x))
  | pack (hok : DestinationOk s) (hroom : byteOffset s.wnib + (encodeBlock s.x).length ≤ s.dstCap.toNat) :
    Commits s .pack s.packBlock
  | unpack {b : BlockHeader}
    (hcheck : checkBlock s.mem s.srcBase.toNat s.srcLen.toNat (byteOffset s.rnib) = .ok b) :
    Commits s .unpack (s.unpackBlock b)
  | sreset : Commits s .sreset s.resetSink
  | push (rs : SlotIx) (md : SinkMode) (hok : OutputOk s) (hroom : s.outLen.toNat < s.outCap.toNat) :
    Commits s (.push rs) (s.sinkPush md (s.slot rs))
  | encode (list : List Word) (acc : Word) (hok : DestinationOk s)
    (hroom : byteOffset s.wnib + (encodeStream list).length ≤ s.dstCap.toNat) :
    Commits s .encode (s.commitEncoded list (encodeStream list) acc)
  | decode (md : SinkMode) {i : StreamInfo} (hok : OutputOk s)
    (hcheck : streamCheck s.mem s.srcBase.toNat s.srcLen.toNat (byteOffset s.rnib) s.limit.toNat = .ok i)
    (hroom : s.outLen.toNat + i.deliver ≤ s.outCap.toNat) : Commits s .decode (s.commitDecoded md i)
  | henc (hok : DestinationOk s) (hroom : byteOffset s.wnib + s.frameBytes.length ≤ s.dstCap.toNat) :
    Commits s .henc s.commitFrame
  | hdec {i : FrameInfo} (hok : OutputOk s)
    (hcheck : frameCheck s.mem s.srcBase.toNat s.srcLen.toNat (byteOffset s.rnib) s.outCap.toNat = .ok i) :
    Commits s .hdec (s.commitFrameRead i)

/-- The next states in which command `i` can end from `s`: an error over `s` itself, or its commit phase reported as a
success. -/
inductive EndsIn (i : Instr) (s : State) : State → Prop where
  | raise (c : Subcause) : EndsIn i s (s.raise c)
  | raiseIn (st : FrameState) (c : Subcause) : EndsIn i s (s.raiseIn st c)
  | commit {u : State} (h : Commits s i u) : EndsIn i s u.succeed

/-- What follows the preconditions of R75 (a), (b) may rely on them. -/
theorem EndsWith.using_of_sliceOk {P : State → Prop} {s : State} {slices : List Slice} {k : Result}
    (h : (∀ sl ∈ slices, SliceOk s sl) → EndsWith P k) : EndsWith P (s.using slices k) := fun t ht =>
  have ⟨hok, hk⟩ := State.sliceOk_of_using_eq_next ht
  h hok t hk

/-! ### The commands that can raise, along the branches of their definitions -/

section
variable (s : State)

theorem execRdnib_endsIn (rd : SlotIx) (n : NibCount) : EndsWith (EndsIn (.rdnib rd n) s) (execRdnib rd n s) :=
  .of_using (.ite (.next (.raise _)) (.next (.commit (.rdnib rd n))))

theorem execWrnib_endsIn (rs : SlotIx) (n : NibCount) : EndsWith (EndsIn (.wrnib rs n) s) (execWrnib rs n s) :=
  .using_of_sliceOk fun hok => .ite_of (fun _ => .next (.raise _)) fun hroom =>
    .next (.commit (.wrnib rs (fun hn => hok .destination (if_neg hn ▸ List.mem_singleton_self _))
      (Nat.le_of_not_gt hroom)))

theorem execPack_endsIn : EndsWith (EndsIn .pack s) (execPack s) :=
  .ite (.next (.raise _)) (.using_of_sliceOk fun hok => .ite_of (fun _ => .next (.raise _)) fun hroom =>
    .next (.commit (.pack (hok .destination (by simp)) (by rw [encodeBlock_length]; omega))))

theorem execUnpack_endsIn : EndsWith (EndsIn .unpack s) (execUnpack s) := by
  refine .ite (.next (.raise _)) (.of_using ?_)
  split
  · exact .next (.raise _)
  · exact .next (.commit (.unpack ‹_›))

theorem execPush_endsIn (rs : SlotIx) : EndsWith (EndsIn (.push rs) s) (execPush rs s) := by
  rw [execPush]
  split
  · exact .next (.raise _)
  · exact .using_of_sliceOk fun hok => .ite_of (fun _ => .next (.raise _)) fun hroom =>
      .next (.commit (.push rs _ (hok .output (by simp)) (Nat.lt_of_not_ge hroom)))

theorem execEncode_endsIn : EndsWith (EndsIn .encode s) (execEncode s) := by
  refine .ite (.next (.raise _)) (.ite (.next (.raise _)) ?_)
  split
  · exact .next (.raise _)
  · exact .using_of_sliceOk fun hok => .emit_of_room (.raise _) fun hroom =>
      .commit (.encode _ _ (hok .destination (by simp)) hroom)

theorem decodeUnder_endsIn (md : SinkMode) (hok : OutputOk s) : EndsWith (EndsIn .decode s) (decodeUnder md s) := by
  rw [decodeUnder]
  split
  · exact .next (.raise _)
  · exact .ite_of (fun _ => .next (.raise _)) fun hroom =>
      .ite (.refused _ _) (.next (.commit (.decode md hok ‹_› (Nat.le_of_not_gt hroom))))

theorem execDecode_endsIn : EndsWith (EndsIn .decode s) (execDecode s) := by
  refine .ite (.next (.raise _)) ?_
  split
  · exact .next (.raise _)
  · exact .using_of_sliceOk fun hok => decodeUnder_endsIn s _ (hok .output (by simp))

theorem execHenc_endsIn : EndsWith (EndsIn .henc s) (execHenc s) := by
  rw [execHenc]
  split
  · exact .next (.raiseIn _ _)
  · exact .using_of_sliceOk fun hok => .emit_of_room (.raiseIn _ _) fun hroom =>
      .commit (.henc (hok .destination (by simp)) hroom)

theorem decodeFrame_endsIn (hok : OutputOk s) : EndsWith (EndsIn .hdec s) (decodeFrame s) := by
  rw [decodeFrame]
  split
  · exact .next (.raiseIn _ _)
  · exact .ite (.refused _ _) (.next (.commit (.hdec hok ‹_›)))

theorem execHdec_endsIn : EndsWith (EndsIn .hdec s) (execHdec s) :=
  .ite (.next (.raiseIn _ _)) (.using_of_sliceOk fun hok => decodeFrame_endsIn s (hok .output (by simp)))

/-- A command raises an error over its first state, or it commits. -/
theorem exec_endsIn (i : Instr) : EndsWith (EndsIn i s) (exec i s) := by
  cases i with
  | nop => exact .next (.commit .nop)
  | bitw rd rs => exact .next (.commit (.bitw rd rs))
  | zzenc rd rs => exact .next (.commit (.zzenc rd rs))
  | zzdec rd rs => exact .next (.commit (.zzdec rd rs))
  | rdnib rd n => exact execRdnib_endsIn s rd n
  | wrnib rs n => exact execWrnib_endsIn s rs n
  | scan => exact .next (.commit .scan)
  | pack => exact execPack_endsIn s
  | unpack => exact execUnpack_endsIn s
  | sreset => exact .next (.commit .sreset)
  | push rs => exact execPush_endsIn s rs
  | encode => exact execEncode_endsIn s
  | decode => exact execDecode_endsIn s
  | henc => exact execHenc_endsIn s
  | hdec => exact execHdec_endsIn s

end

end Sys2Proof.Machine
end

section
/-! CLAIM. What every step keeps: the machine's invariant (10_state.md R39, R44, R50; 60_exceptions.md R242) and that
memory stays in the address space (20_memory.md R70, R75). -/

namespace Sys2Proof.Machine

open Sys2Proof.Safety

/-! ### One step -/

theorem State.nextAction_of_idle {s : State} (h : s.host = []) : s.nextAction = (s, none) := by
  rw [State.nextAction, h]

/-- Settles O7: with no action there is no command and no change. -/
theorem idleUnitKeepsEverything : Obligations.IdleUnitKeepsEverything := fun s h => by
  rw [step, State.nextAction_of_idle h]

/-- A step on an action that starts a command performs the action, then executes the command (R231). -/
theorem step_of_command {s : State} {a : HostAction} {rest : List HostAction} {w : CommandWord}
    (h : s.host = a :: rest) (hw : a.command = some w) :
    step s = (State.perform { s with host := rest } a).execute w := by
  rw [step, State.nextAction_of_host h, hw]

/-- What every action of the host, every error and every command keeps, every step keeps (R7, R231). -/
theorem step_keeps {P : State → Prop} (hperform : ∀ s rest a, P s → P (State.perform { s with host := rest } a))
    (hraise : ∀ s c, P s → P (s.raise c)) (hexec : ∀ i s, P s → EndsWith P (exec i s)) {s : State} (h : P s) :
    EndsWith P (step s) := by
  cases hhost : s.host with
  | nil =>
    rw [idleUnitKeepsEverything s hhost]
    exact .next h
  | cons a rest =>
    have hnext := hperform s rest a h
    cases hcmd : a.command with
    | none =>
      rw [step_of_no_command hhost hcmd]
      exact .next hnext
    | some w =>
      rw [step_of_command hhost hcmd]
      cases hdecode : decode w with
      | ok i =>
        rw [State.execute_of_decode_ok _ hdecode]
        exact hexec i _ hnext
      | error e =>
        rw [State.execute_of_decode_error _ hdecode]
        exact .next (hraise _ .illegalCmd hnext)

theorem State.portWrite_mem (s : State) (r : BitVec 6) (d : Word) : (s.portWrite r d).mem = s.mem := by
  rw [State.portWrite]
  cases Reg.ofNumber r with
  | none => rfl
  | some g => cases g <;> rfl

/-! ### The invariant -/

/-- The invariant but for the report, which the end of a command writes. -/
structure InvBody (s : State) : Prop where
  memory : s.mem.wf
  width : s.nw.toNat ≤ 16
  frameState : s.hstate.toNat ≤ 8

theorem InvBody.of_inv {s : State} (h : Inv s) : InvBody s := ⟨h.memory, h.width, h.frameState⟩

theorem InvBody.succeed {s : State} (h : InvBody s) : Inv s.succeed :=
  ⟨h.memory, h.width, h.frameState, .inl ⟨rfl, rfl⟩⟩

theorem InvBody.raise {s : State} (h : InvBody s) (c : Subcause) : Inv (s.raise c) :=
  ⟨h.memory, h.width, h.frameState, .inr ⟨c, rfl, rfl⟩⟩

theorem FrameState.code_le (st : FrameState) : st.code.toNat ≤ 8 := by
  cases st <;> decide

theorem InvBody.setFrameState {s : State} (h : InvBody s) (st : FrameState) : InvBody { s with hstate := st.code } :=
  ⟨h.memory, h.width, st.code_le⟩

theorem InvBody.raiseIn {s : State} (h : InvBody s) (st : FrameState) (c : Subcause) : Inv (s.raiseIn st c) :=
  ⟨h.memory, h.width, st.code_le, .inr ⟨c, rfl, rfl⟩⟩

theorem toNat_ofNat_width {n : Nat} (h : n ≤ 16) : (BitVec.ofNat 5 n).toNat = n :=
  Nat.mod_eq_of_lt (by omega)

theorem toNat_ofNat_width_le {n : Nat} (h : n ≤ 16) : (BitVec.ofNat 5 n).toNat ≤ 16 :=
  (toNat_ofNat_width h).trans_le h

theorem InvBody.stage {s : State} (h : InvBody s) (x : Slots) (m : Byte) {n : Nat} (hn : n ≤ 16) :
    InvBody (s.stage x m n) :=
  ⟨h.memory, toNat_ofNat_width_le hn, h.frameState⟩

theorem InvBody.stageWritten {s : State} (h : InvBody s) (t : List Word) : InvBody (s.stageWritten t) := by
  rw [State.stageWritten]
  split
  · exact h.stage _ _ (blockNibbles_le_sixteen _)
  · exact h

theorem InvBody.stageRead {s : State} (h : InvBody s) {l : List BlockHeader} (hl : ∀ b ∈ l, b.n ≤ 16) :
    InvBody (s.stageRead l) := by
  rw [State.stageRead]
  split
  · exact h.stage _ _ (hl _ (List.mem_of_getLast? ‹_›))
  · exact h

theorem InvBody.commitEncoded {s : State} (h : InvBody s) (t : List Word) (bytes : List Byte) (acc : Word) :
    InvBody (s.commitEncoded t bytes acc) :=
  ⟨Memory.writeBytes_wf h.memory _ _, (h.stageWritten t).width, (h.stageWritten t).frameState⟩

theorem InvBody.commitFrame {s : State} (h : InvBody s) : InvBody s.commitFrame := by
  rw [State.commitFrame]
  exact (h.commitEncoded _ _ _).setFrameState .done

theorem InvBody.pushAll {s : State} (h : InvBody s) (md : SinkMode) (l : List Word) : InvBody (s.pushAll md l) := by
  rw [State.pushAll_frame]
  exact ⟨State.pushAll_wf h.memory md l, h.width, h.frameState⟩

theorem InvBody.commitDecoded {s : State} (h : InvBody s) (md : SinkMode) {i : StreamInfo}
    (hi : ∀ b ∈ i.blocks, b.n ≤ 16) : InvBody (s.commitDecoded md i) :=
  have hpush := (h.stageRead hi).pushAll md (streamValues s.mem s.srcBase.toNat i)
  ⟨hpush.memory, hpush.width, hpush.frameState⟩

theorem InvBody.undoOrder {s : State} (h : InvBody s) (f : Byte) (k : Nat) : InvBody (s.undoOrder f k) := by
  rw [State.undoOrder]
  split
  · exact ⟨reverseElems_wf h.memory _ _ _, h.width, h.frameState⟩
  · exact h

theorem InvBody.commitFrameRead {s : State} (h : InvBody s) {i : FrameInfo} (hi : ∀ b ∈ i.stream.blocks, b.n ≤ 16) :
    InvBody (s.commitFrameRead i) :=
  have hreset : InvBody s.resetSink := ⟨h.memory, h.width, h.frameState⟩
  have hundo := (hreset.commitDecoded .delta hi).undoOrder i.format i.stream.deliver
  ⟨hundo.memory, hundo.width, FrameState.code_le .done⟩

/-- Every block of a checked stream has a width of at most 16 nibbles (R173). -/
theorem width_le_of_streamCheck {m : Memory} {base len p lim : Nat} {i : StreamInfo}
    (h : streamCheck m base len p lim = .ok i) : ∀ b ∈ i.blocks, b.n ≤ 16 := by
  obtain ⟨⟨hlen, -, -⟩, -, -, hwalk⟩ := streamCheck_eq_ok_iff.1 h
  obtain ⟨-, hwidth, -⟩ := checkBlocks_ok hlen hwalk
  exact hwidth

/-- A checked frame holds a checked stream, of the declared count, which the output has room for (R212). -/
theorem stream_of_frameCheck {m : Memory} {base len p outCap : Nat} {i : FrameInfo}
    (h : frameCheck m base len p outCap = .ok i) :
    streamCheck m base len (p + 19) (2 ^ 64 - 1) = .ok i.stream ∧ i.stream.count = i.buckets ∧
      i.stream.count ≤ outCap := by
  rw [frameCheckReportsFirstFailure m base len p outCap] at h
  split_ifs at h
  split at h
  · cases h
  · split_ifs at h
    cases h
    exact ⟨‹_›, not_not.1 ‹_›, Nat.le_of_not_gt ‹_›⟩

/-- Every commit phase keeps the invariant but for the report. -/
theorem InvBody.of_commits {i : Instr} {s u : State} (h : InvBody s) (hc : Commits s i u) : InvBody u := by
  cases hc with
  | nop => exact h
  | bitw rd rs => exact ⟨h.memory, h.width, h.frameState⟩
  | zzenc rd rs => exact ⟨h.memory, h.width, h.frameState⟩
  | zzdec rd rs => exact ⟨h.memory, h.width, h.frameState⟩
  | rdnib rd n => exact ⟨h.memory, h.width, h.frameState⟩
  | wrnib rs _ _ => exact ⟨Memory.nibWrite_wf h.memory _ _ _ _, h.width, h.frameState⟩
  | scan => exact h.stage _ _ (blockNibbles_le_sixteen _)
  | pack _ _ =>
    exact ⟨Memory.writeBytes_wf h.memory _ _, toNat_ofNat_width_le (blockNibbles_le_sixteen _), h.frameState⟩
  | unpack hcheck =>
    obtain ⟨-, hwidth, -⟩ := checkBlock_ok hcheck
    exact ⟨h.memory, toNat_ofNat_width_le hwidth, h.frameState⟩
  | sreset => exact ⟨h.memory, h.width, h.frameState⟩
  | push rs md _ _ => exact h.pushAll md [s.slot rs]
  | encode list acc _ _ => exact h.commitEncoded _ _ _
  | decode md _ hcheck _ => exact h.commitDecoded md (width_le_of_streamCheck hcheck)
  | henc _ _ => exact h.commitFrame
  | hdec _ hcheck =>
    obtain ⟨hstream, -, -⟩ := stream_of_frameCheck hcheck
    exact h.commitFrameRead (width_le_of_streamCheck hstream)

theorem inv_exec {s : State} (h : Inv s) (i : Instr) : EndsWith Inv (exec i s) := by
  have hbody := InvBody.of_inv h
  intro t ht
  cases exec_endsIn s i t ht with
  | raise c => exact hbody.raise c
  | raiseIn st c => exact hbody.raiseIn st c
  | commit hc => exact (hbody.of_commits hc).succeed

/-- A host write reaches none of the registers the invariant speaks of: they are read-only (R23). -/
theorem inv_portWrite {s : State} (h : Inv s) (r : BitVec 6) (d : Word) : Inv (s.portWrite r d) := by
  rw [State.portWrite]
  cases Reg.ofNumber r with
  | none => exact h
  | some g => cases g <;> exact ⟨h.memory, h.width, h.frameState, h.report⟩

theorem inv_perform {s : State} (h : Inv s) (rest : List HostAction) (a : HostAction) :
    Inv (State.perform { s with host := rest } a) := by
  have hpop : Inv { s with host := rest } := ⟨h.memory, h.width, h.frameState, h.report⟩
  cases a with
  | readReg r => exact ⟨h.memory, h.width, h.frameState, h.report⟩
  | writeReg r d => exact inv_portWrite hpop r d
  | readMem a => exact ⟨h.memory, h.width, h.frameState, h.report⟩
  | writeMem a b => exact ⟨Memory.write_wf h.memory _ _, h.width, h.frameState, h.report⟩
  | reset => exact ⟨h.memory, Nat.zero_le _, Nat.zero_le _, .inl ⟨rfl, rfl⟩⟩

/-- Settles O58: memory is empty, and the registers the invariant speaks of are 0. -/
theorem resetMeetsInvariant : Obligations.ResetMeetsInvariant :=
  ⟨Memory.wf_nil, Nat.zero_le _, Nat.zero_le _, .inl ⟨rfl, rfl⟩⟩

/-- Settles O59: host actions, errors and commit phases keep the invariant, each along its definition. -/
theorem stepKeepsInvariant : Obligations.StepKeepsInvariant := fun _ t h ht =>
  step_keeps (fun _ rest a h => inv_perform h rest a) (fun _ c h => (InvBody.of_inv h).raise c)
    (fun i _ h => inv_exec h i) h t ht

/-! ### The address space -/

section
variable {m : Memory}

theorem inSpace_write (h : InSpace m) {a : Nat} (ha : a < 2 ^ 64) (v : Byte) : InSpace (m.write a v) := by
  intro d hd
  obtain hd | rfl := Memory.mem_write hd
  · exact h d hd
  · exact ha

theorem inSpace_writeBytes (h : InSpace m) {a : Nat} {l : List Byte} (ha : a + l.length ≤ 2 ^ 64) :
    InSpace (m.writeBytes a l) := by
  induction l generalizing m a with
  | nil => exact h
  | cons b rest ih =>
    rw [List.length_cons] at ha
    exact ih (inSpace_write h (by omega) b) (by omega)

theorem inSpace_writeElem (h : InSpace m) {a : Nat} (ha : a + 8 ≤ 2 ^ 64) (v : Word) : InSpace (m.writeElem a v) :=
  inSpace_writeBytes h (by rwa [leBytes_length])

/-- The nibbles written lie in bytes of the address space, if there are any. -/
theorem inSpace_nibWrite (h : InSpace m) {base q n : Nat} (hq : n ≠ 0 → 2 * base + q + n ≤ 2 * 2 ^ 64) (v : Word) :
    InSpace (m.nibWrite base q n v) := by
  induction n generalizing m q v with
  | zero => exact h
  | succ n ih =>
    have hend := hq n.succ_ne_zero
    exact ih (inSpace_write h (by omega) _) (fun _ => by omega) _

theorem inSpace_swapElems (h : InSpace m) {base n i j : Nat} (hn : base + 8 * n ≤ 2 ^ 64) (hi : i < n) (hj : j < n) :
    InSpace (swapElems m base i j) :=
  inSpace_writeElem (inSpace_writeElem h (by omega) _) (by omega) _

theorem inSpace_reverseElems (h : InSpace m) {base n k : Nat} (hn : base + 8 * n ≤ 2 ^ 64) (hk : k ≤ n) :
    InSpace (reverseElems m base n k) := by
  induction k with
  | zero => exact h
  | succ k ih => exact inSpace_swapElems (ih (by omega)) hn (by omega) (by omega)

/-- Elements pushed into the output buffer lie in the address space with it (R75 (a)). -/
theorem inSpace_pushAll {s : State} (h : InSpace s.mem) (md : SinkMode) {l : List Word} (hok : OutputOk s)
    (hroom : s.outLen.toNat + l.length ≤ s.outCap.toNat) : InSpace (s.pushAll md l).mem := by
  induction l generalizing s with
  | nil => exact h
  | cons v rest ih =>
    rw [List.length_cons] at hroom
    have hcap := s.outCap.isLt
    have hnext : (s.sinkPush md v).outLen.toNat = s.outLen.toNat + 1 := by
      rw [State.sinkPush_outLen]
      exact toNat_cursor_add (n := 1) (by omega)
    have hmem : InSpace (s.sinkPush md v).mem := by
      rw [State.sinkPush_mem]
      exact inSpace_writeElem h (by omega) _
    have houtCap : (s.sinkPush md v).outCap = s.outCap := by rw [State.sinkPush_frame]
    refine ih hmem ?_ ?_
    · rw [OutputOk, State.sinkPush_outBase, houtCap]
      exact hok
    · rw [hnext, houtCap]
      omega

theorem inSpace_commitDecoded {s : State} (h : InSpace s.mem) (md : SinkMode) {i : StreamInfo} (hok : OutputOk s)
    (hroom : s.outLen.toNat + i.deliver ≤ s.outCap.toNat) : InSpace (s.commitDecoded md i).mem := by
  have hlen : (streamValues s.mem s.srcBase.toNat i).length ≤ i.deliver := List.length_take_le _ _
  have hpush : InSpace ((s.stageRead i.blocks).pushAll md (streamValues s.mem s.srcBase.toNat i)).mem :=
    inSpace_pushAll (by rwa [State.stageRead_mem]) md (by simpa using hok)
      (by rw [State.stageRead_outLen, State.stageRead_outCap]; omega)
  exact hpush

theorem inSpace_commitFrameRead {s : State} (h : InSpace s.mem) {i : FrameInfo} (hok : OutputOk s)
    (hroom : i.stream.deliver ≤ s.outCap.toNat) : InSpace (s.commitFrameRead i).mem := by
  have hread : InSpace (s.resetSink.commitDecoded .delta i.stream).mem :=
    inSpace_commitDecoded (s := s.resetSink) h .delta hok ((Nat.zero_add _).trans_le hroom)
  have hundo : InSpace ((s.resetSink.commitDecoded .delta i.stream).undoOrder i.format i.stream.deliver).mem := by
    rw [State.undoOrder]
    split
    · refine inSpace_reverseElems hread ?_ (Nat.div_le_self _ _)
      rw [State.commitDecoded_outBase, State.resetSink_outBase]
      omega
    · exact hread
  exact hundo

/-- Every commit phase writes within a slice that lies in the address space (R75 (a)). -/
theorem inSpace_of_commits {i : Instr} {s u : State} (h : InSpace s.mem) (hc : Commits s i u) : InSpace u.mem := by
  cases hc with
  | nop | bitw | zzenc | zzdec | rdnib | scan | unpack | sreset => exact h
  | wrnib rs hok hroom =>
    rename_i n
    rw [State.nibblesToWrite] at hroom
    refine inSpace_nibWrite h (fun hn => ?_) _
    obtain ⟨hspace, -⟩ := hok fun h0 => hn (by rw [h0]; rfl)
    omega
  | pack hok hroom => exact inSpace_writeBytes h (by omega)
  | push rs md hok hroom => exact inSpace_pushAll h md (l := [s.slot rs]) hok hroom
  | encode list acc hok hroom => exact inSpace_writeBytes h (by omega)
  | decode md hok _ hroom => exact inSpace_commitDecoded h md hok hroom
  | henc hok hroom =>
    rw [State.commitFrame_mem]
    exact inSpace_writeBytes h (by omega)
  | hdec hok hcheck => exact inSpace_commitFrameRead h hok (frameCheck_deliver_le hcheck)

theorem inSpace_exec {s : State} (h : InSpace s.mem) (i : Instr) : EndsWith (fun t => InSpace t.mem) (exec i s) := by
  intro t ht
  cases exec_endsIn s i t ht with
  | raise c => exact h
  | raiseIn st c => exact h
  | commit hc => exact (inSpace_of_commits h hc :)

theorem inSpace_perform {s : State} (h : InSpace s.mem) (rest : List HostAction) (a : HostAction) :
    InSpace (State.perform { s with host := rest } a).mem := by
  cases a with
  | readReg r => exact h
  | writeReg r d => exact (State.portWrite_mem { s with host := rest } r d).symm ▸ h
  | readMem a => exact h
  | writeMem a b => exact inSpace_write h a.isLt b
  | reset => exact h

end

/-- Settles O60: the host's addresses are 64 bits wide, and a commit phase writes within slices of the address space. -/
theorem stepKeepsMemoryInAddressSpace : Obligations.StepKeepsMemoryInAddressSpace := fun _ t h ht =>
  step_keeps (P := fun s => InSpace s.mem) (fun _ rest a h => inSpace_perform h rest a) (fun _ _ h => h)
    (fun i _ h => inSpace_exec h i) h t ht

end Sys2Proof.Machine
end

section
/-! SUPPORT. What the readers of a slice depend on (20_memory.md R71): two memories with the same bytes in a slice read
alike there, nibble by nibble, block by block, as a stream and as a frame. -/

namespace Sys2Proof.Machine

open Sys2Proof.Safety

/-! ### The slots of a block by their number -/

theorem storedBelow_succ (mask : Byte) (j : Nat) :
    storedBelow mask (j + 1) = storedBelow mask j + if mask.getLsbD j then 0 else 1 := by
  rw [storedBelow, storedBelow, List.range_succ, List.filter_append, List.length_append]
  cases h : mask.getLsbD j <;> simp [h]

theorem storedBelow_le {mask : Byte} {j k : Nat} (h : j ≤ k) : storedBelow mask j ≤ storedBelow mask k := by
  induction k, h using Nat.le_induction with
  | base => exact le_rfl
  | succ k _ ih => exact ih.trans ((Nat.le_add_right ..).trans_eq (storedBelow_succ mask k).symm)

/-- A block stores the slots whose mask bit is 0 (R113, R115). -/
theorem storedBelow_eight (mask : Byte) : storedBelow mask 8 = 8 - popcount8 mask := by
  have hsplit := List.length_eq_length_filter_add (l := List.range 8) fun j => mask.getLsbD j
  rw [List.length_range] at hsplit
  rw [storedBelow, popcount8]
  omega

/-- Slot `i` of a block is 0, or its payload follows those of the stored slots below it (R156, R159). -/
theorem getD_decodeSlots (m : Memory) (base n q : Nat) (mask : Byte) {k j i : Nat} (hi : i < k) :
    (decodeSlots m base n mask k j (q + storedBelow mask j * n)).getD i 0 =
      if mask.getLsbD (j + i) then 0
      else BitVec.ofNat 64 (m.nibRead base (q + storedBelow mask (j + i) * n) n) := by
  induction k generalizing j i with
  | zero => cases hi
  | succ k ih =>
    have hnext := storedBelow_succ mask j
    cases i with
    | zero =>
      rw [decodeSlots]
      split
      · exact (if_pos ‹_›).symm
      · exact (if_neg ‹_›).symm
    | succ i =>
      have hrest := ih (j := j + 1) (Nat.lt_of_succ_lt_succ hi)
      rw [hnext] at hrest
      rw [decodeSlots, show j + (i + 1) = j + 1 + i by omega]
      split
      · rename_i hmask
        rw [if_pos hmask, Nat.add_zero] at hrest
        exact hrest
      · rename_i hmask
        rw [if_neg hmask, Nat.succ_mul, ← Nat.add_assoc q] at hrest
        exact hrest

/-- The slots of a decoded block (R156, R159). -/
theorem getElem_decodeBlock_eq (m : Memory) (base : Nat) (b : BlockHeader) (j : Nat) (hj : j < 8) :
    (decodeBlock m base b)[j] =
      if b.mask.getLsbD j then 0
      else BitVec.ofNat 64 (m.nibRead base (2 * (b.start + 2) + storedBelow b.mask j * b.n) b.n) := by
  have h := getD_decodeSlots m base b.n (2 * (b.start + 2)) b.mask (j := 0) hj
  rw [Nat.zero_add, show storedBelow b.mask 0 = 0 from rfl, Nat.zero_mul, Nat.add_zero] at h
  rw [getElem_decodeBlock, h]

/-! ### Readers of a slice -/

/-- Two memories hold the same bytes in the slice of `len` bytes at `base`. -/
def SameSlice (m m' : Memory) (base len : Nat) : Prop := ∀ a, base ≤ a → a < base + len → m'.read a = m.read a

namespace SameSlice

variable {m m' : Memory} {base len : Nat}

theorem read (h : SameSlice m m' base len) {e : Nat} (he : e < len) : m'.read (base + e) = m.read (base + e) :=
  h _ (Nat.le_add_right ..) (Nat.add_lt_add_left he _)

theorem leValue (h : SameSlice m m' base len) {p n : Nat} (hp : p + n ≤ len) :
    Safety.leValue m' (base + p) n = Safety.leValue m (base + p) n := by
  rw [← Memory.readLE_eq_leValue, ← Memory.readLE_eq_leValue]
  exact Memory.readLE_congr fun b hb hb' => h b (by omega) (by omega)

theorem nibRead (h : SameSlice m m' base len) {q n : Nat} (hq : n ≤ 2 * len - q) :
    m'.nibRead base q n = m.nibRead base q n := by
  induction n generalizing q with
  | zero => rfl
  | succ n ih =>
    have hbyte : m'.nibble base q = m.nibble base q := by
      rw [Memory.nibble, Memory.nibble, h.read (by omega)]
    rw [Memory.nibRead, Memory.nibRead, hbyte, ih (by omega)]

theorem checkBlock (h : SameSlice m m' base len) (e : Nat) :
    Machine.checkBlock m' base len e = Machine.checkBlock m base len e := by
  rw [Machine.checkBlock, Machine.checkBlock]
  by_cases he : e + 2 > len
  · rw [if_pos he, if_pos he]
  · rw [Nat.add_assoc base e 1, h.read (by omega), h.read (by omega)]

theorem checkBlocks (h : SameSlice m m' base len) (g e : Nat) :
    Machine.checkBlocks m' base len g e = Machine.checkBlocks m base len g e := by
  induction g generalizing e with
  | zero => rfl
  | succ g ih => simp only [Machine.checkBlocks, h.checkBlock, ih]

theorem streamCheck (h : SameSlice m m' base len) (p lim : Nat) :
    Machine.streamCheck m' base len p lim = Machine.streamCheck m base len p lim := by
  rw [streamCheck_eq, streamCheck_eq]
  by_cases hp : p + 4 > len
  · rw [if_pos hp, if_pos hp]
  · rw [h.leValue (Nat.le_of_not_gt hp), h.checkBlocks]

theorem frameCheck (h : SameSlice m m' base len) (p outCap : Nat) :
    Machine.frameCheck m' base len p outCap = Machine.frameCheck m base len p outCap := by
  rw [frameCheckReportsFirstFailure m', frameCheckReportsFirstFailure m]
  by_cases hformat : p + 1 > len
  · rw [if_pos hformat, if_pos hformat]
  by_cases hheader : p + 19 > len
  · simp only [h.read (show p < len by omega), if_pos hheader]
  · simp only [Nat.add_assoc base p, h.read (show p < len by omega), h.leValue (show p + 1 + 2 ≤ len by omega),
      h.leValue (show p + 3 + 8 ≤ len by omega), h.leValue (show p + 11 + 8 ≤ len by omega), h.streamCheck]

/-- The payload of every stored slot lies in the block, and the block in the slice (R113, R159). -/
theorem decodeBlock (h : SameSlice m m' base len) {b : BlockHeader} (hb : b.Fits len) :
    Machine.decodeBlock m' base b = Machine.decodeBlock m base b := by
  obtain ⟨-, -, hstop⟩ := hb
  rw [BlockHeader.stop, blockSize, ceilDiv, ← storedBelow_eight] at hstop
  refine Vector.ext fun j hj => ?_
  rw [getElem_decodeBlock_eq, getElem_decodeBlock_eq]
  split
  · rfl
  · rename_i hmask
    have hnext := storedBelow_succ b.mask j
    rw [if_neg hmask] at hnext
    have hle : (storedBelow b.mask j + 1) * b.n ≤ storedBelow b.mask 8 * b.n :=
      Nat.mul_le_mul_right _ (hnext ▸ storedBelow_le hj)
    rw [Nat.succ_mul] at hle
    rw [h.nibRead (by omega)]

theorem streamValues (h : SameSlice m m' base len) {i : StreamInfo} (hi : ∀ b ∈ i.blocks, b.Fits len) :
    Machine.streamValues m' base i = Machine.streamValues m base i := by
  have hblocks : (i.blocks.flatMap fun b => (Machine.decodeBlock m' base b).toList) =
      i.blocks.flatMap fun b => (Machine.decodeBlock m base b).toList :=
    List.flatMap_congr fun b hb => by rw [h.decodeBlock (hi b hb)]
  rw [Machine.streamValues, Machine.streamValues, hblocks]

end SameSlice

/-- Every block of a checked stream lies in the slice (R173). -/
theorem fits_of_streamCheck {m : Memory} {base len p lim : Nat} {i : StreamInfo}
    (h : streamCheck m base len p lim = .ok i) : ∀ b ∈ i.blocks, b.Fits len := by
  obtain ⟨-, -, -, hwalk⟩ := streamCheck_eq_ok_iff.1 h
  obtain ⟨-, -, hall⟩ := checkBlocks_eq_ok_iff.1 hwalk
  intro b hb
  obtain ⟨k, hk, rfl⟩ := List.getElem_of_mem hb
  exact (hall k hk).2

/-- The blocks of a checked stream hold as many values as it delivers (R173, R175). -/
theorem streamValues_length {m : Memory} {base len p lim : Nat} {i : StreamInfo}
    (h : streamCheck m base len p lim = .ok i) : (streamValues m base i).length = i.deliver := by
  obtain ⟨-, -, hdeliver, hwalk⟩ := streamCheck_eq_ok_iff.1 h
  obtain ⟨hblocks, -, -⟩ := checkBlocks_eq_ok_iff.1 hwalk
  have hslots : (i.blocks.flatMap fun b => (decodeBlock m base b).toList).length = 8 * i.blocks.length := by
    simp [List.length_flatMap, Nat.mul_comm]
  rw [streamValues, List.length_take, hslots]
  omega

/-- The sink holds the delivered values behind those it held before (R175, R191). -/
theorem State.toNat_commitDecoded_outLen {s : State} {p lim : Nat} {i : StreamInfo} (md : SinkMode)
    (h : streamCheck s.mem s.srcBase.toNat s.srcLen.toNat p lim = .ok i) (hl : s.outLen.toNat + i.deliver < 2 ^ 64) :
    (s.commitDecoded md i).outLen.toNat = s.outLen.toNat + i.deliver := by
  have hlen := streamValues_length h
  have hpush := State.toNat_pushAll_outLen (s := s.stageRead i.blocks) md (l := streamValues s.mem s.srcBase.toNat i)
    (by rwa [State.stageRead_outLen, hlen])
  rw [State.stageRead_outLen, hlen] at hpush
  exact hpush

theorem State.undoOrder_frame (s : State) (f : Byte) (k : Nat) :
    s.undoOrder f k = { s with mem := (s.undoOrder f k).mem } := by
  rw [State.undoOrder]
  split <;> rfl

/-- The commit phase of `HDEC` writes memory, `OUT_LEN`, `ACC`, `RNIB`, the staging registers, the two counts, the
frame's parameters and `HSTATE` only. -/
theorem State.commitFrameRead_frame (s : State) (i : FrameInfo) :
    s.commitFrameRead i =
      { s with
        x := (s.commitFrameRead i).x, zm := (s.commitFrameRead i).zm, nw := (s.commitFrameRead i).nw
        mem := (s.commitFrameRead i).mem, outLen := (s.commitFrameRead i).outLen, acc := (s.commitFrameRead i).acc
        rnib := cursorAt i.stream.stop, hfmt := i.format, hnb := BitVec.ofNat 32 i.buckets, hinit := i.init
        hmult := i.mult, nvals := BitVec.ofNat 64 i.stream.deliver
        nbytes := BitVec.ofNat 64 (i.stream.stop - byteOffset s.rnib), hstate := FrameState.done.code } := by
  simp only [State.commitFrameRead]
  rw [State.undoOrder_frame, State.commitDecoded_frame]
  rfl

theorem State.commitFrameRead_outBase (s : State) (i : FrameInfo) : (s.commitFrameRead i).outBase = s.outBase := by
  rw [State.commitFrameRead_frame]

end Sys2Proof.Machine
end

section
/-! CLAIM. What a decoding command leaves depends on its source slice only (10_state.md R25, 20_memory.md R71, R74). -/

namespace Sys2Proof.Machine

open Sys2Proof.Safety

/-! ### Elements written alike -/

/-- What a byte reads as after an element is stored: its byte of the element, else as before. -/
theorem Memory.read_writeElem {m : Memory} (h : m.wf) (a b : Nat) (v : Word) :
    (m.writeElem a v).read b = if a ≤ b ∧ b < a + 8 then (leBytes v.toNat 8).getD (b - a) 0 else m.read b := by
  rw [Memory.writeElem, Memory.writeLE, Memory.read_writeBytes h, leBytes_length]

namespace SameSlice

variable {m m' : Memory} {base n : Nat}

theorem readElem (h : SameSlice m m' base (8 * n)) {i : Nat} (hi : i < n) :
    m'.readElem (base + 8 * i) = m.readElem (base + 8 * i) :=
  Memory.readElem_congr fun b _ _ => h b (by omega) (by omega)

theorem writeElem (h : SameSlice m m' base n) (hm : m.wf) (hm' : m'.wf) (a : Nat) (v : Word) :
    SameSlice (m.writeElem a v) (m'.writeElem a v) base n := by
  intro b hb hb'
  rw [Memory.read_writeElem hm', Memory.read_writeElem hm, h b hb hb']

theorem swapElems (h : SameSlice m m' base (8 * n)) (hm : m.wf) (hm' : m'.wf) {i j : Nat} (hi : i < n) (hj : j < n) :
    SameSlice (swapElems m base i j) (swapElems m' base i j) base (8 * n) := by
  rw [Machine.swapElems, Machine.swapElems, h.readElem hi, h.readElem hj]
  exact (h.writeElem hm hm' _ _).writeElem (Memory.writeElem_wf hm _ _) (Memory.writeElem_wf hm' _ _) _ _

theorem reverseElems (h : SameSlice m m' base (8 * n)) (hm : m.wf) (hm' : m'.wf) {k : Nat} (hk : k ≤ n) :
    SameSlice (reverseElems m base n k) (reverseElems m' base n k) base (8 * n) := by
  induction k with
  | zero => exact h
  | succ k ih =>
    exact (ih (by omega)).swapElems (reverseElems_wf hm ..) (reverseElems_wf hm' ..) (by omega) (by omega)

end SameSlice

/-! ### States that differ in memory only -/

/-- `s` with other bytes in memory. -/
def State.withMem (s : State) (m : Memory) : State := { s with mem := m }

/-- `t'` is `t` but for memory, and both hold the same output elements from number `first` on. -/
structure SameElements (first : Nat) (t t' : State) : Prop where
  frame : t' = t.withMem t'.mem
  wf : t.mem.wf
  wf' : t'.mem.wf
  elems : SameSlice t.mem t'.mem (t.outBase.toNat + 8 * first) (8 * (t.outLen.toNat - first))

namespace SameElements

variable {first : Nat} {t t' : State}

theorem sinkPush (h : SameElements first t t') (hfirst : first ≤ t.outLen.toNat) (hl : t.outLen.toNat + 1 < 2 ^ 64)
    (md : SinkMode) (v : Word) : SameElements first (t.sinkPush md v) (t'.sinkPush md v) where
  frame := by
    rw [h.frame]
    cases md <;> rfl
  wf := State.sinkPush_wf h.wf md v
  wf' := State.sinkPush_wf h.wf' md v
  elems := by
    have hmem : (t'.sinkPush md v).mem =
        t'.mem.writeElem (t.outBase.toNat + 8 * t.outLen.toNat) (sinkValue md t.acc v) := by
      rw [State.sinkPush_mem, h.frame]
      rfl
    have hnext : (t.outLen + 1).toNat = t.outLen.toNat + 1 := toNat_cursor_add (n := 1) hl
    intro a ha ha'
    rw [State.sinkPush_outBase] at ha ha'
    rw [State.sinkPush_outLen, hnext] at ha'
    rw [hmem, State.sinkPush_mem, Memory.read_writeElem h.wf', Memory.read_writeElem h.wf]
    split
    · rfl
    · exact h.elems a ha (by omega)

theorem pushAll (h : SameElements first t t') (hfirst : first ≤ t.outLen.toNat) (md : SinkMode) {l : List Word}
    (hl : t.outLen.toNat + l.length < 2 ^ 64) : SameElements first (t.pushAll md l) (t'.pushAll md l) := by
  induction l generalizing t t' with
  | nil => exact h
  | cons v rest ih =>
    rw [List.length_cons] at hl
    have hnext : (t.sinkPush md v).outLen.toNat = t.outLen.toNat + 1 := by
      rw [State.sinkPush_outLen]
      exact toNat_cursor_add (n := 1) (by omega)
    exact ih (h.sinkPush hfirst (by omega) md v) (by omega) (by omega)

theorem undoOrder (h : SameElements 0 t t') (f : Byte) {k : Nat} (hk : k = t.outLen.toNat) :
    SameElements 0 (t.undoOrder f k) (t'.undoOrder f k) := by
  subst hk
  have hbase : t'.outBase = t.outBase := by rw [h.frame]; rfl
  rw [State.undoOrder, State.undoOrder]
  split
  · refine ⟨by rw [h.frame]; rfl, reverseElems_wf h.wf .., reverseElems_wf h.wf' .., ?_⟩
    rw [hbase]
    exact h.elems.reverseElems h.wf h.wf' (Nat.div_le_self ..)
  · exact h

end SameElements

section
variable {s : State} {m : Memory}

theorem stageRead_withMem {l : List BlockHeader} (h : SameSlice s.mem m s.srcBase.toNat s.srcLen.toNat)
    (hl : ∀ b ∈ l, b.Fits s.srcLen.toNat) : (s.withMem m).stageRead l = (s.stageRead l).withMem m := by
  rw [State.stageRead, State.stageRead]
  cases hlast : l.getLast? with
  | none => rfl
  | some b =>
    have hblock : decodeBlock (s.withMem m).mem (s.withMem m).srcBase.toNat b = decodeBlock s.mem s.srcBase.toNat b :=
      h.decodeBlock (hl b (List.mem_of_getLast? hlast))
    dsimp only
    rw [hblock]
    rfl

theorem commitDecoded_sameElements (hs : s.mem.wf) (hm : m.wf)
    (h : SameSlice s.mem m s.srcBase.toNat s.srcLen.toNat) (md : SinkMode) {p lim : Nat} {i : StreamInfo}
    (hcheck : streamCheck s.mem s.srcBase.toNat s.srcLen.toNat p lim = .ok i)
    (hl : s.outLen.toNat + i.deliver < 2 ^ 64) :
    SameElements s.outLen.toNat (s.commitDecoded md i) ((s.withMem m).commitDecoded md i) := by
  have hfits := fits_of_streamCheck hcheck
  have hvalues : streamValues (s.withMem m).mem (s.withMem m).srcBase.toNat i =
    streamValues s.mem s.srcBase.toNat i := h.streamValues hfits
  have hstage : SameElements s.outLen.toNat (s.stageRead i.blocks) ((s.stageRead i.blocks).withMem m) := by
    refine ⟨rfl, by rwa [State.stageRead_mem], hm, fun a ha ha' => ?_⟩
    rw [State.stageRead_outLen] at ha'
    omega
  have hpush := hstage.pushAll (by rw [State.stageRead_outLen]) md (l := streamValues s.mem s.srcBase.toNat i)
    (by rwa [State.stageRead_outLen, streamValues_length hcheck])
  rw [State.commitDecoded, State.commitDecoded, hvalues, stageRead_withMem h hfits]
  exact ⟨by rw [hpush.frame]; rfl, hpush.wf, hpush.wf', hpush.elems⟩

theorem commitFrameRead_sameElements (hs : s.mem.wf) (hm : m.wf)
    (h : SameSlice s.mem m s.srcBase.toNat s.srcLen.toNat) {p lim : Nat} {i : FrameInfo}
    (hcheck : streamCheck s.mem s.srcBase.toNat s.srcLen.toNat p lim = .ok i.stream)
    (hl : i.stream.deliver < 2 ^ 64) :
    SameElements 0 (s.commitFrameRead i) ((s.withMem m).commitFrameRead i) := by
  have hempty : s.resetSink.outLen.toNat + i.stream.deliver = i.stream.deliver := Nat.zero_add _
  have hread := commitDecoded_sameElements (s := s.resetSink) hs hm h .delta hcheck (hempty.trans_lt hl)
  have hlen := State.toNat_commitDecoded_outLen (s := s.resetSink) .delta hcheck (hempty.trans_lt hl)
  have hundo := hread.undoOrder i.format (hempty.symm.trans hlen.symm)
  have hreset : (s.withMem m).resetSink = s.resetSink.withMem m := rfl
  rw [State.commitFrameRead, State.commitFrameRead, hreset]
  exact ⟨by rw [hundo.frame]; rfl, hundo.wf, hundo.wf', hundo.elems⟩

end

/-! ### The decoding commands, along the branches of their definitions -/

/-- Two next states of a command from `s` that differ in memory only, and on success hold the same elements from number
`first` on. -/
def SameDecoded (s : State) (first : Nat) (t t' : State) : Prop :=
  t' = t.withMem t'.mem ∧
    (t.status = 0 → ∀ a, s.outBase.toNat + 8 * first ≤ a → a < s.outBase.toNat + 8 * t.outLen.toNat →
      t'.mem.read a = t.mem.read a)

namespace SameDecoded

variable {s t t' : State} {m : Memory} {first : Nat}

theorem raise (c : Subcause) : SameDecoded s first (s.raise c) ((s.withMem m).raise c) :=
  ⟨rfl, fun hst => absurd hst (s.raise_status_ne_zero c)⟩

theorem raiseIn (st : FrameState) (c : Subcause) :
    SameDecoded s first (s.raiseIn st c) ((s.withMem m).raiseIn st c) :=
  ⟨rfl, fun hst => absurd hst (s.raiseIn_status_ne_zero st c)⟩

/-- A command that pushes nothing has no element to compare. -/
theorem of_outLen (h : t' = t.withMem t'.mem) (hlen : t.outLen = s.outLen) :
    SameDecoded s s.outLen.toNat t.succeed t'.succeed := by
  refine ⟨by rw [h]; rfl, fun _ a ha ha' => ?_⟩
  rw [State.succeed_outLen, hlen] at ha'
  omega

theorem of_sameElements (h : SameElements first t t') (hbase : t.outBase = s.outBase) :
    SameDecoded s first t.succeed t'.succeed := by
  refine ⟨by rw [h.frame]; rfl, fun _ a ha ha' => h.elems a (by rwa [hbase]) ?_⟩
  rw [State.succeed_outLen] at ha'
  rw [hbase]
  omega

end SameDecoded

section
variable {s : State} {m : Memory}

theorem sliceProblem_withMem : (s.withMem m).sliceProblem = s.sliceProblem := by
  funext sl
  cases sl <;> rfl

theorem writesInto_withMem (a len : Nat) (sl : Slice) :
    (s.withMem m).writesInto a len sl = s.writesInto a len sl := by
  cases sl <;> rfl

theorem sinkMode_withMem : (s.withMem m).sinkMode = s.sinkMode := rfl

variable (hslice : SameSlice s.mem m s.srcBase.toNat s.srcLen.toNat)
include hslice

theorem execRdnib_withMem (rd : SlotIx) (n : NibCount) :
    EndsAlike (SameDecoded s s.outLen.toNat) (execRdnib rd n s) (execRdnib rd n (s.withMem m)) := by
  refine .of_using sliceProblem_withMem ?_
  rw [show (s.withMem m).nibblesToRead = s.nibblesToRead from rfl]
  by_cases hroom : n.toNat > s.nibblesToRead
  · rw [if_pos hroom, if_pos hroom]
    exact .next (.raise _)
  · have hread : (s.withMem m).mem.nibRead (s.withMem m).srcBase.toNat (s.withMem m).rnib.toNat n.toNat =
      s.mem.nibRead s.srcBase.toNat s.rnib.toNat n.toNat := hslice.nibRead (Nat.le_of_not_gt hroom)
    rw [if_neg hroom, if_neg hroom]
    refine .next (.of_outLen ?_ rfl)
    rw [State.readField, State.readField, hread]
    rfl

theorem execUnpack_withMem :
    EndsAlike (SameDecoded s s.outLen.toNat) (execUnpack s) (execUnpack (s.withMem m)) := by
  have hsame : checkBlock (s.withMem m).mem (s.withMem m).srcBase.toNat (s.withMem m).srcLen.toNat
      (byteOffset (s.withMem m).rnib) =
    checkBlock s.mem s.srcBase.toNat s.srcLen.toNat (byteOffset s.rnib) := hslice.checkBlock _
  refine .ite (.next (.raise _)) (.of_using sliceProblem_withMem ?_)
  rw [hsame]
  cases hcheck : checkBlock s.mem s.srcBase.toNat s.srcLen.toNat (byteOffset s.rnib) with
  | error c => exact .next (.raise c)
  | ok b =>
    obtain ⟨-, hfits⟩ := checkBlock_eq_ok_iff.1 hcheck
    have hblock : decodeBlock (s.withMem m).mem (s.withMem m).srcBase.toNat b = decodeBlock s.mem s.srcBase.toNat b :=
      hslice.decodeBlock hfits
    refine .next (.of_outLen ?_ rfl)
    rw [State.unpackBlock, State.unpackBlock, hblock]
    rfl

variable (hs : s.mem.wf) (hm : m.wf)
include hs hm

theorem decodeUnder_withMem (md : SinkMode) :
    EndsAlike (SameDecoded s s.outLen.toNat) (decodeUnder md s) (decodeUnder md (s.withMem m)) := by
  have hsame : streamCheck (s.withMem m).mem (s.withMem m).srcBase.toNat (s.withMem m).srcLen.toNat
      (byteOffset (s.withMem m).rnib) (s.withMem m).limit.toNat =
    streamCheck s.mem s.srcBase.toNat s.srcLen.toNat (byteOffset s.rnib) s.limit.toNat := hslice.streamCheck _ _
  simp only [decodeUnder, hsame, writesInto_withMem]
  cases hcheck : streamCheck s.mem s.srcBase.toNat s.srcLen.toNat (byteOffset s.rnib) s.limit.toNat with
  | error c => exact .next (.raise c)
  | ok i =>
    by_cases hroom : s.outLen.toNat + i.deliver > s.outCap.toNat
    · simp only [hroom, State.withMem, if_true]
      exact .next (.raise _)
    · simp only [hroom, State.withMem, if_false]
      have hcap := s.outCap.isLt
      exact .ite (.refused _) (.next (.of_sameElements
        (commitDecoded_sameElements hs hm hslice md hcheck (by omega)) (State.commitDecoded_outBase ..)))

theorem execDecode_withMem :
    EndsAlike (SameDecoded s s.outLen.toNat) (execDecode s) (execDecode (s.withMem m)) := by
  refine .ite (.next (.raise _)) ?_
  rw [sinkMode_withMem]
  cases s.sinkMode with
  | none => exact .next (.raise _)
  | some md => exact .of_using sliceProblem_withMem (decodeUnder_withMem hslice hs hm md)

theorem decodeFrame_withMem :
    EndsAlike (SameDecoded s 0) (decodeFrame s) (decodeFrame (s.withMem m)) := by
  have hsame : frameCheck (s.withMem m).mem (s.withMem m).srcBase.toNat (s.withMem m).srcLen.toNat
      (byteOffset (s.withMem m).rnib) (s.withMem m).outCap.toNat =
    frameCheck s.mem s.srcBase.toNat s.srcLen.toNat (byteOffset s.rnib) s.outCap.toNat := hslice.frameCheck _ _
  simp only [decodeFrame, hsame, writesInto_withMem]
  cases hcheck : frameCheck s.mem s.srcBase.toNat s.srcLen.toNat (byteOffset s.rnib) s.outCap.toNat with
  | error e => exact .next (.raiseIn e.1 e.2)
  | ok i =>
    obtain ⟨hstream, -, -⟩ := stream_of_frameCheck hcheck
    have hroom := frameCheck_deliver_le hcheck
    have hcap := s.outCap.isLt
    exact .ite (.refused _) (.next (.of_sameElements
      (commitFrameRead_sameElements hs hm hslice hstream (by omega)) (State.commitFrameRead_outBase ..)))

theorem execHdec_withMem : EndsAlike (SameDecoded s 0) (execHdec s) (execHdec (s.withMem m)) :=
  .ite (.next (.raiseIn _ _)) (.of_using sliceProblem_withMem (decodeFrame_withMem hslice hs hm))

end

/-- Settles O52: the tests of a decoding command and the values it delivers come from reads inside the source slice, and
equal values are stored as equal bytes. -/
theorem decoderResultsDependOnSourceBytesOnly : Obligations.DecoderResultsDependOnSourceBytesOnly := by
  intro i s m hs hm hslice hi
  have h : EndsAlike (SameDecoded s (if i = .hdec then 0 else s.outLen.toNat)) (exec i s)
      (exec i { s with mem := m }) := by
    obtain ⟨rd, n, rfl⟩ | rfl | rfl | rfl := hi
    · exact execRdnib_withMem hslice rd n
    · exact execUnpack_withMem hslice
    · exact execDecode_withMem hslice hs hm
    · exact execHdec_withMem hslice hs hm
  generalize exec i s = r, exec i { s with mem := m } = r' at h ⊢
  cases h with
  | next hsame => exact hsame
  | refused r => rfl

end Sys2Proof.Machine
end

section
/-! CLAIM. The register port (10_state.md R22, R23) and the host's accesses to memory (20_memory.md R70, R84). -/

namespace Sys2Proof.Machine

open Sys2Proof.Safety

/-! ### Registers by name and by number -/

/-- The number of a register (R23). -/
def Reg.number : Reg → Nat
  | .slot r => r.toNat
  | g => 8 + namedRegs.idxOf g

/-- A number names a register exactly when it is the register's number (R23). -/
theorem Reg.ofNumber_eq_some_iff {r : BitVec 6} {g : Reg} : Reg.ofNumber r = some g ↔ r.toNat = g.number := by
  cases g with
  | slot q => revert r q; decide
  | _ => revert r; decide

/-- Numbers that name no register are 35 and above (R22). -/
theorem Reg.ofNumber_eq_none_iff : ∀ {r : BitVec 6}, Reg.ofNumber r = none ↔ 34 < r.toNat := by decide

/-- The slot registers have 64 bits, and the host may write them (R21, R23). -/
theorem portWidth_slot (r : SlotIx) : portWidth (Reg.slot r).number = 64 := by
  revert r
  decide

theorem portWritable_slot (r : SlotIx) : portWritable (Reg.slot r).number = true := by
  revert r
  decide

/-! ### One register read, one register written -/

theorem eq_ofNat_mod (d : Word) : d = BitVec.ofNat 64 (d.toNat % 2 ^ 64) := by
  rw [Nat.mod_eq_of_lt d.isLt, BitVec.ofNat_toNat, BitVec.setWidth_eq]

theorem setWidth_setWidth_eq_ofNat (d : Word) (k : Nat) :
    (d.setWidth k).setWidth 64 = BitVec.ofNat 64 (d.toNat % 2 ^ k) := by
  refine BitVec.eq_of_toNat_eq ?_
  rw [BitVec.toNat_setWidth, BitVec.toNat_setWidth, BitVec.toNat_ofNat]

/-- Reading a register after writing it: the low bits it has, if the host may write it (R22, R23). -/
theorem State.readReg_writeReg_same (s : State) (d : Word) (g : Reg) :
    (s.writeReg d g).readReg g =
      if portWritable g.number = true then BitVec.ofNat 64 (d.toNat % 2 ^ portWidth g.number) else s.readReg g := by
  cases g with
  | slot r =>
    rw [portWritable_slot, portWidth_slot, if_pos rfl, ← eq_ofNat_mod]
    exact s.slot_setSlot_same r d
  | srcBase | srcLen | rnib | dstBase | dstCap | wnib | valBase | valCount | outBase | outCap | acc | limit | hinit
  | hmult => exact eq_ofNat_mod d
  | mode => exact setWidth_setWidth_eq_ofNat d 2
  | hfmt => exact setWidth_setWidth_eq_ofNat d 8
  | hnb => exact setWidth_setWidth_eq_ofNat d 32
  | cmd => exact setWidth_setWidth_eq_ofNat d 32
  | outLen | status | einfo | nvals | nbytes | zm | nw | hstate | cap => rfl

/-- A write changes no register but its own. -/
theorem State.readReg_writeReg_other (s : State) (d : Word) {g q : Reg} (h : q ≠ g) :
    (s.writeReg d g).readReg q = s.readReg q := by
  cases g with
  | slot r =>
    cases q with
    | slot p => exact (s.slot_setSlot r p d).trans (if_neg fun hpr => h (congrArg Reg.slot hpr))
    | _ => rfl
  | _ => cases q <;> first | rfl | exact absurd rfl h

/-- A write to a register changes nothing beside the registers. -/
theorem State.writeReg_frame (s : State) (d : Word) (g : Reg) :
    (s.writeReg d g).host = s.host ∧ (s.writeReg d g).mem = s.mem ∧ (s.writeReg d g).hasXor = s.hasXor ∧
      (s.writeReg d g).hostData = s.hostData := by
  cases g <;> exact ⟨rfl, rfl, rfl, rfl⟩

theorem toNat_setWidth_lt {k : Nat} (x : BitVec k) : (x.setWidth 64).toNat < 2 ^ k := by
  rw [BitVec.toNat_setWidth]
  exact (Nat.mod_le _ _).trans_lt x.isLt

/-- A register reads as a number of its own width (R22, R23). -/
theorem State.readReg_lt (s : State) (g : Reg) : (s.readReg g).toNat < 2 ^ portWidth g.number := by
  cases g with
  | slot r =>
    rw [portWidth_slot]
    exact (s.slot r).isLt
  | srcBase | srcLen | rnib | dstBase | dstCap | wnib | valBase | valCount | outBase | outCap | outLen | acc | limit
  | nvals | nbytes | hinit | hmult => exact BitVec.isLt _
  | mode | status | einfo | zm | nw | hfmt | hnb | hstate | cap | cmd => exact toNat_setWidth_lt _

/-! ### The port -/

theorem State.portRead_of_some {s : State} {r : BitVec 6} {g : Reg} (h : Reg.ofNumber r = some g) :
    s.portRead r = s.readReg g := by
  rw [State.portRead, h]

theorem State.portRead_of_none {s : State} {r : BitVec 6} (h : Reg.ofNumber r = none) : s.portRead r = 0 := by
  rw [State.portRead, h]

theorem State.portWrite_of_some {s : State} {r : BitVec 6} {d : Word} {g : Reg} (h : Reg.ofNumber r = some g) :
    s.portWrite r d = s.writeReg d g := by
  rw [State.portWrite, h]

theorem State.portWrite_of_none {s : State} {r : BitVec 6} {d : Word} (h : Reg.ofNumber r = none) :
    s.portWrite r d = s := by
  rw [State.portWrite, h]

theorem portWritable_le {r : Nat} (h : portWritable r = true) : r ≤ 34 := by
  simp only [portWritable, Bool.or_eq_true, Bool.and_eq_true, decide_eq_true_eq] at h
  omega

/-- The register port after a write through it (R22, R23). -/
theorem State.portRead_portWrite (s : State) (r q : BitVec 6) (d : Word) :
    (s.portWrite r d).portRead q =
      if q = r ∧ portWritable r.toNat = true then BitVec.ofNat 64 (d.toNat % 2 ^ portWidth r.toNat)
      else s.portRead q := by
  cases hr : Reg.ofNumber r with
  | none =>
    have hlarge := Reg.ofNumber_eq_none_iff.1 hr
    rw [State.portWrite_of_none hr, if_neg fun h => (portWritable_le h.2).not_gt hlarge]
  | some g =>
    rw [State.portWrite_of_some hr]
    have hnumber := Reg.ofNumber_eq_some_iff.1 hr
    by_cases hqr : q = r
    · subst hqr
      rw [State.portRead_of_some hr, State.portRead_of_some hr, State.readReg_writeReg_same, hnumber]
      exact if_congr (and_iff_right rfl).symm rfl rfl
    · rw [if_neg fun h => hqr h.1]
      cases hq : Reg.ofNumber q with
      | none => rw [State.portRead_of_none hq, State.portRead_of_none hq]
      | some p =>
        have hpg : p ≠ g := fun h => hqr <| BitVec.eq_of_toNat_eq <| by
          rw [hnumber, Reg.ofNumber_eq_some_iff.1 hq, h]
        rw [State.portRead_of_some hq, State.portRead_of_some hq, State.readReg_writeReg_other s d hpg]

/-- Only number 34 starts a command (R23, R51). -/
theorem HostAction.command_writeReg {r : BitVec 6} (h : r ≠ 34) (d : Word) :
    (HostAction.writeReg r d).command = none := by
  refine if_neg fun hcmd => h (BitVec.eq_of_toNat_eq ?_)
  exact Reg.ofNumber_eq_some_iff.1 hcmd

/-- Settles O8: the step writes the register with that number, if there is one, and a register keeps the low bits it
has. -/
theorem registerPortWrite : Obligations.RegisterPortWrite := by
  intro s r d rest hhost hr
  refine ⟨_, step_of_no_command hhost (HostAction.command_writeReg hr d), ?_⟩
  have hport := State.portRead_portWrite { s with host := rest } r (d := d)
  rw [State.perform]
  cases hreg : Reg.ofNumber r with
  | none =>
    rw [State.portWrite_of_none hreg] at hport ⊢
    exact ⟨rfl, rfl, rfl, rfl, hport⟩
  | some g =>
    rw [State.portWrite_of_some hreg] at hport ⊢
    obtain ⟨hh, hmem, hxor, hdata⟩ := State.writeReg_frame { s with host := rest } d g
    exact ⟨hh, hmem, hxor, hdata, hport⟩

/-- The register map lists the named registers in the order of their numbers (R23). -/
theorem registerMap_eq_map (s : State) : registerMap s = namedRegs.map s.readReg := by
  have hcap : s.cap.setWidth 64 = if s.hasXor then 0x0741 else 0x0740 := by
    rw [State.cap, Config.capConstant]
    cases s.hasXor <;> rfl
  rw [registerMap, ← hcap]
  rfl

/-- A port read by number (R22, R23). -/
theorem State.portRead_eq (s : State) (r : BitVec 6) :
    s.portRead r =
      if h : r.toNat < 8 then s.x[r.toNat] else if r.toNat ≤ 34 then (registerMap s).getD (r.toNat - 8) 0 else 0 := by
  split_ifs with hslot hnamed
  · rw [State.portRead_of_some (if_pos hslot), State.readReg, State.slot]
    have hindex : (r.extractLsb' 0 3).toNat = r.toNat := by
      rw [BitVec.extractLsb'_toNat, Nat.shiftRight_zero]
      exact Nat.mod_eq_of_lt hslot
    simp only [hindex]
  · rw [State.portRead, Reg.ofNumber, if_neg hslot, registerMap_eq_map, List.getD_eq_getElem?_getD, List.getElem?_map]
    cases namedRegs[r.toNat - 8]? <;> rfl
  · exact State.portRead_of_none (Reg.ofNumber_eq_none_iff.2 (Nat.lt_of_not_ge hnamed))

/-- A port read returns a number of the register's width, and 0 where there is none (R22). -/
theorem State.portRead_lt (s : State) (r : BitVec 6) : (s.portRead r).toNat < 2 ^ portWidth r.toNat := by
  cases hr : Reg.ofNumber r with
  | none =>
    rw [State.portRead_of_none hr]
    exact Nat.two_pow_pos _
  | some g =>
    rw [State.portRead_of_some hr, Reg.ofNumber_eq_some_iff.1 hr]
    exact s.readReg_lt g

/-- Settles O9: the number picks a slot register, or one of the register map's list, or none. -/
theorem registerPortRead : Obligations.RegisterPortRead := fun s =>
  ⟨fun _ _ h => step_of_no_command h rfl, s.portRead_eq, s.portRead_lt⟩

/-- Settles O10: the step performs the access, and a write changes one byte of canonical memory. -/
theorem hostMemoryAccess : Obligations.HostMemoryAccess := by
  intro s a b rest hwf
  refine ⟨fun h => step_of_no_command h rfl, fun h => ⟨_, step_of_no_command h rfl, rfl, ?_, fun c hc => ?_⟩⟩
  · exact Memory.read_write_same hwf a.toNat b
  · exact Memory.read_write_other hwf b (by omega)

end Sys2Proof.Machine
end

section
/-! CLAIM. The zig-zag functions and `ZZENC`, `ZZDEC` (40_byteutils.md R133 to R135, 93_implementation_defined.md
G1). -/

namespace Sys2Proof.Machine

open Sys2Proof.Safety

/-! ### The functions -/

/-- A bitwise exclusive or with all zeros or all ones, as R133 uses it. -/
theorem getLsbD_xor_fill (v : Word) (c : Bool) {i : Nat} (hi : i < 64) :
    (v ^^^ if c then BitVec.allOnes 64 else 0).getLsbD i = (v.getLsbD i ^^ c) := by
  cases c with
  | false => simp
  | true => rw [if_pos rfl, BitVec.getLsbD_xor, BitVec.getLsbD_allOnes, decide_eq_true hi]

/-- Encoding moves every bit up by one and the sign to bit 0, and inverts the others of a negative number (R133). -/
theorem getLsbD_zigzagEncode (v : Word) {i : Nat} (hi : i < 64) :
    (zigzagEncode v).getLsbD i = ((decide (i ≠ 0) && v.getLsbD (i - 1)) ^^ v.msb) := by
  rw [zigzagEncode, getLsbD_xor_fill _ _ hi, BitVec.getLsbD_shiftLeft]
  cases i <;> simp [hi]

/-- Decoding moves every bit down by one, and inverts the others when bit 0 is 1 (R133). -/
theorem getLsbD_zigzagDecode (v : Word) {i : Nat} (hi : i < 64) :
    (zigzagDecode v).getLsbD i = (v.getLsbD (i + 1) ^^ v.getLsbD 0) := by
  rw [zigzagDecode, getLsbD_xor_fill _ _ hi, BitVec.getLsbD_ushiftRight, Nat.add_comm]

/-- Decoding puts bit 0 into the sign. -/
theorem msb_zigzagDecode (v : Word) : (zigzagDecode v).msb = v.getLsbD 0 := by
  rw [BitVec.msb_eq_getLsbD_last, getLsbD_zigzagDecode v (by decide), BitVec.getLsbD_of_ge v _ (by decide),
    Bool.false_xor]

theorem zigzagDecode_zigzagEncode (v : Word) : zigzagDecode (zigzagEncode v) = v := by
  refine BitVec.eq_of_getLsbD_eq fun i hi => ?_
  rw [getLsbD_zigzagDecode _ hi, getLsbD_zigzagEncode v (i := 0) (by decide)]
  by_cases hlast : i + 1 < 64
  · rw [getLsbD_zigzagEncode v hlast]
    simp
  · obtain rfl : i = 63 := by omega
    rw [BitVec.getLsbD_of_ge (zigzagEncode v) _ (by decide), BitVec.msb_eq_getLsbD_last]
    simp

theorem zigzagEncode_zigzagDecode (v : Word) : zigzagEncode (zigzagDecode v) = v := by
  refine BitVec.eq_of_getLsbD_eq fun i hi => ?_
  rw [getLsbD_zigzagEncode _ hi, msb_zigzagDecode]
  cases i with
  | zero => simp
  | succ i =>
    rw [Nat.add_sub_cancel, getLsbD_zigzagDecode v (by omega)]
    simp

/-- Settles O17: bit by bit, one function moves every bit up and the other moves it down again. -/
theorem zigzagFunctionsAreInverse : Obligations.ZigzagFunctionsAreInverse := fun v =>
  ⟨zigzagDecode_zigzagEncode v, zigzagEncode_zigzagDecode v⟩

/-- As a number: `2s` for a signed operand `s >= 0`, `-2s - 1` for `s < 0` (R133). -/
theorem toNat_zigzagEncode (v : Word) :
    ((zigzagEncode v).toNat : Int) = if 0 ≤ v.toInt then 2 * v.toInt else -2 * v.toInt - 1 := by
  have hv := v.isLt
  have hdouble : (v <<< 1).toNat = 2 * v.toNat % 2 ^ 64 := by
    rw [BitVec.toNat_shiftLeft, Nat.shiftLeft_eq, Nat.mul_comm]
  cases hsign : v.msb with
  | false =>
    have hlow := BitVec.msb_eq_false_iff_two_mul_lt.1 hsign
    have hint : v.toInt = v.toNat := BitVec.toInt_eq_toNat_of_msb hsign
    have henc : zigzagEncode v = v <<< 1 := by simp [zigzagEncode, hsign]
    rw [henc, hint, if_pos (by omega)]
    omega
  | true =>
    have hhigh := BitVec.msb_eq_true_iff_two_mul_ge.1 hsign
    have hint : v.toInt = v.toNat - 2 ^ 64 := BitVec.toInt_eq_msb_cond v ▸ if_pos hsign
    have henc : zigzagEncode v = ~~~(v <<< 1) := by
      rw [zigzagEncode, if_pos hsign, BitVec.xor_allOnes]
    rw [henc, hint, if_neg (by omega), BitVec.toNat_not]
    omega

/-! ### The commands -/

/-- A command that writes one slot register writes nothing else. -/
theorem slot_succeed_setSlot (s : State) (rd : SlotIx) (v : Word) :
    (∀ r, r ≠ rd → (s.setSlot rd v).succeed.slot r = s.slot r) ∧ (s.setSlot rd v).succeed.slot rd = v := by
  constructor
  · intro r hr
    rw [State.slot_succeed, State.slot_setSlot, if_neg hr]
  · rw [State.slot_succeed, State.slot_setSlot_same]

/-- Settles O18: the one register written is `x[rd]`, with the number the encoded pattern stands for. -/
theorem zzencMapsSignedToUnsigned : Obligations.ZzencMapsSignedToUnsigned := by
  intro s rd rs
  obtain ⟨hother, hsame⟩ := slot_succeed_setSlot s rd (zigzagEncode (s.slot rs))
  refine ⟨decodeInvertsEncode (.zzenc rd rs) rfl, _, rfl, rfl, rfl, rfl, hother, ?_⟩
  rw [hsame]
  exact toNat_zigzagEncode _

/-- Settles O19: encoding the decoded pattern gives the operand back, so it is the operand that the number of the
decoded pattern maps to. -/
theorem zzdecMapsUnsignedToSigned : Obligations.ZzdecMapsUnsignedToSigned := by
  intro s rd rs
  obtain ⟨hother, hsame⟩ := slot_succeed_setSlot s rd (zigzagDecode (s.slot rs))
  refine ⟨decodeInvertsEncode (.zzdec rd rs) rfl, _, rfl, rfl, rfl, rfl, hother, ?_⟩
  have hnumber := toNat_zigzagEncode (zigzagDecode (s.slot rs))
  rw [zigzagEncode_zigzagDecode] at hnumber
  rwa [hsame]

end Sys2Proof.Machine
end

section
/-! CLAIM. The tests of the frame parameters are comparisons of binary64 numbers (44_histogram.md R209,
93_implementation_defined.md G2). -/

namespace Sys2Proof.Machine

open Sys2Proof.Safety

/-- A pattern with sign 0 is its exponent field and its fraction field. -/
theorem toNat_eq_fields {b : Word} (h : b.msb = false) :
    b.toNat = b.toNat / 2 ^ 52 % 2 ^ 11 * 2 ^ 52 + b.toNat % 2 ^ 52 := by
  have hlow := BitVec.msb_eq_false_iff_two_mul_lt.1 h
  omega

/-- The value of a pattern with exponent field `e` and fraction field `f` (R209, G2). -/
def fieldsValue (e f : Nat) : ℚ :=
  if e = 0 then (f : ℚ) / 2 ^ 1074 else ((2 ^ 52 + f : ℕ) : ℚ) * 2 ^ e / 2 ^ 1075

theorem binary64Value_eq (b : Word) :
    binary64Value b = fieldsValue (b.toNat / 2 ^ 52 % 2 ^ 11) (b.toNat % 2 ^ 52) := rfl

/-- A value is positive exactly when a field is not 0. -/
theorem fieldsValue_pos_iff {e f : Nat} : 0 < fieldsValue e f ↔ 0 < e * 2 ^ 52 + f := by
  rw [fieldsValue]
  split
  · rename_i he
    rw [he, div_pos_iff_of_pos_right (by positivity), Nat.cast_pos, Nat.zero_mul, Nat.zero_add]
  · rename_i he
    exact iff_of_true (by positivity) (by omega)

/-- A fraction over a power of two is above 1 exactly when its numerator is above the power. -/
theorem one_lt_mul_pow_div_pow_iff (a e k : Nat) : 1 < (a : ℚ) * 2 ^ e / 2 ^ k ↔ 2 ^ k < a * 2 ^ e := by
  rw [one_lt_div (by positivity)]
  exact_mod_cast Iff.rfl

theorem fraction_div_pow_lt_one {f k : Nat} (hf : f < 2 ^ 52) (hk : 52 ≤ k) : (f : ℚ) / 2 ^ k < 1 := by
  rw [div_lt_one (by positivity)]
  exact_mod_cast hf.trans_le (Nat.pow_le_pow_right Nat.two_pos hk)

/-- With a leading 1 above a fraction of 52 bits, numbers are ordered as their exponents, then as their fractions. -/
theorem pow_lt_mul_pow_iff {e f k : Nat} (hf : f < 2 ^ 52) :
    2 ^ (52 + k) < (2 ^ 52 + f) * 2 ^ e ↔ k * 2 ^ 52 < e * 2 ^ 52 + f := by
  obtain hlt | rfl | hgt := Nat.lt_trichotomy e k
  · refine iff_of_false (Nat.not_lt.2 ?_) (by omega)
    calc (2 ^ 52 + f) * 2 ^ e ≤ 2 ^ 53 * 2 ^ e := Nat.mul_le_mul_right _ (by omega)
      _ = 2 ^ (53 + e) := (Nat.pow_add ..).symm
      _ ≤ 2 ^ (52 + k) := Nat.pow_le_pow_right (by decide) (by omega)
  · rw [Nat.pow_add, Nat.mul_lt_mul_right (Nat.two_pow_pos e)]
    omega
  · refine iff_of_true ?_ (by omega)
    calc 2 ^ (52 + k) < 2 ^ (52 + e) := Nat.pow_lt_pow_right (by decide) (by omega)
      _ = 2 ^ 52 * 2 ^ e := Nat.pow_add ..
      _ ≤ (2 ^ 52 + f) * 2 ^ e := Nat.mul_le_mul_right _ (Nat.le_add_right ..)

/-- A value is above 1 exactly when its exponent field is above that of 1.0, 1023, or equal to it with a fraction that
is not 0. -/
theorem one_lt_fieldsValue_iff {e f : Nat} (hf : f < 2 ^ 52) :
    1 < fieldsValue e f ↔ 1023 * 2 ^ 52 < e * 2 ^ 52 + f := by
  rw [fieldsValue]
  split
  · rename_i he
    rw [he]
    exact iff_of_false (fraction_div_pow_lt_one hf (by decide)).not_gt (by omega)
  · rw [one_lt_mul_pow_div_pow_iff, show 1075 = 52 + 1023 from rfl, pow_lt_mul_pow_iff hf]

/-- Settles O42: a finite pattern is its fields, by which its value is ordered; +infinity is the largest pattern the
tests accept, and the NaNs and the patterns with sign 1 lie above it. -/
theorem floatTestsAreOrderedComparisons : Obligations.FloatTestsAreOrderedComparisons := by
  intro b
  simp only [← Bool.not_eq_true, greaterThanOne_eq_true_iff, greaterThanZero_eq_true_iff]
  refine ⟨fun ⟨hsign, hfinite⟩ => ?_, ?_, fun hout => ?_⟩
  · have hfields := toNat_eq_fields hsign
    have hlow := BitVec.msb_eq_false_iff_two_mul_lt.1 hsign
    rw [binary64Value_eq, one_lt_fieldsValue_iff (Nat.mod_lt _ (by decide)), fieldsValue_pos_iff, ← hfields]
    omega
  · rintro rfl
    decide
  · have habove : 0x7FF0000000000000 < b.toNat := by
      obtain hsign | ⟨hnot, hne⟩ := hout
      · have hhigh := BitVec.msb_eq_true_iff_two_mul_ge.1 hsign
        omega
      · have hinf : b.toNat ≠ 0x7FF0000000000000 := fun h => hne (BitVec.eq_of_toNat_eq h)
        by_contra hle
        have hlow : b.msb = false := BitVec.msb_eq_false_iff_two_mul_lt.2 (by omega)
        exact hnot ⟨hlow, by omega⟩
    omega

end Sys2Proof.Machine
end

section
/-! CLAIM. When a command is refused (20_memory.md R75, 93_implementation_defined.md U1 to U3). -/

namespace Sys2Proof.Machine

open Sys2Proof.Safety

/-! ### Where a refusal comes from -/

/-- What a command does after its slices: it ends, or is refused for an overlap. -/
def RefusesOverlapOnly (k : Result) : Prop := ∀ x, k = .refused x → ∃ a b, x = .slicesOverlap a b

/-- A command ends, or it asks for its slices first and is refused after that only for an overlap. -/
def AsksForSlices (i : Instr) (s : State) (r : Result) : Prop :=
  Ends r ∨ ∃ k, r = s.using (slicesUsed i) k ∧ RefusesOverlapOnly k

namespace RefusesOverlapOnly

theorem next (t : State) : RefusesOverlapOnly (.next t) := by
  rintro _ ⟨⟩

theorem overlap (a b : Slice) : RefusesOverlapOnly (.refused (.slicesOverlap a b)) := by
  rintro _ ⟨⟩
  exact ⟨a, b, rfl⟩

theorem ite {c : Prop} [Decidable c] {a b : Result} (ha : RefusesOverlapOnly a) (hb : RefusesOverlapOnly b) :
    RefusesOverlapOnly (if c then a else b) := by
  split
  · exact ha
  · exact hb

theorem emit (s : State) (values : Slice) (bytes : List Byte) (onFull commit : State) :
    RefusesOverlapOnly (s.emit values bytes onFull commit) :=
  .ite (.next _) (.ite (.overlap _ _) (.next _))

theorem decodeUnder (md : SinkMode) (s : State) : RefusesOverlapOnly (decodeUnder md s) := by
  rw [Machine.decodeUnder]
  split
  · exact .next _
  · exact .ite (.next _) (.ite (.overlap _ _) (.next _))

theorem decodeFrame (s : State) : RefusesOverlapOnly (decodeFrame s) := by
  rw [Machine.decodeFrame]
  split
  · exact .next _
  · exact .ite (.overlap _ _) (.next _)

end RefusesOverlapOnly

namespace AsksForSlices

variable {i : Instr} {s : State}

theorem next (t : State) : AsksForSlices i s (.next t) := .inl (.next t)

theorem ite {c : Prop} [Decidable c] {a b : Result} (ha : AsksForSlices i s a) (hb : AsksForSlices i s b) :
    AsksForSlices i s (if c then a else b) := by
  split
  · exact ha
  · exact hb

theorem slices {k : Result} (h : RefusesOverlapOnly k) : AsksForSlices i s (s.using (slicesUsed i) k) :=
  .inr ⟨k, rfl, h⟩

/-- A field without nibbles asks for no slice (R137, R138). -/
theorem field {n : NibCount} {sl : Slice} {c : Prop} [Decidable c] {a b : State} (hslices : slicesUsed i = [sl]) :
    AsksForSlices i s (s.using (if n = 0 then [] else [sl]) (if c then .next a else .next b)) := by
  split
  · rw [State.using_of_none fun _ h => absurd h List.not_mem_nil]
    exact .ite (.next _) (.next _)
  · rw [← hslices]
    exact .slices (.ite (.next _) (.next _))

end AsksForSlices

/-- Along the branches of the commands' definitions. -/
theorem exec_asksForSlices (i : Instr) (s : State) : AsksForSlices i s (exec i s) := by
  cases i with
  | nop => exact .next _
  | bitw rd rs => exact .next _
  | zzenc rd rs => exact .next _
  | zzdec rd rs => exact .next _
  | scan => exact .next _
  | sreset => exact .next _
  | rdnib rd n => exact .field rfl
  | wrnib rs n => exact .field rfl
  | pack => exact .ite (.next _) (.slices (.ite (.next _) (.next _)))
  | unpack =>
    refine .ite (.next _) (.slices ?_)
    split
    · exact .next _
    · exact .next _
  | push rs =>
    change AsksForSlices _ s (execPush rs s)
    rw [execPush]
    split
    · exact .next _
    · exact .slices (.ite (.next _) (.next _))
  | encode =>
    refine .ite (.next _) (.ite (.next _) ?_)
    split
    · exact .next _
    · exact .slices (.emit _ _ _ _ _)
  | decode =>
    refine .ite (.next _) ?_
    split
    · exact .next _
    · exact .slices (.decodeUnder _ s)
  | henc =>
    change AsksForSlices _ s (execHenc s)
    rw [execHenc]
    split
    · exact .next _
    · exact .slices (.emit _ _ _ _ _)
  | hdec => exact .ite (.next _) (.slices (.decodeFrame s))

/-- Settles O55: a refusal comes from the problem of a slice, or, with every slice in order, from an overlap, and then
the slices are not apart, or the command would have ended. -/
theorem refusalsNameABrokenPrecondition : Obligations.RefusalsNameABrokenPrecondition := by
  intro i s r hrefused
  obtain ⟨t, hnext⟩ | ⟨k, hk, hoverlap⟩ := exec_asksForSlices i s
  · rw [hrefused] at hnext
    cases hnext
  · obtain ⟨sl, hsl, hproblem⟩ | ⟨hok, hkr⟩ := State.using_eq_refused (hk.symm.trans hrefused)
    · exact .inl ⟨sl, hsl, State.sliceProblem_eq_some hproblem⟩
    · refine .inr ⟨hoverlap r hkr, fun hapart => ?_⟩
      obtain ⟨t, hnext⟩ := exec_ends hok hapart
      rw [hrefused] at hnext
      cases hnext

/-! ### What is refused -/

/-- Past its register tests a command asks for its slices. -/
theorem exec_eq_using {i : Instr} {s : State} (h : RegisterTestsPass s i) :
    ∃ k, exec i s = s.using (slicesUsed i) k := by
  cases i with
  | nop | bitw | zzenc | zzdec | scan | sreset => exact ⟨_, rfl⟩
  | rdnib rd n => exact ⟨_, exec_rdnib_of_tests rd h⟩
  | wrnib rs n => exact ⟨_, exec_wrnib_of_tests rs h⟩
  | pack => exact ⟨_, exec_pack_of_tests h⟩
  | unpack => exact ⟨_, exec_unpack_of_tests h⟩
  | push rs =>
    obtain ⟨md, hmd⟩ := State.exists_sinkMode h
    exact ⟨_, exec_push_of_tests rs hmd⟩
  | encode =>
    obtain ⟨heven, hcount, hgood⟩ := h
    obtain ⟨md, hmd⟩ := State.exists_sinkMode hgood
    exact ⟨_, exec_encode_of_tests heven hcount hmd⟩
  | decode =>
    obtain ⟨heven, hgood⟩ := h
    obtain ⟨md, hmd⟩ := State.exists_sinkMode hgood
    exact ⟨_, exec_decode_of_tests heven hmd⟩
  | henc => exact ⟨_, exec_henc_of_tests (State.frameProblem_eq_none_iff.2 h)⟩
  | hdec => exact ⟨_, exec_hdec_of_tests h⟩

/-- Settles O56: past its register tests a command asks for its slices, and the first broken one is refused. -/
theorem brokenSliceIsRefused : Obligations.BrokenSliceIsRefused := by
  intro i s sl hsl hbroken htests
  obtain ⟨k, hk⟩ := exec_eq_using htests
  rw [hk]
  exact State.using_of_not_sliceOk hsl hbroken k

/-- Bytes that are not apart from a slice are written into it (R75 (c)). -/
theorem State.writesInto_eq_true {s : State} {sl : Slice} {a n : Nat}
    (h : ¬Apart a n (s.extent sl).1 (s.extent sl).2) : s.writesInto a n sl = true := by
  rw [State.writesInto, ← Bool.not_eq_false, overlap_eq_false_iff]
  exact h

theorem State.emit_of_overlap {s onFull commit : State} {values : Slice} {bytes : List Byte}
    (hroom : byteOffset s.wnib + bytes.length ≤ s.dstCap.toNat)
    (h : ¬Apart (s.dstBase.toNat + byteOffset s.wnib) bytes.length (s.extent values).1 (s.extent values).2) :
    s.emit values bytes onFull commit = .refused (.slicesOverlap .destination values) := by
  rw [State.emit, if_neg hroom.not_gt, if_pos (State.writesInto_eq_true h)]

/-- A frame delivers all the values its stream declares (R212). -/
theorem deliver_of_frameCheck {m : Memory} {base len p outCap : Nat} {i : FrameInfo}
    (h : frameCheck m base len p outCap = .ok i) : i.stream.deliver = i.stream.count := by
  obtain ⟨hstream, -, -⟩ := stream_of_frameCheck h
  obtain ⟨-, hcount, hdeliver, -⟩ := streamCheck_eq_ok_iff.1 hstream
  have hlt := m.readLE_lt (base + (p + 19)) 4
  rw [Memory.readLE_eq_leValue, ← hcount] at hlt
  rw [hdeliver, ← hcount]
  omega

theorem forall_mem_pair {P : Slice → Prop} {a b : Slice} (ha : P a) (hb : P b) : ∀ sl ∈ [a, b], P sl := by
  simp [ha, hb]

/-- Settles O57: each of the four commands comes to its test of the bytes it would write, and that test fails. -/
theorem overlapIsRefused : Obligations.OverlapIsRefused := by
  intro s
  refine ⟨?_, ?_, ?_, ?_⟩
  · intro md hmd ⟨heven, hcount, hgood⟩ hvalues hdst p bytes hroom hoverlap
    rw [exec_encode_of_tests heven hcount (State.sinkMode_of_modeIs hgood hmd),
      State.using_of_sliceOk (forall_mem_pair hvalues hdst)]
    exact State.emit_of_overlap hroom hoverlap
  · intro htests hvalues hdst p v size hroom hoverlap
    have hsize : s.frameBytes.length = size := encodeFrame_length ..
    rw [exec_henc_of_tests (State.frameProblem_eq_none_iff.2 htests),
      State.using_of_sliceOk (forall_mem_pair hvalues hdst)]
    exact State.emit_of_overlap (hsize ▸ hroom) (hsize ▸ hoverlap)
  · intro ⟨heven, hgood⟩ hsrc hout i hcheck hroom hoverlap
    obtain ⟨md, hmd⟩ := State.exists_sinkMode hgood
    have hinto : s.writesInto (s.outBase.toNat + 8 * s.outLen.toNat) (8 * i.deliver) .source = true :=
      State.writesInto_eq_true hoverlap
    rw [exec_decode heven hmd hsrc hout, decodeUnder, byteOffset, hcheck]
    exact (if_neg hroom.not_gt).trans (if_pos hinto)
  · intro heven hsrc hout i hcheck hoverlap
    rw [← deliver_of_frameCheck hcheck] at hoverlap
    rw [exec_hdec heven hsrc hout, decodeFrame, byteOffset, hcheck]
    exact if_pos (State.writesInto_eq_true (sl := .source) hoverlap)

end Sys2Proof.Machine
end

section
/-! CLAIM. `PACK` and `UNPACK` (41_nibblepack_block.md R155 to R159). -/

namespace Sys2Proof.Machine

open Sys2Proof.Safety

/-! ### Cursors -/

/-- A cursor holds every byte offset in a slice that meets R75 (b) (R80). -/
theorem toNat_cursorAt {p : Nat} (h : p ≤ 2 ^ 63 - 1) : (cursorAt p).toNat = 2 * p :=
  Nat.mod_eq_of_lt (by omega)

theorem forall_mem_single {P : Slice → Prop} {a : Slice} (ha : P a) : ∀ sl ∈ [a], P sl := by
  simp [ha]

/-! ### `PACK` -/

/-- `PACK` past its register test and slice preconditions (R75, R155). -/
theorem exec_pack {s : State} (heven : s.wnib.toNat % 2 = 0) (hdst : DestinationOk s) :
    exec .pack s =
      if byteOffset s.wnib + (encodeBlock s.x).length > s.dstCap.toNat then .next (s.raise .dstFull)
      else .next s.packBlock.succeed := by
  rw [exec_pack_of_tests heven, State.using_of_sliceOk (forall_mem_single hdst), encodeBlock_length]

/-- Settles O27: after its two tests the commit phase writes the bytes of the block at the cursor. -/
theorem packWritesBlock : Obligations.PackWritesBlock := by
  intro s hwf
  refine ⟨decodeInvertsEncode .pack rfl, ?_⟩
  by_cases hodd : s.wnib.toNat % 2 = 1
  · rw [if_pos hodd]
    exact if_pos (isOdd_eq_true_iff.2 hodd)
  rw [if_neg hodd]
  intro hdst
  have hexec := exec_pack (Nat.mod_two_ne_one.1 hodd) hdst
  split_ifs with hfull
  · exact hexec.trans (if_pos hfull)
  obtain ⟨-, hbound⟩ := hdst
  refine ⟨_, hexec.trans (if_neg hfull), rfl, rfl, rfl, ?_, isZeroMask_zeroMask s.x, ?_, ?_, ?_⟩
  · rw [State.succeed_wnib, State.packBlock_wnib, ← encodeBlock_length]
    exact toNat_cursorAt (Nat.le_trans (Nat.le_of_not_gt hfull) hbound)
  · rw [State.succeed_nw, State.packBlock_nw, toNat_ofNat_blockNibbles]
    exact isBlockNibbles_blockNibbles s.x
  · exact Memory.holds_writeBytes hwf _ _
  · exact fun _ hb => Memory.read_writeBytes_outside hwf hb

/-! ### `UNPACK` -/

/-- `UNPACK` past its register test and slice precondition: the three tests of R157, then the commit phase on the
block's header (R75, R157). -/
theorem exec_unpack {s : State} (heven : s.rnib.toNat % 2 = 0) (hsrc : SourceOk s) :
    let b := headerAt s.mem s.srcBase.toNat (s.rnib.toNat / 2)
    exec .unpack s =
      if b.start + 2 > s.srcLen.toNat then .next (s.raise .truncBlockHdr)
      else if b.n > 16 then .next (s.raise .badWidth)
      else if b.stop > s.srcLen.toNat then .next (s.raise .truncPayload)
      else .next (s.unpackBlock b).succeed := by
  intro b
  have hcheck : checkBlock s.mem s.srcBase.toNat s.srcLen.toNat (byteOffset s.rnib) =
      if b.start + 2 > s.srcLen.toNat then .error .truncBlockHdr
      else if b.n > 16 then .error .badWidth
      else if b.stop > s.srcLen.toNat then .error .truncPayload else .ok b := rfl
  rw [exec_unpack_of_tests heven, State.using_of_sliceOk (forall_mem_single hsrc), hcheck]
  split_ifs <;> rfl

/-- The number in a slot of a decoded block (R156, R159). -/
theorem toNat_getElem_decodeBlock (m : Memory) (base : Nat) {b : BlockHeader} (hn : b.n ≤ 16) (j : Fin 8) :
    (decodeBlock m base b)[j].toNat =
      if b.mask.getLsbD j then 0
      else m.nibRead base (2 * (b.start + 2) + storedBelow b.mask j * b.n) b.n := by
  rw [Fin.getElem_fin, getElem_decodeBlock_eq]
  split
  · rfl
  · rw [BitVec.toNat_ofNat, Nat.mod_eq_of_lt]
    exact (Memory.nibRead_lt ..).trans_le (Nat.pow_le_pow_right (by decide) hn)

/-- Settles O29: the three tests are those of the walk over one block, and the commit phase decodes the block they
accept. -/
theorem unpackReadsBlock : Obligations.UnpackReadsBlock := by
  intro s
  refine ⟨decodeInvertsEncode .unpack rfl, ?_⟩
  intro p n mask
  by_cases hodd : s.rnib.toNat % 2 = 1
  · rw [if_pos hodd]
    exact if_pos (isOdd_eq_true_iff.2 hodd)
  rw [if_neg hodd]
  intro hsrc
  have hexec := exec_unpack (Nat.mod_two_ne_one.1 hodd) hsrc
  split_ifs with hheader hwidth hpayload
  · exact hexec.trans (if_pos hheader)
  · exact hexec.trans ((if_neg hheader).trans (if_pos hwidth))
  · exact hexec.trans ((if_neg hheader).trans ((if_neg hwidth).trans (if_pos hpayload)))
  obtain ⟨-, hbound⟩ := hsrc
  refine ⟨_, hexec.trans ((if_neg hheader).trans ((if_neg hwidth).trans (if_neg hpayload))), rfl, rfl, rfl, ?_, ?_,
    fun j => toNat_getElem_decodeBlock s.mem s.srcBase.toNat (Nat.le_of_not_gt hwidth) j⟩
  · exact toNat_ofNat_width (Nat.le_of_not_gt hwidth)
  · exact toNat_cursorAt ((Nat.le_of_not_gt hpayload).trans hbound)

end Sys2Proof.Machine
end

section
/-! CLAIM. `PUSH` (43_sink.md R191, R192, R196). -/

namespace Sys2Proof.Machine

open Sys2Proof.Safety

/-- `PUSH` past its register test and slice precondition (R75, R196). -/
theorem exec_push {s : State} {md : SinkMode} (rs : SlotIx) (hmd : s.sinkMode = some md) (hout : OutputOk s) :
    exec (.push rs) s =
      if s.outLen.toNat ≥ s.outCap.toNat then .next (s.raise .outFull)
      else .next (s.sinkPush md (s.slot rs)).succeed := by
  rw [exec_push_of_tests rs hmd, State.using_of_sliceOk (forall_mem_single hout)]

/-- A variant that keeps an accumulator appends it (R192). -/
theorem sinkValue_eq (s : State) (md : SinkMode) (v : Word) :
    sinkValue md s.acc v = if md = .raw then v else (s.sinkPush md v).acc := by
  cases md <;> rfl

/-- Settles O40: with a free element the commit phase stores the pushed value, little-endian, behind the last. -/
theorem pushAppendsOneElement : Obligations.PushAppendsOneElement := by
  intro s rs hwf
  refine ⟨decodeInvertsEncode (.push rs) rfl, ?_⟩
  by_cases hbad : BadMode s
  · rw [if_pos hbad]
    change execPush rs s = _
    rw [execPush, State.sinkMode_eq_none_iff.2 hbad]
    rfl
  rw [if_neg hbad]
  intro md hmode hout
  have hexec := exec_push rs (State.sinkMode_of_modeIs hbad hmode) hout
  by_cases hfull : s.outLen.toNat ≥ s.outCap.toNat
  · rw [if_pos hfull]
    exact hexec.trans (if_pos hfull)
  rw [if_neg hfull]
  have hmem := s.sinkPush_mem md (s.slot rs)
  rw [sinkValue_eq] at hmem
  refine ⟨_, hexec.trans (if_neg hfull), rfl, rfl, ?_, ?_, s.sinkPush_acc md _, ?_, ?_, fun b hb => ?_⟩
  · rw [State.sinkPush_frame]
    rfl
  · rw [State.succeed_outLen, State.sinkPush_outLen]
    exact toNat_cursor_add (n := 1) (by omega)
  · rw [State.succeed_mem, hmem, Memory.readElem_writeElem hwf]
    rfl
  · rw [State.succeed_mem, hmem, ← leBytes_eq_leByteList]
    exact Memory.holds_writeBytes hwf _ _
  · rw [State.succeed_mem, hmem, Memory.read_writeElem_outside hwf hb]

end Sys2Proof.Machine
end

section
/-! SUPPORT. What the encoding commands leave (42_nibblepack_stream.md R172, 44_histogram.md R211): the bytes at the
write cursor, the counts and the last group in the slot registers. -/

namespace Sys2Proof.Machine

open Sys2Proof.Safety

/-- The last group of a list holds its last value (R170). -/
theorem getLast?_streamGroups (t : List Word) :
    (streamGroups t).getLast? = if t.length = 0 then none else some (groupAt t ((t.length - 1) / 8)) := by
  rw [streamGroups_eq_map, List.getLast?_map, List.getLast?_range]
  split_ifs with hgroups hempty hempty
  · rfl
  · omega
  · omega
  · rw [Option.map_some]
    congr 2
    omega

/-- The staging registers of `t` hold the last group of `list`, or those of `s` where there is none (R57). -/
abbrev StagesLastGroup (s t : State) (list : List Word) : Prop :=
  if list.length = 0 then t.x = s.x ∧ t.zm = s.zm ∧ t.nw = s.nw
  else t.x = groupAt list ((list.length - 1) / 8) ∧ IsZeroMask t.x t.zm ∧ IsBlockNibbles t.x t.nw.toNat

theorem State.stageWritten_stages (s : State) (list : List Word) : StagesLastGroup s (s.stageWritten list) list := by
  rw [StagesLastGroup, State.stageWritten, getLast?_streamGroups]
  split_ifs
  · exact ⟨rfl, rfl, rfl⟩
  · refine ⟨rfl, isZeroMask_zeroMask _, ?_⟩
    rw [State.stage_nw, State.stage_x, toNat_ofNat_blockNibbles]
    exact isBlockNibbles_blockNibbles _

/-- What the commit phase of an encoder leaves in memory and in its result registers, where the destination has room
(R74, R172). -/
theorem State.commitEncoded_writes {s : State} (hwf : s.mem.wf) {bytes : List Byte} (hdst : DestinationOk s)
    (hroom : byteOffset s.wnib + bytes.length ≤ s.dstCap.toNat) (list : List Word) (acc : Word) :
    let t := s.commitEncoded list bytes acc
    let a := s.dstBase.toNat + byteOffset s.wnib
    t.wnib.toNat = 2 * (byteOffset s.wnib + bytes.length) ∧ t.nbytes.toNat = bytes.length ∧ Holds t.mem a bytes ∧
      SameOutside s.mem t.mem a bytes.length ∧ StagesLastGroup s t list := by
  obtain ⟨-, hbound⟩ := hdst
  refine ⟨toNat_cursorAt (hroom.trans hbound), Nat.mod_eq_of_lt (by omega), ?_, fun _ hb => ?_,
    s.stageWritten_stages list⟩
  · exact Memory.holds_writeBytes hwf _ _
  · exact Memory.read_writeBytes_outside hwf hb

theorem State.emit_of_full {s onFull commit : State} {values : Slice} {bytes : List Byte}
    (h : byteOffset s.wnib + bytes.length > s.dstCap.toNat) :
    s.emit values bytes onFull commit = .next onFull :=
  if_pos h

theorem State.emit_of_apart {s onFull commit : State} {values : Slice} {bytes : List Byte}
    (hroom : ¬byteOffset s.wnib + bytes.length > s.dstCap.toNat)
    (h : Apart (s.dstBase.toNat + byteOffset s.wnib) bytes.length (s.extent values).1 (s.extent values).2) :
    s.emit values bytes onFull commit = .next commit := by
  rw [State.emit, if_neg hroom, State.writesInto, overlap_eq_false_iff.2 h]
  rfl

end Sys2Proof.Machine
end

section
/-! CLAIM. `ENCODE` (42_nibblepack_stream.md R171, R172) and `HENC` (44_histogram.md R208, R210, R211). -/

namespace Sys2Proof.Machine

open Sys2Proof.Safety

/-! ### `ENCODE` -/

/-- The register tests of `ENCODE`, in the order of R172. -/
theorem exec_encode_raises {s : State} :
    (s.wnib.toNat % 2 = 1 → exec .encode s = .next (s.raise .oddCursor)) ∧
      (s.wnib.toNat % 2 = 0 → s.valCount.toNat > 2 ^ 32 - 1 → exec .encode s = .next (s.raise .countOverflow)) ∧
      (s.wnib.toNat % 2 = 0 → s.valCount.toNat ≤ 2 ^ 32 - 1 → BadMode s →
        exec .encode s = .next (s.raise .badMode)) := by
  change (_ → execEncode s = _) ∧ (_ → _ → execEncode s = _) ∧ (_ → _ → _ → execEncode s = _)
  refine ⟨fun hodd => ?_, fun heven hcount => ?_, fun heven hcount hbad => ?_⟩
  · rw [execEncode, if_pos (isOdd_eq_true_iff.2 hodd)]
  · rw [execEncode, isOdd_eq_false_iff.2 heven, if_neg Bool.false_ne_true, Config.maxCount, if_pos hcount]
  · rw [execEncode, isOdd_eq_false_iff.2 heven, if_neg Bool.false_ne_true, Config.maxCount, if_neg hcount.not_gt,
      State.sinkMode_eq_none_iff.2 hbad]

/-- Settles O32: after the register tests the command emits the stream of the transformed values. -/
theorem encodeWritesStream : Obligations.EncodeWritesStream := by
  intro s hwf
  refine ⟨decodeInvertsEncode .encode rfl, ?_⟩
  intro count p v
  obtain ⟨hraisesOdd, hraisesCount, hraisesMode⟩ := exec_encode_raises (s := s)
  by_cases hodd : s.wnib.toNat % 2 = 1
  · rw [if_pos hodd]
    exact hraisesOdd hodd
  rw [if_neg hodd]
  have heven := Nat.mod_two_ne_one.1 hodd
  by_cases hcount : count > 2 ^ 32 - 1
  · rw [if_pos hcount]
    exact hraisesCount heven hcount
  rw [if_neg hcount]
  have hcount := Nat.le_of_not_gt hcount
  by_cases hbad : BadMode s
  · rw [if_pos hbad]
    exact hraisesMode heven hcount hbad
  rw [if_neg hbad]
  intro md hmode hvalues hdst list bytes
  have hlength : list.length = count := (forwardList_length ..).trans (Memory.readElems_length ..)
  have hexec : exec .encode s = encodeUnder md s := by
    rw [exec_encode_of_tests heven hcount (State.sinkMode_of_modeIs hbad hmode),
      State.using_of_sliceOk (forall_mem_pair hvalues hdst)]
  by_cases hfull : p + bytes.length > s.dstCap.toNat
  · rw [if_pos hfull]
    exact hexec.trans (State.emit_of_full hfull)
  rw [if_neg hfull]
  intro hapart
  obtain ⟨hwnib, hnbytes, hholds, hsame, hstages⟩ := State.commitEncoded_writes hwf (bytes := bytes) hdst
    (Nat.le_of_not_gt hfull) list (forwardAcc md s.acc v)
  refine ⟨_, hexec.trans (State.emit_of_apart hfull hapart), rfl, rfl, ?_, hwnib, hnbytes, hholds, hsame, ?_⟩
  · have hnvals : BitVec.ofNat 64 list.length = s.valCount := by
      rw [hlength, BitVec.ofNat_toNat, BitVec.setWidth_eq]
    rw [State.commitEncoded_frame, ← hnvals]
    rfl
  · rw [← hlength]
    exact hstages

/-! ### `HENC` -/

theorem exec_henc_of_problem {s : State} {c : Subcause} (h : s.frameProblem = some c) :
    exec .henc s = .next (s.raiseIn .validate c) := by
  change execHenc s = _
  rw [execHenc, h]

/-- One register test of `HENC`: it names the problem, or the rest of the tests decides. -/
theorem exec_henc_test {s : State} {test goal : Prop} [Decidable test] {rest : Option Subcause} (c : Subcause)
    (h : s.frameProblem = if test then some c else rest) (hrest : s.frameProblem = rest → goal) :
    if test then exec .henc s = .next (s.raiseIn .validate c) else goal := by
  split_ifs at h ⊢
  · exact exec_henc_of_problem h
  · exact hrest h

/-- The bytes of a frame, the header fields byte by byte (R72, R120). -/
theorem encodeFrame_eq (f : Byte) (nb : BitVec 32) (init mult : Word) (t : List Word) :
    encodeFrame f nb init mult t =
      [f] ++ leByteList nb.toNat 2 ++ leByteList init.toNat 8 ++ leByteList mult.toNat 8 ++ encodeStream t := by
  simp only [encodeFrame, leBytes_eq_leByteList, List.cons_append, List.nil_append]

/-- Settles O43: after the register tests the command emits the frame of the transformed values. -/
theorem hencWritesFrame : Obligations.HencWritesFrame := by
  intro s hwf
  refine ⟨decodeInvertsEncode .henc rfl, ?_⟩
  intro count p v u list bytes
  refine exec_henc_test .oddCursor s.frameProblem_eq fun h => exec_henc_test .hnbOverflow h fun h =>
    exec_henc_test .badMult h fun h => exec_henc_test .badInit h fun h => exec_henc_test .fmtUnimplemented h fun h =>
    exec_henc_test .fmtUnknown h fun hproblem => ?_
  intro hvalues hdst
  have hinput : s.frameInput = u := rfl
  have hbytes : s.frameBytes = bytes := encodeFrame_eq ..
  have hsize : bytes.length = 19 + (encodeStream list).length := hbytes ▸ encodeFrame_length ..
  have hlength : list.length = count := by
    rw [forwardList_length, ← hinput, State.frameInput, formatOrder_length, Memory.readElems_length]
  have hexec : exec .henc s =
      s.emit .frameValues bytes (s.raiseIn .validate .dstFull) s.commitFrame.succeed := by
    rw [exec_henc_of_tests hproblem, State.using_of_sliceOk (forall_mem_pair hvalues hdst), hbytes]
  by_cases hfull : p + bytes.length > s.dstCap.toNat
  · rw [if_pos hfull]
    exact hexec.trans (State.emit_of_full hfull)
  rw [if_neg hfull]
  intro hapart
  obtain ⟨hwnib, hnbytes, hholds, hsame, hstages⟩ := State.commitEncoded_writes hwf (bytes := bytes) hdst
    (Nat.le_of_not_gt hfull) list (forwardAcc .delta 0 u)
  have hcommit : s.commitFrame =
      { s.commitEncoded list bytes (forwardAcc .delta 0 u) with hstate := FrameState.done.code } := by
    rw [State.commitFrame, hbytes, hinput]
  rw [hcommit] at hexec
  clear_value bytes list u
  refine ⟨_, hexec.trans (State.emit_of_apart hfull hapart), rfl, rfl, ?_, hwnib, ?_, hnbytes, hsize, hholds, hsame, ?_⟩
  · rw [State.commitEncoded_frame]
    rfl
  · have hsmall : list.length < 2 ^ 64 := by omega
    exact (Nat.mod_eq_of_lt hsmall).trans hlength
  · rw [← hlength]
    exact hstages

end Sys2Proof.Machine
end

section
/-! SUPPORT. What the decoding commands leave (42_nibblepack_stream.md R175, 43_sink.md R192, 44_histogram.md R214): the
elements, the accumulator and the last block in the slot registers. -/

namespace Sys2Proof.Machine

open Sys2Proof.Safety

/-! ### Pushing a list -/

theorem accAfter_cons (md : SinkMode) (a v : Word) (l : List Word) :
    accAfter md a (v :: l) = accAfter md (accAfter md a [v]) l := by
  cases md <;> rfl

theorem sinkOutput_zero (md : SinkMode) (a v : Word) (l : List Word) :
    sinkOutput md a (v :: l) 0 = sinkValue md a v := by
  cases md <;> rfl

theorem sinkOutput_succ (md : SinkMode) (a v : Word) (l : List Word) (k : Nat) :
    sinkOutput md a (v :: l) (k + 1) = sinkOutput md (accAfter md a [v]) l k := by
  cases md <;> rfl

theorem State.sinkPush_acc_eq_accAfter (s : State) (md : SinkMode) (v : Word) :
    (s.sinkPush md v).acc = accAfter md s.acc [v] := by
  cases md <;> rfl

theorem State.pushAll_acc (s : State) (md : SinkMode) (l : List Word) :
    (s.pushAll md l).acc = accAfter md s.acc l := by
  induction l generalizing s with
  | nil => cases md <;> rfl
  | cons v rest ih => rw [State.pushAll, ih, State.sinkPush_acc_eq_accAfter, ← accAfter_cons]

/-- Element `k` of what a list of pushes appends (R192). -/
theorem State.readElem_pushAll {s : State} (h : s.mem.wf) (md : SinkMode) {l : List Word} {k : Nat} (hk : k < l.length)
    (hl : s.outLen.toNat + l.length < 2 ^ 64) :
    (s.pushAll md l).mem.readElem (s.outBase.toNat + 8 * s.outLen.toNat + 8 * k) = sinkOutput md s.acc l k := by
  induction l generalizing s k with
  | nil => cases hk
  | cons v rest ih =>
    rw [List.length_cons] at hk hl
    have hwf := State.sinkPush_wf h md v
    have hnext : (s.sinkPush md v).outLen.toNat = s.outLen.toNat + 1 := by
      rw [State.sinkPush_outLen]
      exact toNat_cursor_add (n := 1) (by omega)
    rw [State.pushAll]
    cases k with
    | zero =>
      have hkeep := State.pushAll_sameOutside hwf md rest (by omega)
      rw [hnext, State.sinkPush_outBase] at hkeep
      rw [Nat.mul_zero, Nat.add_zero, Memory.readElem_congr fun b _ hb => hkeep b (.inl (by omega)),
        State.sinkPush_mem, Memory.readElem_writeElem h, sinkOutput_zero]
    | succ k =>
      have hrest := ih hwf (Nat.lt_of_succ_lt_succ hk) (by omega)
      rw [hnext, State.sinkPush_outBase, State.sinkPush_acc_eq_accAfter] at hrest
      rw [sinkOutput_succ, ← hrest]
      congr 1
      omega

/-! ### The commit phases -/

/-- The staging registers of `t` hold the last block of a list, or those of `s` where there is none (R57). -/
structure StagesLastBlock (s t : State) (l : List BlockHeader) : Prop where
  of_none : l.getLast? = none → t.x = s.x ∧ t.zm = s.zm ∧ t.nw = s.nw
  of_some : ∀ b, l.getLast? = some b → t.x = decodeBlock s.mem s.srcBase.toNat b ∧ t.zm = b.mask ∧ t.nw.toNat = b.n

theorem State.stageRead_stages (s : State) {l : List BlockHeader} (hl : ∀ b ∈ l, b.n ≤ 16) :
    StagesLastBlock s (s.stageRead l) l where
  of_none hnone := by
    rw [State.stageRead, hnone]
    exact ⟨rfl, rfl, rfl⟩
  of_some b hsome := by
    rw [State.stageRead, hsome]
    exact ⟨rfl, rfl, toNat_ofNat_width (hl b (List.mem_of_getLast? hsome))⟩

/-- What the commit phase of `DECODE` leaves in the sink and in the staging registers (R175, R192). -/
theorem State.commitDecoded_delivers {s : State} (hwf : s.mem.wf) (md : SinkMode) {p lim : Nat} {i : StreamInfo}
    (hcheck : streamCheck s.mem s.srcBase.toNat s.srcLen.toNat p lim = .ok i)
    (hl : s.outLen.toNat + i.deliver < 2 ^ 64) :
    let t := s.commitDecoded md i
    let raw := streamValues s.mem s.srcBase.toNat i
    t.acc = accAfter md s.acc raw ∧
      (∀ k, k < i.deliver →
        t.mem.readElem (s.outBase.toNat + 8 * s.outLen.toNat + 8 * k) = sinkOutput md s.acc raw k) ∧
      StagesLastBlock s t i.blocks := by
  have hlength := streamValues_length hcheck
  have hacc := State.pushAll_acc (s.stageRead i.blocks) md (streamValues s.mem s.srcBase.toNat i)
  have hstages := s.stageRead_stages (width_le_of_streamCheck hcheck)
  rw [State.stageRead_acc] at hacc
  refine ⟨hacc, fun k hk => ?_, ?_⟩
  · have helem := State.readElem_pushAll (s := s.stageRead i.blocks) (by rwa [State.stageRead_mem]) md
      (l := streamValues s.mem s.srcBase.toNat i) (k := k) (by rwa [hlength])
      (by rwa [State.stageRead_outLen, hlength])
    rw [State.stageRead_outBase, State.stageRead_outLen, State.stageRead_acc] at helem
    exact helem
  · rw [State.commitDecoded, State.pushAll_frame]
    exact ⟨hstages.of_none, hstages.of_some⟩

/-- The counts and the cursor a checked stream leaves fit their registers (R75 (b), R175). -/
theorem State.commitDecoded_counts {s : State} (md : SinkMode) {p lim : Nat} {i : StreamInfo} (hsrc : SourceOk s)
    (hcheck : streamCheck s.mem s.srcBase.toNat s.srcLen.toNat p lim = .ok i)
    (hl : i.deliver < 2 ^ 64) :
    let t := s.commitDecoded md i
    t.rnib.toNat = 2 * i.stop ∧ t.nvals.toNat = i.deliver ∧ t.nbytes.toNat = i.stop - byteOffset s.rnib := by
  obtain ⟨-, hbound⟩ := hsrc
  obtain ⟨-, hstop⟩ := streamCheck_stop hcheck
  exact ⟨toNat_cursorAt (hstop.trans hbound), Nat.mod_eq_of_lt hl, Nat.mod_eq_of_lt (by omega)⟩

/-- `HDEC` keeps the accumulator and the staging registers its stream part leaves (R214). -/
theorem State.commitFrameRead_keeps (s : State) (i : FrameInfo) :
    let d := s.resetSink.commitDecoded .delta i.stream
    let t := s.commitFrameRead i
    t.acc = d.acc ∧ t.x = d.x ∧ t.zm = d.zm ∧ t.nw = d.nw := by
  dsimp only [State.commitFrameRead]
  rw [State.undoOrder_frame]
  exact ⟨rfl, rfl, rfl, rfl⟩

/-- The last value of a list of partial sums is the sum of the whole list. -/
theorem getLastD_accAfter_delta (a : Word) (raw : List Word) :
    ((List.range raw.length).map fun k => accAfter .delta a (raw.take (k + 1))).getLastD a = accAfter .delta a raw := by
  cases hlength : raw.length with
  | zero => rw [List.length_eq_zero_iff.1 hlength]; rfl
  | succ n =>
    rw [List.range_succ, List.map_append, List.map_singleton, List.getLastD_concat, List.take_of_length_le hlength.le]

theorem count_lt_of_streamCheck {m : Memory} {base len p lim : Nat} {i : StreamInfo}
    (h : streamCheck m base len p lim = .ok i) : i.count < 2 ^ 32 := by
  obtain ⟨-, hcount, -⟩ := streamCheck_eq_ok_iff.1 h
  rw [hcount, ← Memory.readLE_eq_leValue]
  exact m.readLE_lt (base + p) 4

/-- What the commit phase of `HDEC` leaves of the frame's values: the partial sums of the stream's values in the
format's order, the last of them in the accumulator (R208, R213, R214). -/
theorem State.commitFrameRead_delivers {s : State} (hwf : s.mem.wf) {p lim : Nat} {i : FrameInfo}
    (hcheck : streamCheck s.mem s.srcBase.toNat s.srcLen.toNat p lim = .ok i.stream)
    (hl : i.stream.deliver < 2 ^ 64) :
    let t := s.commitFrameRead i
    let raw := streamValues s.mem s.srcBase.toNat i.stream
    let u := (List.range i.stream.deliver).map fun k => accAfter .delta 0 (raw.take (k + 1))
    t.acc = u.getLastD 0 ∧ t.outLen.toNat = i.stream.deliver ∧
      t.mem.readElems s.outBase.toNat i.stream.deliver = formatOrder i.format u ∧
      StagesLastBlock s t i.stream.blocks := by
  have hempty : s.resetSink.outLen.toNat + i.stream.deliver = i.stream.deliver := Nat.zero_add _
  obtain ⟨hacc, helems, hstages⟩ := State.commitDecoded_delivers (s := s.resetSink) hwf .delta hcheck
    (hempty.trans_lt hl)
  have houtLen := State.toNat_commitDecoded_outLen (s := s.resetSink) .delta hcheck (hempty.trans_lt hl)
  obtain ⟨hkeepAcc, hkeepX, hkeepZm, hkeepNw⟩ := s.commitFrameRead_keeps i
  have hlast := getLastD_accAfter_delta 0 (streamValues s.mem s.srcBase.toNat i.stream)
  rw [streamValues_length hcheck] at hlast
  refine ⟨hkeepAcc.trans (hacc.trans hlast.symm), ?_, ?_, ?_, ?_⟩
  · rw [State.commitFrameRead_outLen, houtLen, hempty]
  · rw [State.readElems_commitFrameRead hwf, Memory.readElems_eq_map]
    exact congrArg _ (List.map_congr_left fun k hk => helems k (List.mem_range.1 hk))
  · rw [hkeepX, hkeepZm, hkeepNw]
    exact hstages.of_none
  · rw [hkeepX, hkeepZm, hkeepNw]
    exact hstages.of_some

end Sys2Proof.Machine
end

section
/-! CLAIM. `DECODE` (42_nibblepack_stream.md R175) and `HDEC` (44_histogram.md R208, R213, R214). -/

namespace Sys2Proof.Machine

open Sys2Proof.Safety

/-! ### `DECODE` -/

theorem decodeUnder_of_error {s : State} (md : SinkMode) {c : Subcause}
    (h : streamCheck s.mem s.srcBase.toNat s.srcLen.toNat (byteOffset s.rnib) s.limit.toNat = .error c) :
    decodeUnder md s = .next (s.raise c) := by
  rw [decodeUnder, h]

theorem decodeUnder_of_full {s : State} (md : SinkMode) {i : StreamInfo}
    (h : streamCheck s.mem s.srcBase.toNat s.srcLen.toNat (byteOffset s.rnib) s.limit.toNat = .ok i)
    (hfull : s.outLen.toNat + i.deliver > s.outCap.toNat) : decodeUnder md s = .next (s.raise .outFull) := by
  rw [decodeUnder, h]
  exact if_pos hfull

theorem decodeUnder_of_apart {s : State} (md : SinkMode) {i : StreamInfo}
    (h : streamCheck s.mem s.srcBase.toNat s.srcLen.toNat (byteOffset s.rnib) s.limit.toNat = .ok i)
    (hroom : ¬s.outLen.toNat + i.deliver > s.outCap.toNat)
    (hapart : Apart (s.outBase.toNat + 8 * s.outLen.toNat) (8 * i.deliver) s.srcBase.toNat s.srcLen.toNat) :
    decodeUnder md s = .next (s.commitDecoded md i).succeed := by
  have hfree : s.writesInto (s.outBase.toNat + 8 * s.outLen.toNat) (8 * i.deliver) .source = false :=
    overlap_eq_false_iff.2 hapart
  rw [decodeUnder, h]
  exact (if_neg hroom).trans (if_neg (Bool.eq_false_iff.1 hfree))

theorem exec_decode_raises {s : State} :
    (s.rnib.toNat % 2 = 1 → exec .decode s = .next (s.raise .oddCursor)) ∧
      (s.rnib.toNat % 2 = 0 → BadMode s → exec .decode s = .next (s.raise .badMode)) := by
  change (_ → execDecode s = _) ∧ (_ → _ → execDecode s = _)
  refine ⟨fun hodd => ?_, fun heven hbad => ?_⟩
  · rw [execDecode, if_pos (isOdd_eq_true_iff.2 hodd)]
  · rw [execDecode, isOdd_eq_false_iff.2 heven, if_neg Bool.false_ne_true, State.sinkMode_eq_none_iff.2 hbad]

/-- Settles O36: after the register tests the command checks the stream and the room, then pushes the values. -/
theorem decodeDeliversStream : Obligations.DecodeDeliversStream := by
  intro s hwf
  refine ⟨decodeInvertsEncode .decode rfl, ?_⟩
  intro p
  obtain ⟨hraisesOdd, hraisesMode⟩ := exec_decode_raises (s := s)
  by_cases hodd : s.rnib.toNat % 2 = 1
  · rw [if_pos hodd]
    exact hraisesOdd hodd
  rw [if_neg hodd]
  have heven := Nat.mod_two_ne_one.1 hodd
  by_cases hbad : BadMode s
  · rw [if_pos hbad]
    exact hraisesMode heven hbad
  rw [if_neg hbad]
  intro md hmode hsrc hout
  have hexec := exec_decode heven (State.sinkMode_of_modeIs hbad hmode) hsrc hout
  cases hcheck : streamCheck s.mem s.srcBase.toNat s.srcLen.toNat p s.limit.toNat with
  | error c => exact hexec.trans (decodeUnder_of_error md hcheck)
  | ok i =>
    dsimp only
    by_cases hfull : s.outLen.toNat + i.deliver > s.outCap.toNat
    · rw [if_pos hfull]
      exact hexec.trans (decodeUnder_of_full md hcheck hfull)
    rw [if_neg hfull]
    intro hapart
    have hcap := s.outCap.isLt
    have hl : s.outLen.toNat + i.deliver < 2 ^ 64 := by omega
    obtain ⟨hacc, helems, hstages⟩ := State.commitDecoded_delivers hwf md hcheck hl
    obtain ⟨hrnib, hnvals, hnbytes⟩ := State.commitDecoded_counts md hsrc hcheck (by omega)
    refine ⟨_, hexec.trans (decodeUnder_of_apart md hcheck hfull hapart), rfl, rfl, ?_, streamValues_length hcheck,
      State.toNat_commitDecoded_outLen md hcheck hl, hrnib, hnvals, hnbytes, helems,
      State.commitDecoded_sameOutside hwf md i hl, ?_⟩
    · rw [← streamValues, ← hacc, State.commitDecoded_frame]
      rfl
    · cases hlast : i.blocks.getLast? with
      | none => exact hstages.of_none hlast
      | some b => exact hstages.of_some b hlast

/-! ### `HDEC` -/

theorem exec_hdec_of_odd {s : State} (hodd : s.rnib.toNat % 2 = 1) :
    exec .hdec s = .next (s.raiseIn .fmt .oddCursor) := by
  change execHdec s = _
  rw [execHdec, if_pos (isOdd_eq_true_iff.2 hodd)]

theorem decodeFrame_of_error {s : State} {st : FrameState} {c : Subcause}
    (h : frameCheck s.mem s.srcBase.toNat s.srcLen.toNat (byteOffset s.rnib) s.outCap.toNat = .error (st, c)) :
    decodeFrame s = .next (s.raiseIn st c) := by
  rw [decodeFrame, h]

theorem decodeFrame_of_apart {s : State} {i : FrameInfo}
    (h : frameCheck s.mem s.srcBase.toNat s.srcLen.toNat (byteOffset s.rnib) s.outCap.toNat = .ok i)
    (hapart : Apart s.outBase.toNat (8 * i.stream.deliver) s.srcBase.toNat s.srcLen.toNat) :
    decodeFrame s = .next (s.commitFrameRead i).succeed := by
  have hfree : s.writesInto s.outBase.toNat (8 * i.stream.deliver) .source = false := overlap_eq_false_iff.2 hapart
  rw [decodeFrame, h]
  exact if_neg (Bool.eq_false_iff.1 hfree)

/-- The counts and the cursor a checked frame leaves fit their registers (R75 (b), R214). -/
theorem State.commitFrameRead_counts {s : State} {i : FrameInfo} (hsrc : SourceOk s)
    (h : frameCheck s.mem s.srcBase.toNat s.srcLen.toNat (byteOffset s.rnib) s.outCap.toNat = .ok i) :
    let t := s.commitFrameRead i
    t.hnb.toNat = i.buckets ∧ t.rnib.toNat = 2 * i.stream.stop ∧ t.nvals.toNat = i.stream.deliver ∧
      t.nbytes.toNat = i.stream.stop - byteOffset s.rnib := by
  obtain ⟨hstream, hbuckets, -⟩ := stream_of_frameCheck h
  have hcount := count_lt_of_streamCheck hstream
  have hdeliver := deliver_of_frameCheck h
  obtain ⟨hrnib, hnvals, hnbytes⟩ := State.commitDecoded_counts (s := s.resetSink) .delta hsrc hstream (by omega)
  rw [State.commitFrameRead_frame]
  exact ⟨Nat.mod_eq_of_lt (hbuckets ▸ hcount), hrnib, hnvals, hnbytes⟩

/-- Settles O45: after the register test the command checks the frame, then pushes the values of its stream into the
reset sink and undoes the format's order. -/
theorem hdecReadsFrame : Obligations.HdecReadsFrame := by
  intro s hwf
  refine ⟨decodeInvertsEncode .hdec rfl, ?_⟩
  intro p
  by_cases hodd : s.rnib.toNat % 2 = 1
  · rw [if_pos hodd]
    exact exec_hdec_of_odd hodd
  rw [if_neg hodd]
  intro hsrc hout
  have hexec := exec_hdec (Nat.mod_two_ne_one.1 hodd) hsrc hout
  cases hcheck : frameCheck s.mem s.srcBase.toNat s.srcLen.toNat p s.outCap.toNat with
  | error e => exact hexec.trans (decodeFrame_of_error hcheck)
  | ok i =>
    obtain ⟨hstream, hbuckets, -⟩ := stream_of_frameCheck hcheck
    have hdeliver := deliver_of_frameCheck hcheck
    have hcount := count_lt_of_streamCheck hstream
    have hl : i.stream.deliver < 2 ^ 64 := by omega
    obtain ⟨hacc, houtLen, helems, hstages⟩ := State.commitFrameRead_delivers hwf hstream hl
    obtain ⟨hnb, hrnib, hnvals, hnbytes⟩ := State.commitFrameRead_counts hsrc hcheck
    dsimp only
    rw [← hdeliver]
    intro hapart
    refine ⟨_, hexec.trans (decodeFrame_of_apart hcheck hapart), rfl, rfl, ?_, houtLen, hnb,
      hbuckets.symm.trans hdeliver.symm, hrnib, hnvals, hnbytes, helems, State.commitFrameRead_sameOutside hwf i hl, ?_⟩
    · rw [← streamValues, ← hacc, State.commitFrameRead_frame]
      rfl
    · cases hlast : i.stream.blocks.getLast? with
      | none => exact hstages.of_none hlast
      | some b => exact hstages.of_some b hlast

end Sys2Proof.Machine
end
